-- ==== Sys2Proof/Word.lean ====
section
/-! DEFINITION. The two word types of the machine the spec builds: a register of `W_CFG` = `W_LEN` = 32 bits and a byte
(00_scope.md R6). The engine itself takes both widths as arguments (Machine/State.lean). -/

namespace Sys2Proof

/-- A register at the width the spec takes for `W_CFG` and `W_LEN`: unsigned, 32 bits (00_scope.md R6, 92 D2). -/
abbrev Word := BitVec 32

/-- A byte, 0 to 255 (00_scope.md R7). -/
abbrev Byte := BitVec 8

end Sys2Proof
end

