-- ==== Sys2Proof/Config.lean ====
section
/-! DEFINITION. The two capacities an implementation fixes (00_scope.md R6). Its two widths are arguments of the engine's
types (Syntax.lean, Machine/State.lean). -/

namespace Sys2Proof

/-- The open parameters of 00_scope.md R6: `none` is "no bound". They are an argument of every engine operation that
depends on them. -/
structure Params where
  /-- `MAX_STRIDE`, the capacity in bytes of each row buffer. -/
  maxStride : Option Nat
  /-- `MAX_OUT`, the capacity in bytes of the output memory. -/
  maxOut : Option Nat
deriving DecidableEq, Repr

/-- The spec's default: no bound for either (00_scope.md R6). -/
def Params.default : Params := { maxStride := none, maxOut := none }

/-- `n` bytes fit a capacity that may be unbounded. -/
def fits (capacity : Option Nat) (n : Nat) : Bool :=
  match capacity with
  | none => true
  | some m => n ≤ m

end Sys2Proof
end

