-- ==== Sys2Proof/Syntax.lean ====
section
/-! DEFINITION. The instructions of the two opcode levels (30_encoding.md R50, R52, R54, R59): one constructor for each
mnemonic of spec/opcode_table.json, carrying the opcode value where several rows share a mnemonic. -/

namespace Sys2Proof

/-- The four operand fields of format CFG (30_encoding.md R50, R53), at the widths `W_CFG` and `W_LEN` (00_scope.md R6). -/
structure CfgOpsOf (wCfg wLen : Nat) where
  /-- COLORS, colour channels per pixel. -/
  colors : BitVec wCfg
  /-- BPC, bits per component. -/
  bpc : BitVec wCfg
  /-- COLUMNS, pixels per row. -/
  columns : BitVec wCfg
  /-- LEN, input length in bytes. -/
  len : BitVec wLen
deriving DecidableEq, Repr

/-- Format CFG, the configuration START presents: the opcode field PRED and the operands (30_encoding.md R50). -/
structure CfgOf (wCfg wLen : Nat) where
  /-- PRED, the level-1 opcode. -/
  pred : BitVec wCfg
  /-- The other four fields. -/
  ops : CfgOpsOf wCfg wLen
deriving DecidableEq, Repr

/-- The operand fields at the widths the opcode table is written for, 32 and 32 (30_encoding.md R52, R59). -/
abbrev CfgOps := CfgOpsOf 32 32

/-- The CFG record at those widths. -/
abbrev Cfg := CfgOf 32 32

/-- The instructions. A row operation's own operands, the STRIDE content bytes after its opcode and the neighbours
`a`, `b`, `c`, are implicit (30_encoding.md R54). -/
inductive Instr where
  /-- PRED = 1, the identity path (R84). -/
  | predNone (ops : CfgOps)
  /-- PRED = 2, the TIFF path (R97). -/
  | predTiff (ops : CfgOps)
  /-- PRED of 10 or more, the PNG path (R106); the register keeps the exact value (R12). -/
  | predPng (pred : Word) (ops : CfgOps)
  /-- PRED in 0, 3 to 9: UnsupportedPredictor (R131). -/
  | illegalPred (pred : Word) (ops : CfgOps)
  /-- Filter type 0, None (R110). -/
  | rowNone
  /-- Filter type 1, Sub (R111). -/
  | rowSub
  /-- Filter type 2, Up (R112). -/
  | rowUp
  /-- Filter type 3, Average (R113). -/
  | rowAvg
  /-- Filter type 4, Paeth (R114). -/
  | rowPaeth
  /-- Filter type 5 to 255: UnsupportedFilterType (R134). -/
  | illegalFt (ft : Byte)
deriving DecidableEq, Repr

end Sys2Proof
end

