-- ==== Sys2Proof/Machine/State.lean ====
section
/-! DEFINITION. The engine's state as plain data (10_state.md R10), the state the host's interface steps, the reasons a
step can stop, and the state after power-on reset (10_state.md R27, 70_reset_and_hazards.md R150). -/

namespace Sys2Proof.Machine

/-- A byte memory or row buffer: (address, byte) pairs, addresses strictly rising, no entry equal to what an unlisted
address reads as (`Memory.wf` of Machine/Ops.lean). -/
abbrev Memory := List Host.Cell

/-- PHASE (10_state.md R17). -/
inductive Phase where
  | idle
  | run
  | done
  | error
deriving DecidableEq, Repr

/-- PATH (10_state.md R18). -/
inductive Path where
  | none
  | id
  | tiff
  | png
deriving DecidableEq, Repr

/-- STAGE (10_state.md R19); value 3 is never produced and has no constructor. -/
inductive Stage where
  | rowstart
  | column
  | commit
deriving DecidableEq, Repr

/-- The four error kinds (60_exceptions.md R130 to R135). -/
inductive ErrorKind where
  | unsupportedPredictor
  | unsupportedBitDepth
  /-- Reserved: no rule raises it (60_exceptions.md R133). -/
  | notImplemented
  | unsupportedFilterType
deriving DecidableEq, Repr

/-- The complete state of the engine, exactly the components of 10_state.md R10, at the widths `W_CFG` and `W_LEN`, which
are arguments (00_scope.md R6). -/
structure Engine (wCfg wLen : Nat) where
  /-- PRED, predictor code. -/
  pred : BitVec wCfg
  /-- COLORS. -/
  colors : BitVec wCfg
  /-- BPC. -/
  bpc : BitVec wCfg
  /-- COLUMNS. -/
  columns : BitVec wCfg
  /-- LEN. -/
  len : BitVec wLen
  /-- BPP, bytes per pixel. -/
  bpp : BitVec wLen
  /-- STRIDE, content bytes per row. -/
  stride : BitVec wLen
  /-- ROWSIZE, input bytes per row. -/
  rowsize : BitVec wLen
  /-- NROWS, whole rows in the input. -/
  nrows : BitVec wLen
  /-- PHASE. -/
  phase : Phase
  /-- PATH. -/
  path : Path
  /-- STAGE. -/
  stage : Stage
  /-- I, current row. -/
  i : BitVec wLen
  /-- J, current column. -/
  j : BitVec wLen
  /-- K, next byte of the identity path. -/
  k : BitVec wLen
  /-- FT, filter type of the current PNG row. -/
  ft : Byte
  /-- ERR; `none` is the spec's value 0 (10_state.md R22). -/
  err : Option ErrorKind
  /-- OUT_LEN. -/
  outLen : BitVec wLen
  /-- PREV, the previous output row. -/
  prev : Memory
  /-- CUR, the row being reconstructed. -/
  cur : Memory
  /-- IN, the filtered input bytes. -/
  inMem : Memory
  /-- OUT, the reconstructed bytes. -/
  outMem : Memory
deriving DecidableEq, Repr

/-- What the host's interface steps: an engine at the spec's widths, `W_CFG` = `W_LEN` = 32 (00_scope.md R6), beside the
two things that are not the engine's state. No engine operation takes this type; each takes an `Engine`. -/
structure State extends Engine 32 32 where
  /-- The host's side: the START the host has performed and the engine has not yet taken (log entry 6). -/
  start : Option Cfg
  /-- The argument the engine is run with: the open parameters of 00_scope.md R6 (log entry 5). -/
  params : Params
deriving DecidableEq, Repr

/-- Accesses that do not exist. No state that meets `State.Inv` (Safety.lean) reaches one; stopping there is safe. -/
inductive Fault where
  /-- A read of IN at LEN or above (20_memory.md R31): the reads of Machine/Operands.lean and the identity step. Safe. -/
  | inOutOfRange
  /-- A row-buffer element at STRIDE or above (10_state.md R24, 20_memory.md R38): the COLUMN steps. Safe. -/
  | rowBufferOutOfRange
  /-- A write of OUT beyond its capacity (00_scope.md R6, 20_memory.md R30, R32): the identity and COMMIT steps. Safe. -/
  | outOutOfRange
deriving DecidableEq, Repr

/-- Situations the spec gives no behaviour. -/
inductive Refusal where
  /-- An instruction that has no meaning yet; no arm of exec answers it. Safe. -/
  | notModelled (mnemonic : String)
  /-- A configuration outside the domain of 40_geometry.md R76, at START (R80, 60_exceptions.md R143). Safe. -/
  | outsideDomain
  /-- START while PHASE is RUN (41_dispatch_identity.md R81, 60_exceptions.md R143), and a second START before the first is
  taken (log entry 6). Safe. -/
  | startWhileRunning
  /-- The host writes IN between START and completion (20_memory.md R45, 70_reset_and_hazards.md R167): `Engine.place` and
  `State.place`, no instruction. Safe. -/
  | inputOwnedByEngine
  /-- A row instruction where the spec enables none of its steps (70_reset_and_hazards.md R160), and RUN with PATH NONE,
  which the spec never produces (10_state.md R18). Safe. -/
  | stepNotEnabled
deriving DecidableEq, Repr

/-- Power-on reset of an engine of any widths (10_state.md R27, 70_reset_and_hazards.md R150). DESIGN CHOICE (log entries
1 to 4): the values the spec leaves unspecified (geometry, FT, PREV, CUR, IN, OUT) are zero or nothing listed. -/
def Engine.reset {wCfg wLen : Nat} : Engine wCfg wLen :=
  { pred := 0, colors := 0, bpc := 0, columns := 0, len := 0
    bpp := 0, stride := 0, rowsize := 0, nrows := 0
    phase := .idle, path := .none, stage := .rowstart, i := 0, j := 0, k := 0
    ft := 0, err := none, outLen := 0
    prev := [], cur := [], inMem := [], outMem := [] }

/-- The machine right after reset: no START is pending and the capacities are the spec's default (log entries 5, 6). -/
def State.reset : State := { toEngine := Engine.reset, start := none, params := Params.default }

end Sys2Proof.Machine
end

