-- ==== Sys2Proof/Machine/Ops.lean ====
section
/-! DEFINITION. The named operations over memories and registers, error entry (60_exceptions.md R136), and the host's
side: placing the input, presenting START, reading the result (10_state.md R29, 41_dispatch_identity.md R86). Engine
operations take the widths `W_CFG` and `W_LEN` as implicit arguments (00_scope.md R6). -/

namespace Sys2Proof.Machine

variable {wCfg wLen : Nat}

/-- What one step of the interface answers. -/
abbrev Result := Host.Outcome State Fault Refusal

/-- What one step of an engine answers. -/
abbrev EngineResult (wCfg wLen : Nat) := Host.Outcome (Engine wCfg wLen) Fault Refusal

/-! ## Memories and row buffers -/

/-- What an unlisted address reads as. DESIGN CHOICE (log entry 1): the spec leaves it unspecified (10_state.md R27). -/
def Memory.unlisted : Byte := 0

/-- Every listed address is above `lo` and they rise strictly, and no entry holds the unlisted byte. -/
def Memory.wfAbove (lo : Nat) : Memory → Bool
  | [] => true
  | (a, b) :: m => lo < a && b != Memory.unlisted && Memory.wfAbove a m

/-- The canonical form of a memory. -/
def Memory.wf : Memory → Bool
  | [] => true
  | (a, b) :: m => b != Memory.unlisted && Memory.wfAbove a m

/-- Read one byte. -/
def Memory.read : Memory → Nat → Byte
  | [], _ => Memory.unlisted
  | (a, b) :: m, k => if k < a then Memory.unlisted else if k = a then b else Memory.read m k

/-- An entry in front of a memory, left out when it holds the unlisted byte. -/
def Memory.cons (k : Nat) (v : Byte) (m : Memory) : Memory := if v = Memory.unlisted then m else (k, v) :: m

/-- Write one byte, keeping the canonical form. -/
def Memory.write : Memory → Nat → Byte → Memory
  | [], k, v => Memory.cons k v []
  | (a, b) :: m, k, v =>
    if k < a then Memory.cons k v ((a, b) :: m)
    else if k = a then Memory.cons k v m
    else (a, b) :: Memory.write m k v

/-- Write the bytes of a list from address `base` upward. -/
def Memory.writeList (m : Memory) (base : Nat) : List Byte → Memory
  | [] => m
  | v :: vs => Memory.writeList (m.write base v) (base + 1) vs

/-- Write elements 0 to `n - 1` of `src` at `base`, `base + 1`, ... in increasing order (20_memory.md R36, R39). -/
def Memory.copyRow (m : Memory) (base : Nat) (src : Memory) : Nat → Memory
  | 0 => m
  | n + 1 => (Memory.copyRow m base src n).write (base + n) (src.read n)

/-- Elements 0 to `n - 1` become 0, the others stay (41_dispatch_identity.md R80): a cleared element is one not listed. -/
def Memory.clearBelow (m : Memory) (n : Nat) : Memory := m.filter (fun c => n ≤ c.1)

/-! ## Accesses -/

/-- `MemRead(IN, addr, 1)`, defined below LEN only (20_memory.md R31). -/
def Engine.readIn (e : Engine wCfg wLen) (addr : Nat) : Except Fault Byte :=
  if addr < e.len.toNat then .ok (e.inMem.read addr) else .error .inOutOfRange

/-- How many bytes OUT can hold: what OUT_LEN can count in `W_LEN` bits, and no more than MAX_OUT (00_scope.md R6,
20_memory.md R30). -/
def outCapacity (p : Params) (wLen : Nat) : Nat :=
  match p.maxOut with
  | none => 2 ^ wLen - 1
  | some m => min m (2 ^ wLen - 1)

/-- Go on with a value, or stop with the fault that kept it from being read. -/
def orFault {α σ : Type} (v : Except Fault α) (go : α → Host.Outcome σ Fault Refusal) : Host.Outcome σ Fault Refusal :=
  match v with
  | .ok x => go x
  | .error f => .fault f

/-! ## Error entry -/

/-- `raise Kind` (60_exceptions.md R136): ERR, PHASE and OUT_LEN; every other register keeps its value. There is no
return from it: only a new START leaves the ERROR phase (60_exceptions.md R140). -/
def Engine.raise (e : Engine wCfg wLen) (kind : ErrorKind) : Engine wCfg wLen :=
  { e with err := some kind, phase := .error, outLen := 0 }

/-! ## What the host sees of an engine -/

/-- The first `n` bytes of OUT. -/
def Engine.outBytes (e : Engine wCfg wLen) (n : Nat) : List Byte := (List.range n).map e.outMem.read

/-- The first `n` bytes of IN. -/
def Engine.inBytes (e : Engine wCfg wLen) (n : Nat) : List Byte := (List.range n).map e.inMem.read

/-- The result of the last invocation (41_dispatch_identity.md R86): none before one is complete. -/
def Engine.result (e : Engine wCfg wLen) : Option (Except ErrorKind (List Byte)) :=
  match e.phase with
  | .idle => none
  | .run => none
  | .done => some (.ok (e.outBytes e.outLen.toNat))
  | .error => e.err.map .error

/-- The operand fields of the configuration registers. -/
def Engine.cfgOps (e : Engine wCfg wLen) : CfgOpsOf wCfg wLen := ⟨e.colors, e.bpc, e.columns, e.len⟩

/-! ## The interface's state around its engine -/

/-- Another engine state, the host's side as it was. -/
def State.withEngine (s : State) (e : Engine 32 32) : State := { s with toEngine := e }

/-- Run an operation on the engine of a state. -/
def State.onEngine (s : State) (op : Engine 32 32 → EngineResult 32 32) : Result :=
  match op s.toEngine with
  | .next e => .next (s.withEngine e)
  | .fault f => .fault f
  | .refused r => .refused r

/-! ## The host's moves (70_reset_and_hazards.md R152, R167)

From START until PHASE is DONE or ERROR the engine owns IN and OUT (20_memory.md R45): a host that writes IN, performs
START again or reads a result in that time has no move here (log entry 16). A START that is performed and not yet taken
counts (log entry 6). -/

/-- The host places bytes in IN from address 0, outside an invocation. -/
def Engine.place (e : Engine wCfg wLen) (bytes : List Byte) : EngineResult wCfg wLen :=
  if e.phase = .run then .refused .inputOwnedByEngine else .next { e with inMem := e.inMem.writeList 0 bytes }

/-- The host places bytes in IN before it performs START. -/
def State.place (s : State) (bytes : List Byte) : Result :=
  match s.start with
  | none => s.onEngine (·.place bytes)
  | some _ => .refused .inputOwnedByEngine

/-- The host performs START, outside RUN; the next step takes it. -/
def State.present (s : State) (c : Cfg) : Result :=
  match s.start with
  | none => if s.phase = .run then .refused .startWhileRunning else .next { s with start := some c }
  | some _ => .refused .startWhileRunning

/-- The result the host can read: none from START until the invocation is complete. -/
def State.result (s : State) : Option (Except ErrorKind (List Byte)) :=
  match s.start with
  | none => s.toEngine.result
  | some _ => none

end Sys2Proof.Machine
end

