-- ==== Sys2Proof/Machine/Geometry.lean ====
section
/-! DEFINITION. The row-buffered geometry handler and the admitted domain (40_geometry.md R70 to R77), in natural numbers
without wrap-around. -/

namespace Sys2Proof.Machine

variable {wCfg wLen : Nat}

/-- The four derived values. -/
structure Geometry where
  bpp : Nat
  stride : Nat
  rowsize : Nat
  nrows : Nat
deriving DecidableEq, Repr

/-- BPP (40_geometry.md R70). -/
def bytesPerPixel (bpc colors : Nat) : Nat := max 1 ((bpc * colors + 7) / 8)

/-- ROWSIZE: the PNG path has a filter-type byte in front of each row (40_geometry.md R73). -/
def rowSize (path : Path) (stride : Nat) : Nat :=
  match path with
  | .png => stride + 1
  | .tiff => stride
  | .id => stride
  | .none => stride

/-- The handler (40_geometry.md R70 to R74). -/
def geometry (path : Path) (o : CfgOpsOf wCfg wLen) : Geometry :=
  let bpp := bytesPerPixel o.bpc.toNat o.colors.toNat
  let stride := o.columns.toNat * bpp
  let rowsize := rowSize path stride
  { bpp := bpp, stride := stride, rowsize := rowsize, nrows := o.len.toNat / rowsize }

/-- BPC in 1, 2, 4, 8, 16 (40_geometry.md R76). -/
def bitDepthListed (bpc : BitVec wCfg) : Bool :=
  bpc.toNat = 1 ∨ bpc.toNat = 2 ∨ bpc.toNat = 4 ∨ bpc.toNat = 8 ∨ bpc.toNat = 16

/-- The derived values fit W_LEN bits and the two capacities (40_geometry.md R76). -/
def Geometry.fitsMachine (g : Geometry) (o : CfgOpsOf wCfg wLen) (p : Params) : Bool :=
  o.bpc.toNat * o.colors.toNat + 7 < 2 ^ wLen
    && g.stride < 2 ^ wLen
    && g.stride + 1 < 2 ^ wLen
    && g.nrows * g.stride < 2 ^ wLen
    && fits p.maxStride g.stride
    && fits p.maxOut (g.nrows * g.stride)

/-- The admitted domain on the TIFF and PNG paths (40_geometry.md R76). On the TIFF path START has already found BPC = 8. -/
def admitted (path : Path) (o : CfgOpsOf wCfg wLen) (p : Params) : Bool :=
  1 ≤ o.colors.toNat && 1 ≤ o.columns.toNat && bitDepthListed o.bpc && (geometry path o).fitsMachine o p

/-- The admitted domain on the identity path: only the output's size (40_geometry.md R76, "all paths"; log entry 15). -/
def admittedIdentity (o : CfgOpsOf wCfg wLen) (p : Params) : Bool := fits p.maxOut o.len.toNat

/-- Write the geometry registers (10_state.md R15). -/
def Engine.setGeometry (e : Engine wCfg wLen) (g : Geometry) : Engine wCfg wLen :=
  { e with
    bpp := BitVec.ofNat wLen g.bpp
    stride := BitVec.ofNat wLen g.stride
    rowsize := BitVec.ofNat wLen g.rowsize
    nrows := BitVec.ofNat wLen g.nrows }

end Sys2Proof.Machine
end

