-- ==== Sys2Proof/Machine/Start.lean ====
section
/-! DEFINITION. START (41_dispatch_identity.md R80 to R83), one operation for each class of PRED, and the meaning of
illegal_PRED (60_exceptions.md R131). -/

namespace Sys2Proof.Machine

variable {wCfg wLen : Nat}

/-- The writes START makes whatever PRED is (41_dispatch_identity.md R80). -/
def Engine.beginStart (e : Engine wCfg wLen) (c : CfgOf wCfg wLen) : Engine wCfg wLen :=
  { e with
    pred := c.pred, colors := c.ops.colors, bpc := c.ops.bpc, columns := c.ops.columns, len := c.ops.len
    outLen := 0, err := none, i := 0, j := 0, k := 0, stage := .rowstart, path := .none }

/-- The selected path begins to run (41_dispatch_identity.md R80). -/
def Engine.runPath (e : Engine wCfg wLen) (path : Path) : Engine wCfg wLen := { e with path := path, phase := .run }

/-- The zero fill of PREV (41_dispatch_identity.md R80, 20_memory.md R41). -/
def Engine.clearPrev (e : Engine wCfg wLen) (n : Nat) : Engine wCfg wLen := { e with prev := e.prev.clearBelow n }

/-- START with PRED = 1: COLORS, BPC, COLUMNS are not looked at (41_dispatch_identity.md R80, R85). -/
def startIdentity (p : Params) (c : CfgOf wCfg wLen) (e : Engine wCfg wLen) : EngineResult wCfg wLen :=
  if admittedIdentity c.ops p then .next ((e.beginStart c).runPath .id) else .refused .outsideDomain

/-- START with PRED = 2: first the bit depth, then the domain (41_dispatch_identity.md R80, R83). -/
def startTiff (p : Params) (c : CfgOf wCfg wLen) (e : Engine wCfg wLen) : EngineResult wCfg wLen :=
  if c.ops.bpc.toNat = 8 then
    if admitted .tiff c.ops p then .next (((e.beginStart c).setGeometry (geometry .tiff c.ops)).runPath .tiff)
    else .refused .outsideDomain
  else .next ((e.beginStart c).raise .unsupportedBitDepth)

/-- START with PRED of 10 or more (41_dispatch_identity.md R80). -/
def startPng (p : Params) (c : CfgOf wCfg wLen) (e : Engine wCfg wLen) : EngineResult wCfg wLen :=
  if admitted .png c.ops p then
    .next ((((e.beginStart c).setGeometry (geometry .png c.ops)).clearPrev (geometry .png c.ops).stride).runPath .png)
  else .refused .outsideDomain

/-- START with an illegal PRED (41_dispatch_identity.md R80, 60_exceptions.md R131). -/
def startIllegal (c : CfgOf wCfg wLen) (e : Engine wCfg wLen) : EngineResult wCfg wLen :=
  .next ((e.beginStart c).raise .unsupportedPredictor)

/-- A level-1 instruction: START where it is legal (41_dispatch_identity.md R81); during RUN the instruction in progress
(`mine`) goes on with its next step and any other is a START during RUN, refused (log entries 8 and 9). -/
def startOrContinue (mine : Bool) (start continue_ : Engine wCfg wLen → EngineResult wCfg wLen) (e : Engine wCfg wLen) :
    EngineResult wCfg wLen :=
  match e.phase with
  | .idle => start e
  | .done => start e
  | .error => start e
  | .run => if mine then continue_ e else .refused .startWhileRunning

/-- illegal_PRED on an engine: never in progress, so during RUN it is a START, refused. -/
def illegalPredictor (c : CfgOf wCfg wLen) (e : Engine wCfg wLen) : EngineResult wCfg wLen :=
  startOrContinue false (startIllegal c) (fun _ => .refused .startWhileRunning) e

/-- illegal_PRED (60_exceptions.md R131). -/
def execIllegalPred (pred : Word) (ops : CfgOps) (s : State) : Result := s.onEngine (illegalPredictor ⟨pred, ops⟩)

end Sys2Proof.Machine
end

