-- ==== Sys2Proof/Machine/Identity.lean ====
section
/-! DEFINITION. PRED.NONE, the identity path (41_dispatch_identity.md R84). -/

namespace Sys2Proof.Machine

variable {wCfg wLen : Nat}

/-- One byte appended to OUT at K (41_dispatch_identity.md R84). -/
def Engine.copyByte (e : Engine wCfg wLen) (v : Byte) : Engine wCfg wLen :=
  { e with outMem := e.outMem.write e.k.toNat v, k := e.k + 1, outLen := e.outLen + 1 }

/-- The identity step (41_dispatch_identity.md R84). -/
def identityStep (p : Params) (e : Engine wCfg wLen) : EngineResult wCfg wLen :=
  if e.k = e.len then .next { e with phase := .done }
  else orFault (e.readIn e.k.toNat) fun v =>
    if e.k.toNat < outCapacity p wLen then .next (e.copyByte v) else .fault .outOutOfRange

/-- PRED.NONE on an engine: START, then one identity step at a time. -/
def predNone (p : Params) (ops : CfgOpsOf wCfg wLen) (e : Engine wCfg wLen) : EngineResult wCfg wLen :=
  startOrContinue (e.path = .id ∧ e.cfgOps = ops) (startIdentity p ⟨1, ops⟩) (identityStep p) e

/-- PRED.NONE. -/
def execPredNone (ops : CfgOps) (s : State) : Result := s.onEngine (predNone s.params ops)

end Sys2Proof.Machine
end

