-- ==== Sys2Proof/Machine/Datapath.lean ====
section
/-! DEFINITION. The byte-wide reconstruction datapath: the adder (43_png.md R109), the average (R113) and the Paeth
comparator (R115). -/

namespace Sys2Proof.Machine

/-- The reconstruction adder: modulo 256, the carry discarded (43_png.md R109). -/
def reconstruct (x predicted : Byte) : Byte := x + predicted

/-- The average: a 9-bit sum, halved by taking its upper eight bits (43_png.md R113, 92 D9). -/
def average (a b : Byte) : Byte := BitVec.extractLsb' 1 8 (a.setWidth 9 + b.setWidth 9)

/-- The Paeth comparator on signed integers (43_png.md R115, R118, 90 C2). -/
def paeth (a b c : Byte) : Byte :=
  let p : Int := (a.toNat : Int) + b.toNat - c.toNat
  let pa := (p - a.toNat).natAbs
  let pb := (p - b.toNat).natAbs
  let pc := (p - c.toNat).natAbs
  if pa ≤ pb ∧ pa ≤ pc then a else if pb ≤ pc then b else c

/-- The absolute value of a two's-complement number. -/
def signedAbs {n : Nat} (x : BitVec n) : BitVec n := if x.msb then -x else x

/-- The comparator on a signed datapath of `n` bits, the parameter of 00_scope.md R6 (43_png.md R118). No step uses it: a
statement says that at every width the spec allows it is `paeth`. -/
def paethAtWidth (n : Nat) (a b c : Byte) : Byte :=
  let p := a.setWidth n + b.setWidth n - c.setWidth n
  let pa := signedAbs (p - a.setWidth n)
  let pb := signedAbs (p - b.setWidth n)
  let pc := signedAbs (p - c.setWidth n)
  if pa.sle pb ∧ pa.sle pc then a else if pb.sle pc then b else c

end Sys2Proof.Machine
end

