-- ==== Sys2Proof/Machine/Operands.lean ====
section
/-! DEFINITION. The engine's effective addresses and operands (20_memory.md R38, R39, 43_png.md R107). Addresses are
natural numbers, computed without wrap-around. -/

namespace Sys2Proof.Machine

variable {wCfg wLen : Nat}

/-- The bounds-checked lookback accessor (20_memory.md R38): 0 below index 0. -/
def byteAt (buf : Memory) (k : Int) : Byte := if k < 0 then 0 else buf.read k.toNat

/-- The column index minus the lookback distance, a signed number (20_memory.md R39). -/
def Engine.lookback (e : Engine wCfg wLen) : Int := (e.j.toNat : Int) - (e.bpp.toNat : Int)

/-- The address of the filtered byte on the TIFF path (20_memory.md R39). -/
def Engine.tiffAddr (e : Engine wCfg wLen) : Nat := e.i.toNat * e.stride.toNat + e.j.toNat

/-- The address of the filter type of row I (20_memory.md R39). -/
def Engine.filterAddr (e : Engine wCfg wLen) : Nat := e.i.toNat * e.rowsize.toNat

/-- The address of the filtered byte on the PNG path (20_memory.md R39). -/
def Engine.pngAddr (e : Engine wCfg wLen) : Nat := e.i.toNat * e.rowsize.toNat + 1 + e.j.toNat

/-- The filtered byte `x` of the TIFF path. -/
def Engine.tiffX (e : Engine wCfg wLen) : Except Fault Byte := e.readIn e.tiffAddr

/-- The filter-type byte of row I. -/
def Engine.filterByte (e : Engine wCfg wLen) : Except Fault Byte := e.readIn e.filterAddr

/-- The filtered byte `x` of the PNG path. -/
def Engine.pngX (e : Engine wCfg wLen) : Except Fault Byte := e.readIn e.pngAddr

/-- The left neighbour `a`. -/
def Engine.left (e : Engine wCfg wLen) : Byte := byteAt e.cur e.lookback

/-- The upper neighbour `b`. -/
def Engine.above (e : Engine wCfg wLen) : Byte := e.prev.read e.j.toNat

/-- The upper-left neighbour `c`. -/
def Engine.aboveLeft (e : Engine wCfg wLen) : Byte := byteAt e.prev e.lookback

end Sys2Proof.Machine
end

