-- ==== Sys2Proof/Machine/Row.lean ====
section
/-! DEFINITION. The row steps the TIFF and PNG paths share (42_tiff.md R96 to R99, 43_png.md R106, R108, R120). -/

namespace Sys2Proof.Machine

variable {wCfg wLen : Nat}

/-- The end of the row loop: I = NROWS at ROWSTART (42_tiff.md R96, 43_png.md R106). -/
def Engine.finish (e : Engine wCfg wLen) : Engine wCfg wLen := { e with phase := .done }

/-- A row begins: J <- 0, STAGE <- COLUMN (42_tiff.md R96, 43_png.md R106). -/
def Engine.beginRow (e : Engine wCfg wLen) : Engine wCfg wLen := { e with j := 0, stage := .column }

/-- FT is loaded (43_png.md R106). -/
def Engine.setFilter (e : Engine wCfg wLen) (t : Byte) : Engine wCfg wLen := { e with ft := t }

/-- CUR[J] <- v, then J moves on and the last column leads to COMMIT (42_tiff.md R97, 43_png.md R108). -/
def Engine.putColumn (e : Engine wCfg wLen) (v : Byte) : Engine wCfg wLen :=
  { e with
    cur := e.cur.write e.j.toNat v
    stage := if e.j.toNat + 1 = e.stride.toNat then .commit else e.stage
    j := e.j + 1 }

/-- The COLUMN step's write; CUR has the elements 0 to STRIDE-1 (10_state.md R24). -/
def columnStep (v : Byte) (e : Engine wCfg wLen) : EngineResult wCfg wLen :=
  if e.j.toNat < e.stride.toNat then .next (e.putColumn v) else .fault .rowBufferOutOfRange

/-- Row I is appended to OUT and the next row is up (42_tiff.md R99, 43_png.md R120). -/
def Engine.appendRow (e : Engine wCfg wLen) : Engine wCfg wLen :=
  { e with
    outMem := e.outMem.copyRow e.outLen.toNat e.cur e.stride.toNat
    outLen := e.outLen + e.stride
    i := e.i + 1
    stage := .rowstart }

/-- PREV <- CUR, all STRIDE bytes (43_png.md R120, 10_state.md R25). -/
def Engine.keepRow (e : Engine wCfg wLen) : Engine wCfg wLen := { e with prev := e.prev.copyRow 0 e.cur e.stride.toNat }

/-- There is room in OUT for a row. -/
def Engine.rowFits (p : Params) (e : Engine wCfg wLen) : Bool :=
  e.outLen.toNat + e.stride.toNat ≤ outCapacity p wLen

/-- The COMMIT step of the TIFF path: PREV is not written (42_tiff.md R99). -/
def commitTiff (p : Params) (e : Engine wCfg wLen) : EngineResult wCfg wLen :=
  if e.rowFits p then .next e.appendRow else .fault .outOutOfRange

/-- The COMMIT step of the PNG path (43_png.md R120). -/
def commitPng (p : Params) (e : Engine wCfg wLen) : EngineResult wCfg wLen :=
  if e.rowFits p then .next e.appendRow.keepRow else .fault .outOutOfRange

end Sys2Proof.Machine
end

