-- ==== Sys2Proof/Machine/Png.lean ====
section
/-! DEFINITION. The PNG path: the five row operations and the illegal filter type (43_png.md R106 to R114, R120,
60_exceptions.md R134), and PRED.PNG (43_png.md R105, R106). -/

namespace Sys2Proof.Machine

variable {wCfg wLen : Nat}

/-- A row is about to begin: PHASE = RUN, PATH = PNG, STAGE = ROWSTART, and I is not NROWS (43_png.md R106). -/
def Engine.atPngRow (e : Engine wCfg wLen) : Bool :=
  e.phase = .run ∧ e.path = .png ∧ e.stage = .rowstart ∧ e.i ≠ e.nrows

/-- A legal row operation with opcode byte `t` and predicted value `predicted`, the step of it that STAGE selects:
ROWSTART (43_png.md R106), COLUMN (R108), COMMIT (R120). Outside the PNG path, and where no row is left, the spec enables
none of its steps (log entry 10). DESIGN CHOICE (log entry 20): given to exec at COLUMN or COMMIT while FT holds another
opcode, or at ROWSTART while another byte heads row I in IN, it runs its own step. R106 and R108 dispatch on that byte and on
FT alone and give the mismatch no behaviour; `step` never forms it. -/
def rowOperation (t : Byte) (predicted : Engine wCfg wLen → Byte) (p : Params) (e : Engine wCfg wLen) :
    EngineResult wCfg wLen :=
  if e.phase = .run ∧ e.path = .png then
    match e.stage with
    | .rowstart => if e.i = e.nrows then .refused .stepNotEnabled else .next (e.setFilter t).beginRow
    | .column => orFault e.pngX fun x => columnStep (reconstruct x (predicted e)) e
    | .commit => commitPng p e
  else .refused .stepNotEnabled

/-- ROW.NONE on an engine (43_png.md R110). -/
def rowNone (p : Params) (e : Engine wCfg wLen) : EngineResult wCfg wLen := rowOperation 0 (fun _ => 0) p e

/-- ROW.SUB on an engine (43_png.md R111). -/
def rowSub (p : Params) (e : Engine wCfg wLen) : EngineResult wCfg wLen := rowOperation 1 (fun e => e.left) p e

/-- ROW.UP on an engine (43_png.md R112). -/
def rowUp (p : Params) (e : Engine wCfg wLen) : EngineResult wCfg wLen := rowOperation 2 (fun e => e.above) p e

/-- ROW.AVG on an engine (43_png.md R113). -/
def rowAvg (p : Params) (e : Engine wCfg wLen) : EngineResult wCfg wLen :=
  rowOperation 3 (fun e => average e.left e.above) p e

/-- ROW.PAETH on an engine (43_png.md R114). -/
def rowPaeth (p : Params) (e : Engine wCfg wLen) : EngineResult wCfg wLen :=
  rowOperation 4 (fun e => paeth e.left e.above e.aboveLeft) p e

/-- illegal_FT on an engine (43_png.md R106, 60_exceptions.md R134): FT keeps the offending byte and I the offending row.
An illegal filter type reaches no COLUMN step (10_state.md R21). DESIGN CHOICE (log entry 20): given to exec while another
byte heads row I in IN, it raises the error of its own byte; `step` never forms that. -/
def illegalFilter (t : Byte) (e : Engine wCfg wLen) : EngineResult wCfg wLen :=
  if e.atPngRow then .next ((e.setFilter t).raise .unsupportedFilterType) else .refused .stepNotEnabled

/-- The five-way dispatch on the filter type, with its illegal rest (43_png.md R106, R108). -/
def filterDispatch (t : Byte) (p : Params) (e : Engine wCfg wLen) : EngineResult wCfg wLen :=
  if t.toNat = 0 then rowNone p e
  else if t.toNat = 1 then rowSub p e
  else if t.toNat = 2 then rowUp p e
  else if t.toNat = 3 then rowAvg p e
  else if t.toNat = 4 then rowPaeth p e
  else illegalFilter t e

/-- The step of the PNG path that STAGE selects: the row loop of 43_png.md R106, and under it the operation that the
filter type selects, fetched from IN at ROWSTART and held in FT for the rest of the row. -/
def pngStep (p : Params) (e : Engine wCfg wLen) : EngineResult wCfg wLen :=
  match e.stage with
  | .rowstart => if e.i = e.nrows then .next e.finish else orFault e.filterByte fun t => filterDispatch t p e
  | .column => filterDispatch e.ft p e
  | .commit => filterDispatch e.ft p e

/-- PRED.PNG on an engine: START, then one step of the PNG path at a time. -/
def predPng (p : Params) (c : CfgOf wCfg wLen) (e : Engine wCfg wLen) : EngineResult wCfg wLen :=
  startOrContinue (e.path = .png ∧ e.pred = c.pred ∧ e.cfgOps = c.ops) (startPng p c) (pngStep p) e

/-- ROW.NONE. -/
def execRowNone (s : State) : Result := s.onEngine (rowNone s.params)

/-- ROW.SUB. -/
def execRowSub (s : State) : Result := s.onEngine (rowSub s.params)

/-- ROW.UP. -/
def execRowUp (s : State) : Result := s.onEngine (rowUp s.params)

/-- ROW.AVG. -/
def execRowAvg (s : State) : Result := s.onEngine (rowAvg s.params)

/-- ROW.PAETH. -/
def execRowPaeth (s : State) : Result := s.onEngine (rowPaeth s.params)

/-- illegal_FT. -/
def execIllegalFt (t : Byte) (s : State) : Result := s.onEngine (illegalFilter t)

/-- PRED.PNG. -/
def execPredPng (pred : Word) (ops : CfgOps) (s : State) : Result := s.onEngine (predPng s.params ⟨pred, ops⟩)

end Sys2Proof.Machine
end

