-- ==== Sys2Proof/Machine/Tiff.lean ====
section
/-! DEFINITION. PRED.TIFF, the TIFF horizontal differencing decoder (42_tiff.md R95 to R101). -/

namespace Sys2Proof.Machine

variable {wCfg wLen : Nat}

/-- The TIFF COLUMN step, the byte accumulator (42_tiff.md R97). -/
def tiffColumn (e : Engine wCfg wLen) : EngineResult wCfg wLen :=
  orFault e.tiffX fun x => columnStep (reconstruct x e.left) e

/-- The step of the TIFF path that STAGE selects (42_tiff.md R96, R97, R99). -/
def tiffStep (p : Params) (e : Engine wCfg wLen) : EngineResult wCfg wLen :=
  match e.stage with
  | .rowstart => if e.i = e.nrows then .next e.finish else .next e.beginRow
  | .column => tiffColumn e
  | .commit => commitTiff p e

/-- PRED.TIFF on an engine: START, then one step of the TIFF path at a time. -/
def predTiff (p : Params) (ops : CfgOpsOf wCfg wLen) (e : Engine wCfg wLen) : EngineResult wCfg wLen :=
  startOrContinue (e.path = .tiff ∧ e.cfgOps = ops) (startTiff p ⟨2, ops⟩) (tiffStep p) e

/-- PRED.TIFF. -/
def execPredTiff (ops : CfgOps) (s : State) : Result := s.onEngine (predTiff s.params ops)

end Sys2Proof.Machine
end

