-- ==== Sys2Proof/Machine/Dispatch.lean ====
section
/-! DEFINITION. One arm for each instruction. -/

namespace Sys2Proof.Machine

def exec (i : Instr) (s : State) : Host.Outcome State Fault Refusal :=
  match i with
  | .predNone ops => Sys2Proof.Machine.execPredNone ops s
  | .predTiff ops => Sys2Proof.Machine.execPredTiff ops s
  | .predPng pred ops => Sys2Proof.Machine.execPredPng pred ops s
  | .illegalPred pred ops => Sys2Proof.Machine.execIllegalPred pred ops s
  | .rowNone => Sys2Proof.Machine.execRowNone s
  | .rowSub => Sys2Proof.Machine.execRowSub s
  | .rowUp => Sys2Proof.Machine.execRowUp s
  | .rowAvg => Sys2Proof.Machine.execRowAvg s
  | .rowPaeth => Sys2Proof.Machine.execRowPaeth s
  | .illegalFt ft => Sys2Proof.Machine.execIllegalFt ft s

end Sys2Proof.Machine
end

