-- ==== Sys2Proof/WellFormed.lean ====
section
/-! DEFINITION. The instructions an encoding exists for: the opcode value a constructor carries is one of its own rows'
values (30_encoding.md R52, R55, R59). -/

namespace Sys2Proof

/-- PRED.PNG is selected by `PRED >= 10` (30_encoding.md R52). -/
def isPngPredictor (pred : Word) : Bool := 10 ≤ pred.toNat

/-- The illegal predictor codes are exactly 0 and 3 to 9 (30_encoding.md R52, R55). -/
def isIllegalPredictor (pred : Word) : Bool := pred.toNat = 0 ∨ (3 ≤ pred.toNat ∧ pred.toNat ≤ 9)

/-- The illegal filter types are exactly 5 to 255 (30_encoding.md R55). -/
def isIllegalFilterType (ft : Byte) : Bool := 5 ≤ ft.toNat

/-- A well-formed instruction. -/
def Instr.wf : Instr → Bool
  | .predNone _ => true
  | .predTiff _ => true
  | .predPng pred _ => isPngPredictor pred
  | .illegalPred pred _ => isIllegalPredictor pred
  | .rowNone => true
  | .rowSub => true
  | .rowUp => true
  | .rowAvg => true
  | .rowPaeth => true
  | .illegalFt ft => isIllegalFilterType ft

end Sys2Proof
end

