-- ==== Sys2Proof/Decode.lean ====
section
/-! DEFINITION. The decoder of both levels, the encoder, and spec/opcode_table.json's rows as data
(30_encoding.md R50 to R59). -/

namespace Sys2Proof

/-- An encoded instruction: the CFG record START presents, or the first byte of a PNGROW record, all eight bits of which
are significant (30_encoding.md R50). -/
inductive Record where
  | cfg (c : Cfg)
  | row (ft : Byte)
deriving DecidableEq, Repr

/-- Why raw words or bytes are no record. -/
inductive DecodeError where
  /-- Format CFG has exactly five fields (30_encoding.md R50). -/
  | cfgFieldCount
  /-- Format PNGROW has at least its filter-type byte (30_encoding.md R50). -/
  | emptyRow
deriving DecidableEq, Repr

/-- Level 1 (30_encoding.md R52): the whole PRED register is compared as an unsigned number. -/
def decodeCfg (c : Cfg) : Instr :=
  if c.pred.toNat = 1 then .predNone c.ops
  else if c.pred.toNat = 2 then .predTiff c.ops
  else if 10 ≤ c.pred.toNat then .predPng c.pred c.ops
  else .illegalPred c.pred c.ops

/-- Level 2 (30_encoding.md R54, R55): the opcode is the whole byte. -/
def decodeRow (ft : Byte) : Instr :=
  if ft.toNat = 0 then .rowNone
  else if ft.toNat = 1 then .rowSub
  else if ft.toNat = 2 then .rowUp
  else if ft.toNat = 3 then .rowAvg
  else if ft.toNat = 4 then .rowPaeth
  else .illegalFt ft

/-- The decoder. No record is without an instruction: within each format the table's rows are exhaustive (R59). -/
def decode : Record → Instr
  | .cfg c => decodeCfg c
  | .row ft => decodeRow ft

/-- The decoder on the raw fields of format CFG, in the order PRED, COLORS, BPC, COLUMNS, LEN (30_encoding.md R50). -/
def decodeCfgFields : List Word → Except DecodeError Instr
  | [pred, colors, bpc, columns, len] => .ok (decodeCfg ⟨pred, ⟨colors, bpc, columns, len⟩⟩)
  | _ => .error .cfgFieldCount

/-- The decoder on the raw bytes of a PNGROW record: byte 0 is the opcode, the content bytes after it are operands
(30_encoding.md R50). -/
def decodeRowBytes : List Byte → Except DecodeError Instr
  | [] => .error .emptyRow
  | ft :: _ => .ok (decodeRow ft)

/-- The encoder: PRED = 1 and PRED = 2 (30_encoding.md R52), filter types 0 to 4 (R54), and the value the instruction
carries for the others. -/
def encode : Instr → Record
  | .predNone ops => .cfg ⟨1, ops⟩
  | .predTiff ops => .cfg ⟨2, ops⟩
  | .predPng pred ops => .cfg ⟨pred, ops⟩
  | .illegalPred pred ops => .cfg ⟨pred, ops⟩
  | .rowNone => .row 0
  | .rowSub => .row 1
  | .rowUp => .row 2
  | .rowAvg => .row 3
  | .rowPaeth => .row 4
  | .illegalFt ft => .row ft

/-- A CFG record as one number. DESIGN CHOICE (log entry 13): the five fields follow each other in the order of
30_encoding.md R50, PRED in bits 31:0, as the opcode table numbers PRED's bits. -/
def Cfg.ofNat (w : Nat) : Cfg :=
  { pred := BitVec.ofNat 32 w
    ops :=
      { colors := BitVec.ofNat 32 (w >>> 32)
        bpc := BitVec.ofNat 32 (w >>> 64)
        columns := BitVec.ofNat 32 (w >>> 96)
        len := BitVec.ofNat 32 (w >>> 128) } }

/-- The record a table row of `nbits` bits with value `w` stands for: 8 bits are a PNGROW opcode byte, 32 bits are PRED
with the operand fields zero, 160 bits a whole CFG record. -/
def recordOfTableWord (nbits w : Nat) : Option Record :=
  if nbits = 8 then some (.row (BitVec.ofNat 8 w))
  else if nbits = 32 then some (.cfg (Cfg.ofNat (w % 2 ^ 32)))
  else if nbits = 160 then some (.cfg (Cfg.ofNat w))
  else none

/-- The instruction the decoder reads from a row's word, numbered as spec/opcode_table.json numbers it. -/
def decodeTableWord (nbits w : Nat) : Option Instr := (recordOfTableWord nbits w).map decode

/-! ## The opcode table's rows -/

/-- One row of spec/opcode_table.json: the opcode value `v` belongs to it when `v &&& mask = bits`. -/
structure TableRow (n : Nat) where
  mnemonic : String
  bits : BitVec n
  mask : BitVec n
deriving DecidableEq, Repr

/-- Does an opcode value belong to a row? -/
def TableRow.matches {n : Nat} (r : TableRow n) (v : BitVec n) : Bool := v &&& r.mask = r.bits

/-- The row of PRED.PNG for the values whose highest set bit is `k` (30_encoding.md R52). -/
def pngRowOfBit (k : Nat) : TableRow 32 :=
  { mnemonic := "PRED.PNG", bits := BitVec.ofNat 32 (2 ^ k), mask := BitVec.allOnes 32 <<< k }

/-- The 36 rows of format CFG (30_encoding.md R52, R59). -/
def cfgRows : List (TableRow 32) :=
  [⟨"PRED.NONE", 0x00000001, 0xFFFFFFFF⟩, ⟨"PRED.TIFF", 0x00000002, 0xFFFFFFFF⟩,
    ⟨"PRED.PNG", 0x0000000A, 0xFFFFFFFE⟩, ⟨"PRED.PNG", 0x0000000C, 0xFFFFFFFC⟩]
  ++ (List.range 28).map (fun k => pngRowOfBit (k + 4))
  ++ [⟨"illegal_PRED", 0x00000000, 0xFFFFFFFF⟩, ⟨"illegal_PRED", 0x00000003, 0xFFFFFFFF⟩,
    ⟨"illegal_PRED", 0x00000004, 0xFFFFFFFC⟩, ⟨"illegal_PRED", 0x00000008, 0xFFFFFFFE⟩]

/-- The 12 rows of format PNGROW (30_encoding.md R54, R59). -/
def filterRows : List (TableRow 8) :=
  [⟨"ROW.NONE", 0x00, 0xFF⟩, ⟨"ROW.SUB", 0x01, 0xFF⟩, ⟨"ROW.UP", 0x02, 0xFF⟩, ⟨"ROW.AVG", 0x03, 0xFF⟩,
    ⟨"ROW.PAETH", 0x04, 0xFF⟩, ⟨"illegal_FT", 0x05, 0xFF⟩, ⟨"illegal_FT", 0x06, 0xFE⟩, ⟨"illegal_FT", 0x08, 0xF8⟩,
    ⟨"illegal_FT", 0x10, 0xF0⟩, ⟨"illegal_FT", 0x20, 0xE0⟩, ⟨"illegal_FT", 0x40, 0xC0⟩, ⟨"illegal_FT", 0x80, 0x80⟩]

/-- The table's mnemonic of an instruction. -/
def Instr.mnemonic : Instr → String
  | .predNone _ => "PRED.NONE"
  | .predTiff _ => "PRED.TIFF"
  | .predPng _ _ => "PRED.PNG"
  | .illegalPred _ _ => "illegal_PRED"
  | .rowNone => "ROW.NONE"
  | .rowSub => "ROW.SUB"
  | .rowUp => "ROW.UP"
  | .rowAvg => "ROW.AVG"
  | .rowPaeth => "ROW.PAETH"
  | .illegalFt _ => "illegal_FT"

end Sys2Proof
end

