-- ==== Sys2Proof/Machine/Fetch.lean ====
section
/-! DEFINITION. Which instruction the next step runs (70_reset_and_hazards.md R160): the START the host has performed,
the level-1 instruction in progress, or the row operation whose opcode byte heads the input row (20_memory.md R43). -/

namespace Sys2Proof.Machine

/-- What fetching finds. -/
inductive Fetched where
  /-- The instruction to run, and the state it runs on. -/
  | instr (i : Instr) (s : State)
  /-- No step is enabled: PHASE is IDLE, DONE or ERROR and the host has performed no START (10_state.md R17). -/
  | waiting
  /-- The filter type lies outside IN; no run reaches it. -/
  | fault (f : Fault)
  /-- START during RUN (41_dispatch_identity.md R81), or RUN with PATH NONE. -/
  | refused (r : Refusal)
deriving DecidableEq, Repr

/-- The host's START is taken. -/
def State.takeStart (s : State) : State := { s with start := none }

/-- The instruction of a PNG step: at ROWSTART the filter type is read from the row about to be reconstructed; for the
rest of the row FT holds it (43_png.md R106, R108). When no row is left the row loop of PRED.PNG ends. -/
def fetchPng (s : State) : Fetched :=
  match s.stage with
  | .rowstart =>
    if s.i = s.nrows then .instr (.predPng s.pred s.cfgOps) s
    else
      match s.filterByte with
      | .ok t => .instr (decodeRow t) s
      | .error f => .fault f
  | .column => .instr (decodeRow s.ft) s
  | .commit => .instr (decodeRow s.ft) s

/-- The instruction of a step with PHASE = RUN, selected by PATH (10_state.md R18). -/
def fetchRunning (s : State) : Fetched :=
  match s.path with
  | .none => .refused .stepNotEnabled
  | .id => .instr (.predNone s.cfgOps) s
  | .tiff => .instr (.predTiff s.cfgOps) s
  | .png => fetchPng s

/-- The instruction the next step runs. -/
def fetch (s : State) : Fetched :=
  match s.phase, s.start with
  | .run, none => fetchRunning s
  | .run, some _ => .refused .startWhileRunning
  | .idle, some c => .instr (decodeCfg c) s.takeStart
  | .done, some c => .instr (decodeCfg c) s.takeStart
  | .error, some c => .instr (decodeCfg c) s.takeStart
  | .idle, none => .waiting
  | .done, none => .waiting
  | .error, none => .waiting

/-- A CFG record stands where START is taken from; a running invocation gives way (log entry 14). -/
def State.withRecordCfg (s : State) (c : Cfg) : State :=
  { s with
    start := some c
    phase := match s.phase with
      | .run => .done
      | .idle => .idle
      | .done => .done
      | .error => .error }

/-- A filter-type byte stands where the next row is fetched from: the state START(10, 1, 8, 1, 2) leaves, with that byte
and one content byte 0 in IN (log entry 14). -/
def State.withRecordRow (s : State) (ft : Byte) : State :=
  { s with
    pred := 10, colors := 1, bpc := 8, columns := 1, len := 2
    bpp := 1, stride := 1, rowsize := 2, nrows := 1
    phase := .run, path := .png, stage := .rowstart, i := 0, j := 0, k := 0
    err := none, outLen := 0
    prev := s.prev.clearBelow 1
    inMem := (s.inMem.write 0 ft).write 1 0
    start := none }

/-- A record stands where the next step fetches. -/
def State.withRecord (s : State) : Record → State
  | .cfg c => s.withRecordCfg c
  | .row ft => s.withRecordRow ft

end Sys2Proof.Machine
end

