-- ==== Sys2Proof/Machine/Step.lean ====
section
/-! DEFINITION. One step of the engine: fetch, then exec; with no step enabled the engine waits
(70_reset_and_hazards.md R160, 10_state.md R27). -/

namespace Sys2Proof.Machine

/-- One step. With no step enabled "the engine does nothing until START": the state stays (log entry 7). -/
def step (s : State) : Host.Outcome State Fault Refusal :=
  match fetch s with
  | .instr i s' => exec i s'
  | .waiting => .next s
  | .fault f => .fault f
  | .refused r => .refused r

/-- The state whose next step fetches and runs the instruction of a table row's word (log entry 14). -/
def State.withFetchWord (s : State) (nbits w : Nat) : State :=
  match recordOfTableWord nbits w with
  | some r => s.withRecord r
  | none => s

end Sys2Proof.Machine
end

