-- ==== Sys2Proof/Machine/Engine.lean ====
section
/-! DEFINITION. The engine as a machine of its own, for every `W_CFG`, `W_LEN`, `MAX_STRIDE` and `MAX_OUT` (00_scope.md
R6): the host's START and the step that PHASE, PATH and STAGE enable. The interface's `step` is this machine at the
spec's widths, reached through fetch and exec; a statement says so. -/

namespace Sys2Proof.Machine

variable {wCfg wLen : Nat}

/-- START (41_dispatch_identity.md R80), refused during RUN (R81). -/
def engineStart (p : Params) (c : CfgOf wCfg wLen) (e : Engine wCfg wLen) : EngineResult wCfg wLen :=
  if e.phase = .run then .refused .startWhileRunning
  else if c.pred.toNat = 1 then startIdentity p c e
  else if c.pred.toNat = 2 then startTiff p c e
  else if 10 ≤ c.pred.toNat then startPng p c e
  else startIllegal c e

/-- The step of an invocation in progress, selected by PATH (70_reset_and_hazards.md R160). -/
def pathStep (p : Params) (e : Engine wCfg wLen) : EngineResult wCfg wLen :=
  match e.path with
  | .none => .refused .stepNotEnabled
  | .id => identityStep p e
  | .tiff => tiffStep p e
  | .png => pngStep p e

/-- The enabled step; with none enabled the engine does nothing (70_reset_and_hazards.md R160, log entry 7). -/
def engineStep (p : Params) (e : Engine wCfg wLen) : EngineResult wCfg wLen :=
  match e.phase with
  | .idle => .next e
  | .run => pathStep p e
  | .done => .next e
  | .error => .next e

/-- `n` steps of an engine. -/
def engineRun (p : Params) : Nat → Engine wCfg wLen → EngineResult wCfg wLen
  | 0, e => .next e
  | n + 1, e =>
    match engineStep p e with
    | .next u => engineRun p n u
    | .fault f => .fault f
    | .refused r => .refused r

end Sys2Proof.Machine
end

