-- ==== Sys2Proof/Machine/Flags.lean ====
section
/-! DEFINITION. The status values the host reads. ERR is the only flag: no operation sets or tests a carry, zero, sign or
overflow flag (10_state.md R22). -/

namespace Sys2Proof.Machine

/-- The code of an error kind (10_state.md R22, 60_exceptions.md R135). -/
def ErrorKind.code : ErrorKind → BitVec 3
  | .unsupportedPredictor => 1
  | .unsupportedBitDepth => 2
  | .notImplemented => 3
  | .unsupportedFilterType => 4

/-- The ERR register as the host reads it: 0 for none (10_state.md R22). -/
def Engine.errCode {wCfg wLen : Nat} (e : Engine wCfg wLen) : BitVec 3 :=
  match e.err with
  | none => 0
  | some kind => kind.code

/-- The code of PHASE (10_state.md R17). -/
def Phase.code : Phase → BitVec 2
  | .idle => 0
  | .run => 1
  | .done => 2
  | .error => 3

/-- The code of PATH (10_state.md R18). -/
def Path.code : Path → BitVec 2
  | .none => 0
  | .id => 1
  | .tiff => 2
  | .png => 3

/-- The code of STAGE (10_state.md R19). -/
def Stage.code : Stage → BitVec 2
  | .rowstart => 0
  | .column => 1
  | .commit => 2

end Sys2Proof.Machine
end

