-- ==== Sys2Proof/Machine/Reference.lean ====
section
/-! DEFINITION. The closed forms the step rules compute: one TIFF row (42_tiff.md R100), one PNG row (43_png.md R121), a
whole invocation (41_dispatch_identity.md R87) and its number of steps (70_reset_and_hazards.md R161). No step uses them;
statements compare the machine with them. -/

namespace Sys2Proof.Machine

variable {wCfg wLen : Nat}

/-- `at(v, j - d)` (43_png.md R121): element `j - d` of a byte sequence, 0 where the index is negative. -/
def backAt (v : List Byte) (j d : Nat) : Byte := if j < d then 0 else v.getD (j - d) 0

/-- A row reconstructed left to right: `done` is the row so far, and column `j` adds to its filtered byte what `predicted`
gives for `j` and the left neighbour (42_tiff.md R100, 43_png.md R121). -/
def reconstructRow (bpp : Nat) (predicted : Nat → Byte → Byte) : List Byte → List Byte → List Byte
  | done, [] => done
  | done, x :: xs =>
    reconstructRow bpp predicted
      (done ++ [reconstruct x (predicted done.length (backAt done done.length bpp))]) xs

/-- One TIFF row (42_tiff.md R100). -/
def tiffRow (bpp : Nat) (x : List Byte) : List Byte := reconstructRow bpp (fun _ a => a) [] x

/-- The predicted value of a filter type 0 to 4 (43_png.md R108, R121). -/
def predictedValue (t a b c : Byte) : Byte :=
  if t.toNat = 0 then 0
  else if t.toNat = 1 then a
  else if t.toNat = 2 then b
  else if t.toNat = 3 then average a b
  else paeth a b c

/-- One PNG row (43_png.md R121). -/
def pngRow (bpp : Nat) (t : Byte) (x prev : List Byte) : List Byte :=
  reconstructRow bpp (fun j a => predictedValue t a (prev.getD j 0) (backAt prev j bpp)) [] x

/-- The TIFF path over `n` rows (41_dispatch_identity.md R87). -/
def tiffRows (bpp stride : Nat) : Nat → List Byte → List Byte
  | 0, _ => []
  | n + 1, bytes => tiffRow bpp (bytes.take stride) ++ tiffRows bpp stride n (bytes.drop stride)

/-- The PNG path over `n` rows, each with the row before it as its history (41_dispatch_identity.md R87). -/
def pngRows (bpp stride : Nat) : Nat → List Byte → List Byte → Except ErrorKind (List Byte)
  | 0, _, _ => .ok []
  | n + 1, prev, bytes =>
    if 4 < (bytes.headD 0).toNat then .error .unsupportedFilterType
    else
      let cur := pngRow bpp (bytes.headD 0) ((bytes.drop 1).take stride) prev
      (pngRows bpp stride n cur (bytes.drop (stride + 1))).map (cur ++ ·)

/-- The reference function `decode` (41_dispatch_identity.md R87); `bytes` are the LEN input bytes. -/
def reference (c : CfgOf wCfg wLen) (bytes : List Byte) : Except ErrorKind (List Byte) :=
  if c.pred.toNat = 1 then .ok bytes
  else if c.pred.toNat = 2 then
    if c.ops.bpc.toNat = 8 then
      let g := geometry .tiff c.ops
      .ok (tiffRows g.bpp g.stride g.nrows bytes)
    else .error .unsupportedBitDepth
  else if 10 ≤ c.pred.toNat then
    let g := geometry .png c.ops
    pngRows g.bpp g.stride g.nrows (List.replicate g.stride 0) bytes
  else .error .unsupportedPredictor

/-- The spec refuses the configuration (40_geometry.md R76, 41_dispatch_identity.md R80). -/
def refusedAtStart (c : CfgOf wCfg wLen) (p : Params) : Bool :=
  if c.pred.toNat = 1 then !admittedIdentity c.ops p
  else if c.pred.toNat = 2 then decide (c.ops.bpc.toNat = 8) && !admitted .tiff c.ops p
  else decide (10 ≤ c.pred.toNat) && !admitted .png c.ops p

/-- The index of the first row whose filter type is illegal, or `n` if none of the `n` rows' is. -/
def firstIllegalRow (rowsize : Nat) : Nat → List Byte → Nat
  | 0, _ => 0
  | n + 1, bytes =>
    if 4 < (bytes.headD 0).toNat then 0 else firstIllegalRow rowsize n (bytes.drop rowsize) + 1

/-- The number of steps after START until PHASE is DONE or ERROR (70_reset_and_hazards.md R161). -/
def invocationSteps (c : CfgOf wCfg wLen) (bytes : List Byte) : Nat :=
  if c.pred.toNat = 1 then c.ops.len.toNat + 1
  else if c.pred.toNat = 2 then
    if c.ops.bpc.toNat = 8 then
      let g := geometry .tiff c.ops
      g.nrows * (g.stride + 2) + 1
    else 0
  else if 10 ≤ c.pred.toNat then
    let g := geometry .png c.ops
    firstIllegalRow g.rowsize g.nrows bytes * (g.stride + 2) + 1
  else 0

end Sys2Proof.Machine
end

