-- ==== Sys2Proof/Safety.lean ====
section
/-! DEFINITION. What a state of a run of this engine satisfies, for every `W_CFG`, `W_LEN`, `MAX_STRIDE` and `MAX_OUT`
(00_scope.md R6): the terms the statements use. -/

namespace Sys2Proof.Machine

variable {wCfg wLen : Nat}

/-- The four memories have their canonical form. -/
def Engine.memoriesWf (e : Engine wCfg wLen) : Bool := e.prev.wf && e.cur.wf && e.inMem.wf && e.outMem.wf

/-- A step is enabled exactly when PHASE is RUN (70_reset_and_hazards.md R160). -/
def Engine.enabled (e : Engine wCfg wLen) : Bool := e.phase = .run

/-- An invocation is complete (41_dispatch_identity.md R86). -/
def Engine.complete (e : Engine wCfg wLen) : Bool := e.phase = .done ∨ e.phase = .error

/-- START is legal (41_dispatch_identity.md R81). -/
def Engine.startLegal (e : Engine wCfg wLen) : Bool := e.phase ≠ .run

/-- The configuration registers are as before (10_state.md R11, R14). -/
structure Engine.SameConfig (e u : Engine wCfg wLen) : Prop where
  pred : u.pred = e.pred
  colors : u.colors = e.colors
  bpc : u.bpc = e.bpc
  columns : u.columns = e.columns
  len : u.len = e.len

/-- The geometry registers are as before (40_geometry.md R75). -/
structure Engine.SameGeometry (e u : Engine wCfg wLen) : Prop where
  bpp : u.bpp = e.bpp
  stride : u.stride = e.stride
  rowsize : u.rowsize = e.rowsize
  nrows : u.nrows = e.nrows

/-- The input memory, the pending START and the capacities are as before (10_state.md R28). -/
structure State.SameHost (s t : State) : Prop where
  inMem : t.inMem = s.inMem
  start : t.start = s.start
  params : t.params = s.params

/-- The configuration registers hold what START was given (41_dispatch_identity.md R80). -/
structure Engine.HoldsConfig (u : Engine wCfg wLen) (pred : BitVec wCfg) (o : CfgOpsOf wCfg wLen) : Prop where
  pred : u.pred = pred
  colors : u.colors = o.colors
  bpc : u.bpc = o.bpc
  columns : u.columns = o.columns
  len : u.len = o.len

/-- ERR is nonzero exactly when PHASE is ERROR, never NotImplemented, and then OUT_LEN is 0 (10_state.md R22, R23,
60_exceptions.md R133, R136). -/
structure Engine.StatusInv (e : Engine wCfg wLen) : Prop where
  errOnlyInError : e.err ≠ none ↔ e.phase = .error
  neverNotImplemented : e.err ≠ some .notImplemented
  noOutputAfterError : e.phase = .error → e.outLen = 0

/-- The identity path (41_dispatch_identity.md R84). -/
structure Engine.IdentityInv (p : Params) (e : Engine wCfg wLen) : Prop where
  code : e.pred.toNat = 1
  room : admittedIdentity e.cfgOps p = true
  atMostLen : e.k.toNat ≤ e.len.toNat
  outIsK : e.outLen = e.k
  doneAtLen : e.phase = .done → e.k = e.len

/-- The geometry registers hold the derived geometry of an admitted configuration (40_geometry.md R75, R76). -/
structure Engine.GeometryInv (p : Params) (e : Engine wCfg wLen) : Prop where
  inDomain : admitted e.path e.cfgOps p = true
  bppReg : e.bpp.toNat = (geometry e.path e.cfgOps).bpp
  strideReg : e.stride.toNat = (geometry e.path e.cfgOps).stride
  rowsizeReg : e.rowsize.toNat = (geometry e.path e.cfgOps).rowsize
  nrowsReg : e.nrows.toNat = (geometry e.path e.cfgOps).nrows

/-- The row loop (10_state.md R16, R20, 42_tiff.md R97, R99, 43_png.md R108, R120). -/
structure Engine.RowInv (e : Engine wCfg wLen) : Prop where
  rowBound : e.i.toNat ≤ e.nrows.toNat
  columnBound : e.j.toNat ≤ e.stride.toNat
  inColumn : e.stage = .column → e.j.toNat < e.stride.toNat ∧ e.i.toNat < e.nrows.toNat
  inCommit : e.stage = .commit → e.j.toNat = e.stride.toNat ∧ e.i.toNat < e.nrows.toNat
  outIsRows : e.outLen.toNat = e.i.toNat * e.stride.toNat
  doneAtEnd : e.phase = .done → e.stage = .rowstart ∧ e.i = e.nrows

/-- The history of the PNG path: PREV is the reconstructed row before row I, zeros before row 0, and only filter types 0
to 4 reach a COLUMN step (20_memory.md R41, 43_png.md R120, 10_state.md R21). -/
structure Engine.HistoryInv (e : Engine wCfg wLen) : Prop where
  filterLegal : e.stage ≠ .rowstart → e.ft.toNat ≤ 4
  firstRow : e.i.toNat = 0 → ∀ k, k < e.stride.toNat → e.prev.read k = 0
  laterRows : 1 ≤ e.i.toNat → ∀ k, k < e.stride.toNat →
    e.prev.read k = e.outMem.read ((e.i.toNat - 1) * e.stride.toNat + k)

/-- What PATH promises while PHASE is RUN or DONE (10_state.md R18). -/
def Engine.PathInv (p : Params) (e : Engine wCfg wLen) : Prop :=
  match e.path with
  | .none => False
  | .id => e.IdentityInv p
  | .tiff => e.pred.toNat = 2 ∧ e.bpc.toNat = 8 ∧ e.GeometryInv p ∧ e.RowInv
  | .png => 10 ≤ e.pred.toNat ∧ e.GeometryInv p ∧ e.RowInv ∧ e.HistoryInv

/-- The invariant of the engine run with the capacities `p`: it holds at power-on reset, every step keeps it, and no state
that meets it reaches a fault. -/
structure Engine.Inv (p : Params) (e : Engine wCfg wLen) : Prop where
  memories : e.memoriesWf = true
  status : e.StatusInv
  idle : e.phase = .idle → e.path = .none ∧ e.outLen = 0
  path : e.phase = .run ∨ e.phase = .done → e.PathInv p

/-- The same of the interface's state, with the capacities it holds. -/
def State.Inv (s : State) : Prop := s.toEngine.Inv s.params

/-- A state an invocation begins from: START is legal and has been performed with a configuration the spec does not
refuse (70_reset_and_hazards.md R152). -/
structure State.Begins (s : State) (c : Cfg) : Prop where
  memories : s.memoriesWf = true
  legal : s.phase ≠ .run
  performed : s.start = some c
  notRefused : refusedAtStart c s.params = false

end Sys2Proof.Machine
end

