-- ==== Sys2Proof/Certificates/Slice0/Obligations.lean ====
section
/-! DEFINITION. The statements about this model, for the provers. Each docstring says which rule of spec/ it formalises. -/

open Sys2Proof Sys2Proof.Machine

/-! ## Encodings (30_encoding.md) -/

/-- Opcode words written out from the tables of 30_encoding.md R52, R54, R55 decode to the instructions they stand for. -/
def Obligations.SpecWordsDecodeToTheirInstructions : Prop :=
  let zero : CfgOps := ⟨0, 0, 0, 0⟩
  decodeTableWord 32 0b1 = some (.predNone zero)
  ∧ decodeTableWord 32 0b10 = some (.predTiff zero)
  ∧ decodeTableWord 32 0b1010 = some (.predPng 10 zero)
  ∧ decodeTableWord 32 0xFFFFFFFF = some (.predPng 4294967295 zero)
  ∧ decodeTableWord 32 0b0 = some (.illegalPred 0 zero)
  ∧ decodeTableWord 32 0b1001 = some (.illegalPred 9 zero)
  ∧ decodeTableWord 8 0b00000000 = some .rowNone
  ∧ decodeTableWord 8 0b00000001 = some .rowSub
  ∧ decodeTableWord 8 0b00000010 = some .rowUp
  ∧ decodeTableWord 8 0b00000011 = some .rowAvg
  ∧ decodeTableWord 8 0b00000100 = some .rowPaeth
  ∧ decodeTableWord 8 0b00000101 = some (.illegalFt 5)
  ∧ decodeTableWord 8 0b10000100 = some (.illegalFt 0x84)

/-- 30_encoding.md R59: within each format the rows of the opcode table are disjoint and exhaustive, and the decoder's
instruction is the one matching row's. -/
def Obligations.EveryOpcodeMatchesOneTableRow : Prop :=
  (∀ c : Cfg, (cfgRows.filter (fun r => r.matches c.pred)).map (fun r => r.mnemonic) = [(decodeCfg c).mnemonic])
  ∧ (∀ ft : Byte, (filterRows.filter (fun r => r.matches ft)).map (fun r => r.mnemonic) = [(decodeRow ft).mnemonic])

/-- Decode and encode agree on every well-formed instruction, with every operand at every value. -/
def Obligations.DecodeOfEncodeIsTheInstruction : Prop :=
  ∀ i : Instr, i.wf = true → decode (encode i) = i

/-- Every record decodes to a well-formed instruction, and encoding it gives the record back: no bit is dropped. -/
def Obligations.EncodeOfDecodeIsTheRecord : Prop :=
  ∀ r : Record, (decode r).wf = true ∧ encode (decode r) = r

/-! ## A step runs the decoded instruction -/

/-- Which instruction a step runs: the CFG record of a pending START; on the identity and TIFF paths the instruction the
configuration registers hold; on the PNG path the operation whose opcode byte heads row I at ROWSTART and stands in FT
afterwards, and PRED.PNG when no row is left (43_png.md R106, 70_reset_and_hazards.md R160). The last two clauses say that
the step is the engine's own at the spec's widths (00_scope.md R6): START with the pending record, or the enabled step. -/
def Obligations.StepRunsTheDecodedInstruction : Prop :=
  (∀ (s : State) (c : Cfg), s.phase ≠ .run → s.start = some c → step s = exec (decode (.cfg c)) { s with start := none })
  ∧ (∀ s : State, s.phase = .run → s.start = none → s.path = .id → step s = exec (.predNone s.cfgOps) s)
  ∧ (∀ s : State, s.phase = .run → s.start = none → s.path = .tiff → step s = exec (.predTiff s.cfgOps) s)
  ∧ (∀ s : State, s.phase = .run → s.start = none → s.path = .png → s.stage = .rowstart → s.i = s.nrows →
      step s = exec (.predPng s.pred s.cfgOps) s)
  ∧ (∀ s : State, s.phase = .run → s.start = none → s.path = .png → s.stage = .rowstart → s.i ≠ s.nrows →
      s.i.toNat * s.rowsize.toNat < s.len.toNat →
      step s = exec (decode (.row (s.inMem.read (s.i.toNat * s.rowsize.toNat)))) s)
  ∧ (∀ s : State, s.phase = .run → s.start = none → s.path = .png → s.stage ≠ .rowstart →
      step s = exec (decode (.row s.ft)) s)
  ∧ (∀ (s : State) (c : Cfg), s.phase ≠ .run → s.start = some c →
      step s = State.onEngine { s with start := none } (engineStart s.params c))
  ∧ (∀ s : State, s.start = none → step s = s.onEngine (engineStep s.params))

/-- 43_png.md R106, R108: a step of PRED.PNG in progress ends the path when no row is left, and is otherwise the step of
the row operation that the filter type selects, fetched from the input row at ROWSTART and held in FT for the rest of the
row. -/
def Obligations.PngPathRunsTheSelectedRowOperation : Prop :=
  ∀ s : State, s.phase = .run → s.path = .png →
    (s.stage = .rowstart → s.i = s.nrows → exec (.predPng s.pred s.cfgOps) s = .next { s with phase := .done })
    ∧ (s.stage = .rowstart → s.i ≠ s.nrows → s.i.toNat * s.rowsize.toNat < s.len.toNat →
      exec (.predPng s.pred s.cfgOps) s = exec (decodeRow (s.inMem.read (s.i.toNat * s.rowsize.toNat))) s)
    ∧ (s.stage ≠ .rowstart → exec (.predPng s.pred s.cfgOps) s = exec (decodeRow s.ft) s)

/-! ## Memories and operands (20_memory.md) -/

/-- 20_memory.md R40: a read returns the latest write to that address and every other byte is as before; and a write keeps
the canonical form. -/
def Obligations.ReadReturnsTheLatestWrite : Prop :=
  ∀ (m : Memory) (k : Nat) (v : Byte), m.wf = true →
    (m.write k v).wf = true ∧ ∀ k', (m.write k v).read k' = if k' = k then v else m.read k'

/-- The canonical form leaves one way to write a memory down: equal reads are equal data. -/
def Obligations.EqualReadsAreEqualMemories : Prop :=
  ∀ m m' : Memory, m.wf = true → m'.wf = true → (∀ k, m.read k = m'.read k) → m = m'

/-- 20_memory.md R38: the lookback accessor. -/
def Obligations.LookbackReadsZeroBeforeTheRow : Prop :=
  ∀ (buf : Memory) (k : Int),
    (k < 0 → byteAt buf k = 0) ∧ (∀ n : Nat, k = n → byteAt buf k = buf.read n)

/-- Accesses that do not exist stop with a fault (log entry 11; 20_memory.md R30, R31, 10_state.md R24): IN at LEN or
above, a row-buffer element at STRIDE or above, OUT beyond its capacity; for a row operation, whatever FT holds (log entry
20). -/
def Obligations.AccessesThatDoNotExistFault : Prop :=
  (∀ s : State, s.phase = .run → s.path = .id → s.len.toNat < s.k.toNat →
    exec (.predNone s.cfgOps) s = .fault .inOutOfRange)
  ∧ (∀ s : State, s.phase = .run → s.path = .id → s.k.toNat < s.len.toNat → outCapacity s.params 32 ≤ s.k.toNat →
    exec (.predNone s.cfgOps) s = .fault .outOutOfRange)
  ∧ (∀ s : State, s.phase = .run → s.path = .tiff → s.stage = .column →
    (s.len.toNat ≤ s.i.toNat * s.stride.toNat + s.j.toNat → exec (.predTiff s.cfgOps) s = .fault .inOutOfRange)
    ∧ (s.i.toNat * s.stride.toNat + s.j.toNat < s.len.toNat → s.stride.toNat ≤ s.j.toNat →
      exec (.predTiff s.cfgOps) s = .fault .rowBufferOutOfRange))
  ∧ (∀ s : State, s.phase = .run → s.path = .tiff → s.stage = .commit →
    outCapacity s.params 32 < s.outLen.toNat + s.stride.toNat → exec (.predTiff s.cfgOps) s = .fault .outOutOfRange)
  ∧ (∀ i ∈ [Instr.rowNone, .rowSub, .rowUp, .rowAvg, .rowPaeth], ∀ s : State, s.phase = .run → s.path = .png →
    (s.stage = .column → s.len.toNat ≤ s.i.toNat * s.rowsize.toNat + 1 + s.j.toNat → exec i s = .fault .inOutOfRange)
    ∧ (s.stage = .column → s.i.toNat * s.rowsize.toNat + 1 + s.j.toNat < s.len.toNat → s.stride.toNat ≤ s.j.toNat →
      exec i s = .fault .rowBufferOutOfRange)
    ∧ (s.stage = .commit → outCapacity s.params 32 < s.outLen.toNat + s.stride.toNat → exec i s = .fault .outOutOfRange))

/-! ## The datapath (43_png.md) -/

/-- 43_png.md R109, R113: the reconstruction adder is an unsigned 8-bit addition whose carry is discarded; the predicted
value of the Average filter is the floor of half the sum, which does not wrap. -/
def Obligations.AdderWrapsAndAverageDoesNot : Prop :=
  (∀ x predicted : Byte, (reconstruct x predicted).toNat = (x.toNat + predicted.toNat) % 256)
  ∧ (∀ a b : Byte, (average a b).toNat = (a.toNat + b.toNat) / 2)

/-- 43_png.md R115: the Paeth comparator, with the ranges of its four quantities. -/
def Obligations.PaethSelectsByTheThreeDistances : Prop :=
  ∀ a b c : Byte,
    let p : Int := (a.toNat : Int) + b.toNat - c.toNat
    let pa : Int := |p - a.toNat|
    let pb : Int := |p - b.toNat|
    let pc : Int := |p - c.toNat|
    (-255 ≤ p ∧ p ≤ 510) ∧ pa ≤ 255 ∧ pb ≤ 255 ∧ pc ≤ 510
    ∧ (pa ≤ pb ∧ pa ≤ pc → paeth a b c = a)
    ∧ (¬ (pa ≤ pb ∧ pa ≤ pc) → pb ≤ pc → paeth a b c = b)
    ∧ (¬ (pa ≤ pb ∧ pa ≤ pc) → ¬ pb ≤ pc → paeth a b c = c)

/-- 43_png.md R116: the seven rows of the tie table. -/
def Obligations.PaethBreaksTiesInOrder : Prop :=
  ∀ a b c : Byte,
    let p : Int := (a.toNat : Int) + b.toNat - c.toNat
    let pa : Int := |p - a.toNat|
    let pb : Int := |p - b.toNat|
    let pc : Int := |p - c.toNat|
    (pa = pb ∧ pb = pc → paeth a b c = a)
    ∧ (pa = pb ∧ pb < pc → paeth a b c = a)
    ∧ (pa = pc ∧ pc < pb → paeth a b c = a)
    ∧ (pb = pc ∧ pc < pa → paeth a b c = b)
    ∧ (pa < pb ∧ pa < pc → paeth a b c = a)
    ∧ (pb < pa ∧ pb < pc → paeth a b c = b)
    ∧ (pc < pa ∧ pc < pb → paeth a b c = c)

/-- 43_png.md R118, 00_scope.md R6: a signed two's-complement width of ten bits or more is enough for the comparator. -/
def Obligations.TenSignedBitsAreEnoughForPaeth : Prop :=
  ∀ n, 10 ≤ n → ∀ a b c : Byte, paethAtWidth n a b c = paeth a b c

/-- 43_png.md R114: in row 0 (b = c = 0) Paeth is Sub, and in the first BPP columns (a = c = 0) it is Up. -/
def Obligations.PaethAtTheEdgesIsSubOrUp : Prop :=
  ∀ v : Byte, paeth v 0 0 = v ∧ paeth 0 v 0 = v

/-! ## The geometry handler (40_geometry.md) -/

/-- 40_geometry.md R70, R71, R73, and the row count of R74: what the geometry registers hold after a START that runs the
TIFF or the PNG path. -/
def Obligations.StartLoadsTheDerivedGeometry : Prop :=
  ∀ (s t : State) (c : Cfg), s.phase ≠ .run → exec (decodeCfg c) s = .next t → t.path = .tiff ∨ t.path = .png →
    t.bpp.toNat = max 1 ((c.ops.bpc.toNat * c.ops.colors.toNat + 7) / 8)
    ∧ 1 ≤ (c.ops.bpc.toNat * c.ops.colors.toNat + 7) / 8
    ∧ t.stride.toNat = c.ops.columns.toNat * t.bpp.toNat
    ∧ 1 ≤ t.stride.toNat
    ∧ (t.path = .tiff → t.rowsize.toNat = t.stride.toNat)
    ∧ (t.path = .png → t.rowsize.toNat = t.stride.toNat + 1)
    ∧ t.nrows.toNat = c.ops.len.toNat / t.rowsize.toNat
    ∧ c.ops.len.toNat - t.nrows.toNat * t.rowsize.toNat < t.rowsize.toNat

/-- 40_geometry.md R76: the admitted domain, condition by condition, for every `W_CFG`, `W_LEN` and pair of capacities
(00_scope.md R6). -/
def Obligations.AdmittedExactlyInsideTheDomain : Prop :=
  ∀ wCfg wLen : Nat,
  (∀ (path : Machine.Path) (o : CfgOpsOf wCfg wLen) (p : Params), (path = .tiff ∧ o.bpc.toNat = 8) ∨ path = .png →
    let bpp := max 1 ((o.bpc.toNat * o.colors.toNat + 7) / 8)
    let stride := o.columns.toNat * bpp
    let nrows := o.len.toNat / (if path = .png then stride + 1 else stride)
    (admitted path o p = true ↔
      1 ≤ o.colors.toNat ∧ 1 ≤ o.columns.toNat
      ∧ (path = .png → o.bpc.toNat ∈ [1, 2, 4, 8, 16])
      ∧ o.bpc.toNat * o.colors.toNat + 7 < 2 ^ wLen ∧ stride < 2 ^ wLen ∧ stride + 1 < 2 ^ wLen
      ∧ nrows * stride < 2 ^ wLen
      ∧ (∀ m, p.maxStride = some m → stride ≤ m)
      ∧ (∀ m, p.maxOut = some m → nrows * stride ≤ m)))
  ∧ (∀ (o : CfgOpsOf wCfg wLen) (p : Params), admittedIdentity o p = true ↔ ∀ m, p.maxOut = some m → o.len.toNat ≤ m)

/-! ## START (41_dispatch_identity.md R80 to R83) -/

/-- 41_dispatch_identity.md R80, PRED = 1: the identity path runs, whatever COLORS, BPC and COLUMNS are. -/
def Obligations.StartIdentityRuns : Prop :=
  ∀ (s : State) (o : CfgOps), s.phase ≠ .run → admittedIdentity o s.params = true →
    exec (.predNone o) s = .next
      { s with
        pred := 1, colors := o.colors, bpc := o.bpc, columns := o.columns, len := o.len
        outLen := 0, err := none, i := 0, j := 0, k := 0, stage := .rowstart, path := .id, phase := .run }

/-- 41_dispatch_identity.md R80, PRED = 2 with BPC = 8 inside the domain: the TIFF path runs and PREV is not touched. -/
def Obligations.StartTiffRuns : Prop :=
  ∀ (s : State) (o : CfgOps), s.phase ≠ .run → o.bpc.toNat = 8 → admitted .tiff o s.params = true →
    let bpp := max 1 ((o.bpc.toNat * o.colors.toNat + 7) / 8)
    let stride := o.columns.toNat * bpp
    exec (.predTiff o) s = .next
      { s with
        pred := 2, colors := o.colors, bpc := o.bpc, columns := o.columns, len := o.len
        bpp := BitVec.ofNat 32 bpp, stride := BitVec.ofNat 32 stride, rowsize := BitVec.ofNat 32 stride
        nrows := BitVec.ofNat 32 (o.len.toNat / stride)
        outLen := 0, err := none, i := 0, j := 0, k := 0, stage := .rowstart, path := .tiff, phase := .run }

/-- 41_dispatch_identity.md R80, PRED of 10 or more inside the domain: the PNG path runs and elements 0 to STRIDE-1 of
PREV are 0. -/
def Obligations.StartPngRuns : Prop :=
  ∀ (s : State) (pred : Word) (o : CfgOps), s.memoriesWf = true → s.phase ≠ .run → admitted .png o s.params = true →
    let bpp := max 1 ((o.bpc.toNat * o.colors.toNat + 7) / 8)
    let stride := o.columns.toNat * bpp
    ∃ prev : Memory,
      exec (.predPng pred o) s = .next
        { s with
          pred := pred, colors := o.colors, bpc := o.bpc, columns := o.columns, len := o.len
          bpp := BitVec.ofNat 32 bpp, stride := BitVec.ofNat 32 stride, rowsize := BitVec.ofNat 32 (stride + 1)
          nrows := BitVec.ofNat 32 (o.len.toNat / (stride + 1)), prev := prev
          outLen := 0, err := none, i := 0, j := 0, k := 0, stage := .rowstart, path := .png, phase := .run }
      ∧ prev.wf = true ∧ ∀ k, prev.read k = if k < stride then 0 else s.prev.read k

/-- 60_exceptions.md R132: PRED = 2 with BPC other than 8 raises UnsupportedBitDepth, code 2, whatever COLORS, COLUMNS and
LEN are; BPC holds the offending depth, and the other registers are as R136 says. -/
def Obligations.TiffRejectsOtherBitDepths : Prop :=
  ∀ (s : State) (o : CfgOps), s.phase ≠ .run → o.bpc.toNat ≠ 8 →
    decodeCfg ⟨2, o⟩ = .predTiff o ∧ ErrorKind.unsupportedBitDepth.code = 2
    ∧ exec (.predTiff o) s = .next
      { s with
        pred := 2, colors := o.colors, bpc := o.bpc, columns := o.columns, len := o.len
        outLen := 0, err := some .unsupportedBitDepth, i := 0, j := 0, k := 0, stage := .rowstart, path := .none
        phase := .error }

/-- 60_exceptions.md R131: PRED in 0 and 3 to 9 is illegal_PRED, which raises UnsupportedPredictor, code 1, whatever the
other operands are; PRED holds the offending code, and the other registers are as R136 says. -/
def Obligations.IllegalPredictorIsRejected : Prop :=
  ∀ (s : State) (pred : Word) (o : CfgOps), s.phase ≠ .run →
    (pred.toNat = 0 ∨ (3 ≤ pred.toNat ∧ pred.toNat ≤ 9) → decodeCfg ⟨pred, o⟩ = .illegalPred pred o)
    ∧ ErrorKind.unsupportedPredictor.code = 1
    ∧ exec (.illegalPred pred o) s = .next
      { s with
        pred := pred, colors := o.colors, bpc := o.bpc, columns := o.columns, len := o.len
        outLen := 0, err := some .unsupportedPredictor, i := 0, j := 0, k := 0, stage := .rowstart, path := .none
        phase := .error }

/-- 40_geometry.md R76, 60_exceptions.md R143: a configuration outside the domain is refused, no error kind is raised. -/
def Obligations.OutsideTheDomainIsRefused : Prop :=
  ∀ (s : State) (o : CfgOps), s.phase ≠ .run →
    (admittedIdentity o s.params = false → exec (.predNone o) s = .refused .outsideDomain)
    ∧ (o.bpc.toNat = 8 → admitted .tiff o s.params = false → exec (.predTiff o) s = .refused .outsideDomain)
    ∧ (∀ pred, admitted .png o s.params = false → exec (.predPng pred o) s = .refused .outsideDomain)

/-- 41_dispatch_identity.md R81: START is taken in IDLE, DONE and ERROR, and is refused during RUN. In every RUN state,
whether or not a START is pending, so is a level-1 instruction other than the one in progress, whatever its operands (log
entry 9): illegal_PRED always, the others when PATH is another path or an operand is not the configuration register's. -/
def Obligations.StartIsLegalOutsideRunOnly : Prop :=
  (∀ (s : State) (c : Cfg), s.start = some c →
    (s.phase = .idle ∨ s.phase = .done ∨ s.phase = .error → step s = exec (decodeCfg c) { s with start := none })
    ∧ (s.phase = .run → step s = .refused .startWhileRunning))
  ∧ ∀ (s : State) (pred : Word) (o : CfgOps), s.phase = .run →
    exec (.illegalPred pred o) s = .refused .startWhileRunning
    ∧ (s.path ≠ .id ∨ s.cfgOps ≠ o → exec (.predNone o) s = .refused .startWhileRunning)
    ∧ (s.path ≠ .tiff ∨ s.cfgOps ≠ o → exec (.predTiff o) s = .refused .startWhileRunning)
    ∧ (s.path ≠ .png ∨ s.pred ≠ pred ∨ s.cfgOps ≠ o → exec (.predPng pred o) s = .refused .startWhileRunning)

/-! ## The steps of the three paths -/

/-- 41_dispatch_identity.md R84: the identity step. -/
def Obligations.IdentityStepCopiesOneByte : Prop :=
  ∀ s : State, s.Inv → s.phase = .run → s.path = .id →
    exec (.predNone s.cfgOps) s = .next
      (if s.k = s.len then { s with phase := .done }
       else
         { s with
           outMem := s.outMem.write s.k.toNat (s.inMem.read s.k.toNat)
           k := s.k + 1
           outLen := s.outLen + 1 })
    ∧ s.outLen = s.k

/-- 42_tiff.md R96: the TIFF ROWSTART step. -/
def Obligations.TiffRowstartBeginsARowOrEnds : Prop :=
  ∀ s : State, s.phase = .run → s.path = .tiff → s.stage = .rowstart →
    exec (.predTiff s.cfgOps) s = .next
      (if s.i = s.nrows then { s with phase := .done } else { s with j := 0, stage := .column })

/-- 42_tiff.md R97: the TIFF COLUMN step, the byte accumulator. -/
def Obligations.TiffColumnAccumulates : Prop :=
  ∀ s : State, s.Inv → s.phase = .run → s.path = .tiff → s.stage = .column →
    let x := s.inMem.read (s.i.toNat * s.stride.toNat + s.j.toNat)
    let a := if s.j.toNat < s.bpp.toNat then 0 else s.cur.read (s.j.toNat - s.bpp.toNat)
    s.j.toNat < s.stride.toNat ∧ s.i.toNat < s.nrows.toNat
    ∧ exec (.predTiff s.cfgOps) s = .next
      { s with
        cur := s.cur.write s.j.toNat (BitVec.ofNat 8 ((x.toNat + a.toNat) % 256))
        stage := if s.j.toNat + 1 = s.stride.toNat then .commit else .column
        j := s.j + 1 }

/-- 42_tiff.md R99: the TIFF COMMIT step appends the row to OUT and leaves PREV alone. -/
def Obligations.TiffCommitAppendsTheRow : Prop :=
  ∀ s : State, s.Inv → s.phase = .run → s.path = .tiff → s.stage = .commit →
    s.j = s.stride ∧ s.outLen.toNat = s.i.toNat * s.stride.toNat ∧
    ∃ out : Memory,
      exec (.predTiff s.cfgOps) s = .next
        { s with outMem := out, outLen := s.outLen + s.stride, i := s.i + 1, stage := .rowstart }
      ∧ ∀ k, out.read k =
          if s.outLen.toNat ≤ k ∧ k < s.outLen.toNat + s.stride.toNat then s.cur.read (k - s.outLen.toNat)
          else s.outMem.read k

/-- 43_png.md R106: the PNG ROWSTART step as a whole, with the fetch of the filter type and its check. -/
def Obligations.PngRowstartFetchesTheFilterType : Prop :=
  ∀ s : State, s.Inv → s.start = none → s.phase = .run → s.path = .png → s.stage = .rowstart →
    let ft := s.inMem.read (s.i.toNat * s.rowsize.toNat)
    step s = .next
      (if s.i = s.nrows then { s with phase := .done }
       else if 4 < ft.toNat then
         { s with ft := ft, err := some .unsupportedFilterType, phase := .error, outLen := 0 }
       else { s with ft := ft, j := 0, stage := .column })

/-- 43_png.md R106: each legal row operation begins its row: FT holds its opcode, J is 0, STAGE is COLUMN, whatever byte
heads row I in IN (where it is another opcode this is the model's choice: log entry 20). -/
def Obligations.RowOperationsBeginTheirRow : Prop :=
  ∀ p ∈ [(Instr.rowNone, (0 : Byte)), (.rowSub, 1), (.rowUp, 2), (.rowAvg, 3), (.rowPaeth, 4)],
    ∀ s : State, s.phase = .run → s.path = .png → s.stage = .rowstart → s.i ≠ s.nrows →
      exec p.1 s = .next { s with ft := p.2, j := 0, stage := .column }

/-- 43_png.md R110: ROW.NONE copies the filtered byte, whatever FT holds (where FT holds another opcode
this is the model's choice: log entry 20). -/
def Obligations.RowNoneColumn : Prop :=
  ∀ s : State, s.Inv → s.phase = .run → s.path = .png → s.stage = .column →
    exec .rowNone s = .next
      { s with
        cur := s.cur.write s.j.toNat (s.inMem.read (s.i.toNat * s.rowsize.toNat + 1 + s.j.toNat))
        stage := if s.j.toNat + 1 = s.stride.toNat then .commit else .column
        j := s.j + 1 }

/-- 43_png.md R111: ROW.SUB adds the left neighbour, whatever FT holds (where FT holds another opcode
this is the model's choice: log entry 20). -/
def Obligations.RowSubColumn : Prop :=
  ∀ s : State, s.Inv → s.phase = .run → s.path = .png → s.stage = .column →
    let x := s.inMem.read (s.i.toNat * s.rowsize.toNat + 1 + s.j.toNat)
    let a := if s.j.toNat < s.bpp.toNat then 0 else s.cur.read (s.j.toNat - s.bpp.toNat)
    exec .rowSub s = .next
      { s with
        cur := s.cur.write s.j.toNat (BitVec.ofNat 8 ((x.toNat + a.toNat) % 256))
        stage := if s.j.toNat + 1 = s.stride.toNat then .commit else .column
        j := s.j + 1 }

/-- 43_png.md R112: ROW.UP adds the upper neighbour, whatever FT holds (where FT holds another opcode
this is the model's choice: log entry 20). -/
def Obligations.RowUpColumn : Prop :=
  ∀ s : State, s.Inv → s.phase = .run → s.path = .png → s.stage = .column →
    let x := s.inMem.read (s.i.toNat * s.rowsize.toNat + 1 + s.j.toNat)
    let b := s.prev.read s.j.toNat
    exec .rowUp s = .next
      { s with
        cur := s.cur.write s.j.toNat (BitVec.ofNat 8 ((x.toNat + b.toNat) % 256))
        stage := if s.j.toNat + 1 = s.stride.toNat then .commit else .column
        j := s.j + 1 }

/-- 43_png.md R113: ROW.AVG adds the floor of half the unwrapped sum of the left and upper neighbours, whatever FT holds
(where FT holds another opcode this is the model's choice: log entry 20). -/
def Obligations.RowAvgColumn : Prop :=
  ∀ s : State, s.Inv → s.phase = .run → s.path = .png → s.stage = .column →
    let x := s.inMem.read (s.i.toNat * s.rowsize.toNat + 1 + s.j.toNat)
    let a := if s.j.toNat < s.bpp.toNat then 0 else s.cur.read (s.j.toNat - s.bpp.toNat)
    let b := s.prev.read s.j.toNat
    exec .rowAvg s = .next
      { s with
        cur := s.cur.write s.j.toNat (BitVec.ofNat 8 ((x.toNat + (a.toNat + b.toNat) / 2) % 256))
        stage := if s.j.toNat + 1 = s.stride.toNat then .commit else .column
        j := s.j + 1 }

/-- 43_png.md R114: ROW.PAETH adds the Paeth choice of the three neighbours, whatever FT holds (where FT holds another opcode
this is the model's choice: log entry 20). -/
def Obligations.RowPaethColumn : Prop :=
  ∀ s : State, s.Inv → s.phase = .run → s.path = .png → s.stage = .column →
    let x := s.inMem.read (s.i.toNat * s.rowsize.toNat + 1 + s.j.toNat)
    let a := if s.j.toNat < s.bpp.toNat then 0 else s.cur.read (s.j.toNat - s.bpp.toNat)
    let b := s.prev.read s.j.toNat
    let c := if s.j.toNat < s.bpp.toNat then 0 else s.prev.read (s.j.toNat - s.bpp.toNat)
    exec .rowPaeth s = .next
      { s with
        cur := s.cur.write s.j.toNat (BitVec.ofNat 8 ((x.toNat + (paeth a b c).toNat) % 256))
        stage := if s.j.toNat + 1 = s.stride.toNat then .commit else .column
        j := s.j + 1 }

/-- 43_png.md R120: the PNG COMMIT step appends the row to OUT and makes it the history, for every filter type, whatever FT
holds (that an operation given to exec while FT holds another opcode runs this step is the model's choice: log entry 20). -/
def Obligations.PngCommitAppendsAndKeepsTheRow : Prop :=
  ∀ i ∈ [Instr.rowNone, .rowSub, .rowUp, .rowAvg, .rowPaeth],
    ∀ s : State, s.Inv → s.phase = .run → s.path = .png → s.stage = .commit →
      s.j = s.stride ∧ s.outLen.toNat = s.i.toNat * s.stride.toNat ∧
      ∃ out prev : Memory,
        exec i s = .next
          { s with outMem := out, outLen := s.outLen + s.stride, prev := prev, i := s.i + 1, stage := .rowstart }
        ∧ (∀ k, out.read k =
            if s.outLen.toNat ≤ k ∧ k < s.outLen.toNat + s.stride.toNat then s.cur.read (k - s.outLen.toNat)
            else s.outMem.read k)
        ∧ (∀ k, prev.read k = if k < s.stride.toNat then s.cur.read k else s.prev.read k)

/-- 60_exceptions.md R134, R136: an illegal filter type raises UnsupportedFilterType at the ROWSTART step of its row; FT
holds the byte, I the row, whatever byte heads row I in IN (where it is another byte this is the model's choice: log entry
20). -/
def Obligations.IllegalFilterTypeIsRejected : Prop :=
  ∀ (s : State) (ft : Byte), s.phase = .run → s.path = .png → s.stage = .rowstart → s.i ≠ s.nrows →
    exec (.illegalFt ft) s = .next
      { s with ft := ft, err := some .unsupportedFilterType, phase := .error, outLen := 0 }

/-- 70_reset_and_hazards.md R160: a row operation has no step outside the PNG path in RUN, none at ROWSTART when no row is
left, and an illegal filter type none outside ROWSTART (log entry 10). -/
def Obligations.RowOperationsNeedAnEnabledStep : Prop :=
  ∀ s : State,
    (s.phase ≠ .run ∨ s.path ≠ .png ∨ (s.stage = .rowstart ∧ s.i = s.nrows) →
      ∀ i ∈ [Instr.rowNone, .rowSub, .rowUp, .rowAvg, .rowPaeth], exec i s = .refused .stepNotEnabled)
    ∧ (s.phase ≠ .run ∨ s.path ≠ .png ∨ s.stage ≠ .rowstart ∨ s.i = s.nrows →
      ∀ ft, exec (.illegalFt ft) s = .refused .stepNotEnabled)

/-! ## Frames -/

/-- What the five row operations leave unchanged: ROWSTART writes FT, J, STAGE; COLUMN writes CUR[J], J, STAGE; COMMIT
stores STRIDE bytes at OUT_LEN and upward and in PREV from element 0, and writes OUT_LEN, I, STAGE (43_png.md R106, R108,
R120). It holds whatever FT and IN select (a mismatch is the model's choice: log entry 20). -/
def Obligations.RowOperationFrame : Prop :=
  ∀ i ∈ [Instr.rowNone, .rowSub, .rowUp, .rowAvg, .rowPaeth], ∀ s t : State, s.memoriesWf = true → exec i s = .next t →
    s.SameConfig t.toEngine ∧ s.SameGeometry t.toEngine ∧ s.SameHost t
    ∧ t.phase = s.phase ∧ t.path = s.path ∧ t.k = s.k ∧ t.err = s.err
    ∧ (s.stage ≠ .rowstart → t.ft = s.ft)
    ∧ (s.stage = .commit → t.j = s.j)
    ∧ (s.stage ≠ .commit → t.i = s.i ∧ t.outLen = s.outLen)
    ∧ (∀ k, ¬ (s.stage = .column ∧ k = s.j.toNat) → t.cur.read k = s.cur.read k)
    ∧ (∀ k, ¬ (s.stage = .commit ∧ s.outLen.toNat ≤ k ∧ k < s.outLen.toNat + s.stride.toNat) →
        t.outMem.read k = s.outMem.read k)
    ∧ (∀ k, ¬ (s.stage = .commit ∧ k < s.stride.toNat) → t.prev.read k = s.prev.read k)

/-- What PRED.TIFF leaves unchanged. START (PHASE not RUN) writes the configuration, the geometry, the sequencing
registers, ERR and OUT_LEN, and no memory; the steps in progress write as 42_tiff.md R96, R97, R99 say, and never PREV or
FT. -/
def Obligations.TiffFrame : Prop :=
  ∀ (o : CfgOps) (s t : State), s.memoriesWf = true → exec (.predTiff o) s = .next t →
    s.SameHost t ∧ t.ft = s.ft ∧ (∀ k, t.prev.read k = s.prev.read k)
    ∧ (s.phase = .run → s.SameConfig t.toEngine ∧ s.SameGeometry t.toEngine ∧ t.path = s.path ∧ t.k = s.k ∧ t.err = s.err
        ∧ (s.stage ≠ .rowstart → t.phase = s.phase)
        ∧ (s.stage = .commit → t.j = s.j)
        ∧ (s.stage ≠ .commit → t.i = s.i ∧ t.outLen = s.outLen))
    ∧ (s.phase ≠ .run → t.HoldsConfig 2 o ∧ (o.bpc.toNat ≠ 8 → s.SameGeometry t.toEngine))
    ∧ (∀ k, ¬ (s.phase = .run ∧ s.stage = .column ∧ k = s.j.toNat) → t.cur.read k = s.cur.read k)
    ∧ (∀ k, ¬ (s.phase = .run ∧ s.stage = .commit ∧ s.outLen.toNat ≤ k ∧ k < s.outLen.toNat + s.stride.toNat) →
        t.outMem.read k = s.outMem.read k)

/-- What PRED.NONE leaves unchanged. START writes the configuration, the sequencing registers, ERR and OUT_LEN; a step in
progress writes PHASE, or K, OUT_LEN and the one byte of OUT at K; the geometry, FT and the row buffers never change
(41_dispatch_identity.md R84). -/
def Obligations.IdentityFrame : Prop :=
  ∀ (o : CfgOps) (s t : State), s.memoriesWf = true → exec (.predNone o) s = .next t →
    s.SameHost t ∧ s.SameGeometry t.toEngine ∧ t.ft = s.ft
    ∧ (∀ k, t.prev.read k = s.prev.read k) ∧ (∀ k, t.cur.read k = s.cur.read k)
    ∧ (s.phase = .run → s.SameConfig t.toEngine ∧ t.path = s.path ∧ t.stage = s.stage ∧ t.i = s.i ∧ t.j = s.j ∧ t.err = s.err
        ∧ (s.k = s.len → t.k = s.k ∧ t.outLen = s.outLen)
        ∧ (s.k ≠ s.len → t.phase = s.phase))
    ∧ (s.phase ≠ .run → t.HoldsConfig 1 o)
    ∧ (∀ k, ¬ (s.phase = .run ∧ s.k ≠ s.len ∧ k = s.k.toNat) → t.outMem.read k = s.outMem.read k)

/-- What PRED.PNG leaves unchanged. START writes no memory but elements 0 to STRIDE-1 of PREV and leaves FT alone; a step
in progress writes what the step of the selected row operation writes (43_png.md R106, R108, R120). -/
def Obligations.PngFrame : Prop :=
  ∀ (pred : Word) (o : CfgOps) (s t : State), s.memoriesWf = true → exec (.predPng pred o) s = .next t →
    s.SameHost t
    ∧ (s.phase = .run → s.SameConfig t.toEngine ∧ s.SameGeometry t.toEngine ∧ t.path = s.path ∧ t.k = s.k
        ∧ (s.stage ≠ .rowstart → t.phase = s.phase ∧ t.ft = s.ft ∧ t.err = s.err)
        ∧ (s.stage = .commit → t.j = s.j)
        ∧ (s.stage ≠ .commit → t.i = s.i ∧ (t.phase = .error ∨ t.outLen = s.outLen))
        ∧ (s.stage = .rowstart → s.i = s.nrows → t.ft = s.ft ∧ t.j = s.j ∧ t.err = s.err ∧ t.stage = s.stage))
    ∧ (s.phase ≠ .run → t.HoldsConfig pred o ∧ t.ft = s.ft)
    ∧ (∀ k, ¬ (s.phase = .run ∧ s.stage = .column ∧ k = s.j.toNat) → t.cur.read k = s.cur.read k)
    ∧ (∀ k, ¬ (s.phase = .run ∧ s.stage = .commit ∧ s.outLen.toNat ≤ k ∧ k < s.outLen.toNat + s.stride.toNat) →
        t.outMem.read k = s.outMem.read k)
    ∧ (∀ k, ¬ (s.phase ≠ .run ∧ k < t.stride.toNat) → ¬ (s.phase = .run ∧ s.stage = .commit ∧ k < s.stride.toNat) →
        t.prev.read k = s.prev.read k)

/-- Error entry changes ERR, PHASE and OUT_LEN and nothing else, except the writes the same step made before it
(60_exceptions.md R136): no memory changes on either illegal opcode, the geometry never, FT only by the filter type.
It holds whatever byte heads row I in IN (a mismatch is the model's choice: log entry 20). -/
def Obligations.ErrorEntryFrame : Prop :=
  (∀ (pred : Word) (o : CfgOps) (s t : State), exec (.illegalPred pred o) s = .next t →
    s.SameHost t ∧ s.SameGeometry t.toEngine ∧ t.ft = s.ft ∧ t.HoldsConfig pred o
    ∧ (∀ k, t.prev.read k = s.prev.read k) ∧ (∀ k, t.cur.read k = s.cur.read k)
    ∧ (∀ k, t.outMem.read k = s.outMem.read k))
  ∧ (∀ (ft : Byte) (s t : State), exec (.illegalFt ft) s = .next t →
    s.SameHost t ∧ s.SameConfig t.toEngine ∧ s.SameGeometry t.toEngine
    ∧ t.path = s.path ∧ t.stage = s.stage ∧ t.i = s.i ∧ t.j = s.j ∧ t.k = s.k
    ∧ (∀ k, t.prev.read k = s.prev.read k) ∧ (∀ k, t.cur.read k = s.cur.read k)
    ∧ (∀ k, t.outMem.read k = s.outMem.read k))

/-! ## The whole machine -/

/-- 70_reset_and_hazards.md R150, 10_state.md R27: the values power-on reset leaves, and no step enabled. -/
def Obligations.PowerOnResetValues : Prop :=
  State.reset.phase = .idle ∧ State.reset.path = .none ∧ State.reset.stage = .rowstart ∧ State.reset.err = none
  ∧ State.reset.outLen = 0 ∧ State.reset.i = 0 ∧ State.reset.j = 0 ∧ State.reset.k = 0
  ∧ State.reset.pred = 0 ∧ State.reset.colors = 0 ∧ State.reset.bpc = 0 ∧ State.reset.columns = 0 ∧ State.reset.len = 0
  ∧ State.reset.errCode = 0 ∧ State.reset.result = none ∧ State.reset.enabled = false

/-- The codes the host reads (10_state.md R17, R18, R19, R22, 60_exceptions.md R135). -/
def Obligations.StatusCodesAreTheSpecs : Prop :=
  [Phase.idle, .run, .done, .error].map Phase.code = [0, 1, 2, 3]
  ∧ [Machine.Path.none, .id, .tiff, .png].map Machine.Path.code = [0, 1, 2, 3]
  ∧ [Stage.rowstart, .column, .commit].map Stage.code = [0, 1, 2]
  ∧ [ErrorKind.unsupportedPredictor, .unsupportedBitDepth, .notImplemented, .unsupportedFilterType].map ErrorKind.code
      = [1, 2, 3, 4]
  ∧ ∀ s : State, s.errCode = 0 ↔ s.err = none

/-- The invariant holds at power-on reset, for every `W_CFG`, `W_LEN` and pair of capacities (00_scope.md R6). -/
def Obligations.ResetMeetsTheInvariant : Prop :=
  State.reset.Inv ∧ ∀ (wCfg wLen : Nat) (p : Params), (Engine.reset : Engine wCfg wLen).Inv p

/-- The invariant is kept by every step, from every state that meets it: memories canonical, ERR nonzero exactly in
ERROR, the bounds of I, J, K, OUT_LEN, the geometry of the configuration, FT legal, PREV the row before (10_state.md R16,
R21, R22, R23, 20_memory.md R41, 42_tiff.md R99, 43_png.md R120). So it is by the host's moves outside an invocation
(70_reset_and_hazards.md R152, R167), and by the enabled step, START and the placing of input of an engine of every `W_CFG`,
`W_LEN` and pair of capacities (00_scope.md R6). -/
def Obligations.StepKeepsTheInvariant : Prop :=
  (∀ s t : State, s.Inv → step s = .next t → t.Inv)
  ∧ (∀ s t : State, s.Inv → (∀ bytes, s.place bytes = .next t → t.Inv) ∧ ∀ c, s.present c = .next t → t.Inv)
  ∧ ∀ (wCfg wLen : Nat) (p : Params) (e u : Engine wCfg wLen), e.Inv p →
      (engineStep p e = .next u → u.Inv p) ∧ (∀ c : CfgOf wCfg wLen, engineStart p c e = .next u → u.Inv p)
      ∧ ∀ bytes, e.place bytes = .next u → u.Inv p

/-- 70_reset_and_hazards.md R160: in every state with PHASE = RUN exactly one step is enabled and it has an outcome. From
no state of a run is a fault reached, and the only refusals are START during RUN and a START outside the domain
(60_exceptions.md R143). An engine of any widths and capacities has an outcome in the same way (00_scope.md R6). -/
def Obligations.OnlyStartIsRefusedAndNothingFaults : Prop :=
  (∀ s : State, s.Inv →
    (s.phase = .run → s.start = none → ∃ t, step s = .next t)
    ∧ (∀ f, step s ≠ .fault f)
    ∧ (∀ r, step s = .refused r → ∃ c, s.start = some c ∧
        ((s.phase = .run ∧ r = .startWhileRunning)
          ∨ (s.phase ≠ .run ∧ r = .outsideDomain ∧ refusedAtStart c s.params = true))))
  ∧ ∀ (wCfg wLen : Nat) (p : Params) (e : Engine wCfg wLen), e.Inv p →
      (∃ u, engineStep p e = .next u)
      ∧ ∀ c : CfgOf wCfg wLen, (∃ u, engineStart p c e = .next u) ↔ e.phase ≠ .run ∧ refusedAtStart c p = false

/-- 10_state.md R11, R15, R28, 40_geometry.md R75: no step writes IN, and only START writes the configuration, the
geometry and PATH (during RUN); the capacities never change. 20_memory.md R45, 70_reset_and_hazards.md R152, R167: outside an
invocation the host places bytes in IN, which changes nothing else, and performs START; from START to completion it has
neither move (the refusal is the model's: log entry 16; a START not yet taken counts: log entry 6) and reads no result. The
last clause says the same of an engine of every `W_CFG` and `W_LEN` (00_scope.md R6). -/
def Obligations.OnlyStartWritesConfigurationAndGeometry : Prop :=
  (∀ s t : State, step s = .next t →
    t.inMem = s.inMem ∧ t.params = s.params
    ∧ (s.start = none → s.SameConfig t.toEngine ∧ s.SameGeometry t.toEngine ∧ t.path = s.path))
  ∧ (∀ (s : State) (bytes : List Byte) (c : Cfg), s.phase = .run ∨ s.start ≠ none →
    s.place bytes = .refused .inputOwnedByEngine ∧ s.present c = .refused .startWhileRunning ∧ s.result = none)
  ∧ (∀ (s : State) (bytes : List Byte) (c : Cfg), s.phase ≠ .run → s.start = none →
    s.present c = .next { s with start := some c }
    ∧ ∃ m : Memory, s.place bytes = .next { s with inMem := m }
      ∧ (s.inMem.wf = true → ∀ k, m.read k = if k < bytes.length then bytes.getD k 0 else s.inMem.read k))
  ∧ ∀ (wCfg wLen : Nat) (e : Engine wCfg wLen) (bytes : List Byte),
    (e.phase = .run → e.place bytes = .refused .inputOwnedByEngine ∧ e.result = none)
    ∧ (e.phase ≠ .run → ∃ m : Memory, e.place bytes = .next { e with inMem := m }
      ∧ (e.inMem.wf = true → ∀ k, m.read k = if k < bytes.length then bytes.getD k 0 else e.inMem.read k))

/-- 20_memory.md R41: PREV is written only by the zero fill of START on the PNG path and by the PNG COMMIT step. -/
def Obligations.HistoryIsWrittenOnlyByStartAndCommit : Prop :=
  ∀ s t : State, step s = .next t → t.prev ≠ s.prev →
    (s.phase ≠ .run ∧ (∃ c, s.start = some c ∧ 10 ≤ c.pred.toNat) ∧ t.phase = .run ∧ t.path = .png)
    ∨ (s.phase = .run ∧ s.path = .png ∧ s.stage = .commit)

/-- 20_memory.md R32: during an invocation no byte of OUT below OUT_LEN is written again, and OUT_LEN falls only by error
entry. -/
def Obligations.OutputIsOnlyAppendedTo : Prop :=
  ∀ s t : State, s.Inv → s.phase = .run → step s = .next t →
    (∀ k, k < s.outLen.toNat → t.outMem.read k = s.outMem.read k)
    ∧ (t.phase ≠ .error → s.outLen.toNat ≤ t.outLen.toNat)
    ∧ (t.phase = .error → t.outLen = 0)

/-- 10_state.md R17: the transitions of PHASE. IDLE, DONE and ERROR go to RUN or ERROR by START and stay otherwise; RUN
goes to RUN, DONE or ERROR. -/
def Obligations.PhaseTransitions : Prop :=
  ∀ s t : State, step s = .next t →
    (s.phase = .run → t.phase = .run ∨ t.phase = .done ∨ t.phase = .error)
    ∧ (s.phase ≠ .run → s.start ≠ none → (t.phase = .run ∨ t.phase = .error) ∧ t.start = none)
    ∧ (s.phase ≠ .run → s.start = none → t = s)

/-- 60_exceptions.md R133: no step raises NotImplemented, from any state, and ERR does not hold it after power-on reset;
its code is 3. -/
def Obligations.NotImplementedIsNeverRaised : Prop :=
  ErrorKind.notImplemented.code = 3 ∧ State.reset.err ≠ some .notImplemented
  ∧ ∀ s t : State, step s = .next t → t.err = some .notImplemented → s.err = some .notImplemented

/-- 42_tiff.md R101, 43_png.md R122, 41_dispatch_identity.md R84: which step raises which error kind. -/
def Obligations.ErrorsAreRaisedWhereTheSpecSays : Prop :=
  ∀ s t : State, s.phase ≠ .error → step s = .next t → t.phase = .error →
    (t.err = some .unsupportedPredictor ∧ s.phase ≠ .run
      ∧ ∃ c, s.start = some c ∧ (c.pred.toNat = 0 ∨ (3 ≤ c.pred.toNat ∧ c.pred.toNat ≤ 9)) ∧ t.pred = c.pred)
    ∨ (t.err = some .unsupportedBitDepth ∧ s.phase ≠ .run
      ∧ ∃ c, s.start = some c ∧ c.pred.toNat = 2 ∧ c.ops.bpc.toNat ≠ 8 ∧ t.bpc = c.ops.bpc)
    ∨ (t.err = some .unsupportedFilterType ∧ s.phase = .run ∧ s.path = .png ∧ s.stage = .rowstart ∧ s.i ≠ s.nrows
      ∧ t.ft = s.inMem.read (s.i.toNat * s.rowsize.toNat) ∧ 4 < t.ft.toNat ∧ t.i = s.i)

/-! ## Whole invocations -/

/-- 41_dispatch_identity.md R87: from every state in which START has been performed with a configuration that is not
refused, the engine runs to completion and its result is the reference function of the configuration and the LEN input
bytes; a configuration outside the domain is refused. The last clause says the same of an engine of every `W_CFG`, `W_LEN`
and pair of capacities (00_scope.md R6), after exactly the number of steps of 70_reset_and_hazards.md R161. -/
def Obligations.InvocationComputesTheReference : Prop :=
  (∀ (s : State) (c : Cfg), s.Begins c →
    ∃ (n : Nat) (t : State), Host.Core.run Sys2Proof.core n s = .next t ∧ t.complete = true
      ∧ t.result = some (reference c (s.inBytes c.ops.len.toNat)))
  ∧ (∀ (s : State) (c : Cfg), s.phase ≠ .run → s.start = some c → refusedAtStart c s.params = true →
    step s = .refused .outsideDomain)
  ∧ ∀ (wCfg wLen : Nat) (p : Params) (c : CfgOf wCfg wLen) (e : Engine wCfg wLen), e.memoriesWf = true → e.phase ≠ .run →
    refusedAtStart c p = false →
    ∃ u t, engineStart p c e = .next u
      ∧ engineRun p (invocationSteps c (e.inBytes c.ops.len.toNat)) u = .next t ∧ t.complete = true
      ∧ t.result = some (reference c (e.inBytes c.ops.len.toNat))

/-- 70_reset_and_hazards.md R161: every invocation ends after exactly the stated number of steps after START, in DONE or,
where the reference function is an error, in ERROR, and is in RUN until then. -/
def Obligations.InvocationEndsAfterTheStatedSteps : Prop :=
  ∀ (s : State) (c : Cfg), s.Begins c →
    let n := invocationSteps c (s.inBytes c.ops.len.toNat)
    (∀ m, 1 ≤ m → m ≤ n → ∃ t : State, Host.Core.run Sys2Proof.core m s = .next t ∧ t.phase = .run)
    ∧ ∃ t : State, Host.Core.run Sys2Proof.core (n + 1) s = .next t
      ∧ t.phase = match reference c (s.inBytes c.ops.len.toNat) with
        | .ok _ => .done
        | .error _ => .error

/-- 41_dispatch_identity.md R82: the result is a function of the configuration and the input bytes alone: two states that
share the pending START, the capacities and the LEN bytes of IN give the same result after every number of steps,
whatever an earlier invocation or reset left in the rest. -/
def Obligations.ResultDependsOnConfigurationAndInputOnly : Prop :=
  ∀ (s s' : State) (c : Cfg), s.Begins c → s'.Begins c → s.params = s'.params →
    (∀ k, k < c.ops.len.toNat → s.inMem.read k = s'.inMem.read k) →
    ∀ (n : Nat) (t t' : State), 1 ≤ n → Host.Core.run Sys2Proof.core n s = .next t →
      Host.Core.run Sys2Proof.core n s' = .next t' → t.result = t'.result

/-- 41_dispatch_identity.md R85: the identity path returns the input unchanged. -/
def Obligations.IdentityPathCopiesTheWholeInput : Prop :=
  ∀ (s : State) (c : Cfg), s.Begins c → c.pred.toNat = 1 →
    ∃ t : State, Host.Core.run Sys2Proof.core (c.ops.len.toNat + 2) s = .next t ∧ t.phase = .done
      ∧ t.outLen = c.ops.len ∧ ∀ k, k < c.ops.len.toNat → t.outMem.read k = s.inMem.read k

/-- 42_tiff.md R100: the closed form of one TIFF row. -/
def Obligations.TiffRowIsARunningSumPerLane : Prop :=
  ∀ (bpp : Nat) (x : List Byte), 1 ≤ bpp →
    (tiffRow bpp x).length = x.length
    ∧ (∀ j, j < x.length → j < bpp → (tiffRow bpp x).getD j 0 = x.getD j 0)
    ∧ (∀ j, j < x.length → bpp ≤ j →
        ((tiffRow bpp x).getD j 0).toNat = ((x.getD j 0).toNat + ((tiffRow bpp x).getD (j - bpp) 0).toNat) % 256)
    ∧ (∀ j, j < x.length →
        ((tiffRow bpp x).getD j 0).toNat
          = (((List.range (j / bpp + 1)).map (fun m => (x.getD (j - m * bpp) 0).toNat)).sum) % 256)

/-- 43_png.md R121: the closed form of one PNG row. -/
def Obligations.PngRowClosedForm : Prop :=
  ∀ (bpp : Nat) (ft : Byte) (x prev : List Byte), 1 ≤ bpp → ft.toNat ≤ 4 →
    (pngRow bpp ft x prev).length = x.length
    ∧ ∀ j, j < x.length →
        let a := if j < bpp then 0 else (pngRow bpp ft x prev).getD (j - bpp) 0
        let b := prev.getD j 0
        let c := if j < bpp then 0 else prev.getD (j - bpp) 0
        ((pngRow bpp ft x prev).getD j 0).toNat
          = ((x.getD j 0).toNat +
              (if ft = 0 then 0 else if ft = 1 then a.toNat else if ft = 2 then b.toNat
               else if ft = 3 then (a.toNat + b.toNat) / 2 else (paeth a b c).toNat)) % 256
end

