-- ==== Sys2Proof/Laws/Memory.lean ====
section
/-! SUPPORT. What reading, writing, copying and clearing a memory do, and that each keeps the canonical form. -/

namespace Sys2Proof.Machine

/-! ## The canonical form -/

theorem Memory.wf_of_wfAbove {lo : Nat} : ∀ {m : Memory}, Memory.wfAbove lo m = true → Memory.wf m = true
  | [], _ => rfl
  | (a, b) :: m, h => by
    simp only [Memory.wfAbove, Memory.wf, Bool.and_eq_true] at h ⊢
    exact ⟨h.1.2, h.2⟩

theorem Memory.wfAbove_mono {lo lo' : Nat} (hle : lo' ≤ lo) :
    ∀ {m : Memory}, Memory.wfAbove lo m = true → Memory.wfAbove lo' m = true
  | [], _ => rfl
  | (a, b) :: m, h => by
    simp only [Memory.wfAbove, Bool.and_eq_true, decide_eq_true_eq] at h ⊢
    exact ⟨⟨Nat.lt_of_le_of_lt hle h.1.1, h.1.2⟩, h.2⟩

theorem Memory.wf_cons {a : Nat} {b : Byte} {m : Memory} :
    Memory.wf ((a, b) :: m) = true ↔ b ≠ Memory.unlisted ∧ Memory.wfAbove a m = true := by
  simp [Memory.wf]

@[simp] theorem Memory.wf_nil : Memory.wf [] = true := rfl

/-! ## Reading -/

@[simp] theorem Memory.read_nil (k : Nat) : Memory.read [] k = 0 := rfl

/-- Below the listed addresses everything reads as unlisted. -/
theorem Memory.read_of_wfAbove {lo k : Nat} (hk : k ≤ lo) :
    ∀ {m : Memory}, Memory.wfAbove lo m = true → Memory.read m k = Memory.unlisted
  | [], _ => rfl
  | (a, b) :: m, h => by
    simp only [Memory.wfAbove, Bool.and_eq_true, decide_eq_true_eq] at h
    rw [Memory.read, if_pos (Nat.lt_of_le_of_lt hk h.1.1)]

theorem Memory.read_cons_of_wfAbove {k : Nat} {v : Byte} {m : Memory} (h : Memory.wfAbove k m = true) (k' : Nat) :
    Memory.read (Memory.cons k v m) k' = if k' = k then v else Memory.read m k' := by
  by_cases hv : v = Memory.unlisted
  · by_cases hk : k' = k
    · simp [Memory.cons, hv, hk, Memory.read_of_wfAbove (Nat.le_refl k) h]
    · simp [Memory.cons, hv, hk]
  · by_cases hlt : k' < k
    · simp [Memory.cons, hv, Memory.read, hlt, Nat.ne_of_lt hlt, Memory.read_of_wfAbove (Nat.le_of_lt hlt) h]
    · simp [Memory.cons, hv, Memory.read, hlt]

theorem Memory.cons_wfAbove {lo k : Nat} {v : Byte} {m : Memory} (hlo : lo < k) (h : Memory.wfAbove k m = true) :
    Memory.wfAbove lo (Memory.cons k v m) = true := by
  by_cases hv : v = Memory.unlisted
  · simpa [Memory.cons, hv] using Memory.wfAbove_mono (Nat.le_of_lt hlo) h
  · simp [Memory.cons, hv, Memory.wfAbove, hlo, h]

/-! ## Writing -/

theorem Memory.write_wfAbove {lo k : Nat} (hk : lo < k) (v : Byte) :
    ∀ {m : Memory}, Memory.wfAbove lo m = true → Memory.wfAbove lo (Memory.write m k v) = true
  | [], _ => Memory.cons_wfAbove hk rfl
  | (a, b) :: m, h => by
    have h' := h
    simp only [Memory.wfAbove, Bool.and_eq_true, decide_eq_true_eq] at h'
    rw [Memory.write]
    split
    next hlt =>
      refine Memory.cons_wfAbove hk ?_
      simp [Memory.wfAbove, hlt, h'.1.2, h'.2]
    next hlt =>
      split
      next heq => exact Memory.cons_wfAbove hk (heq ▸ h'.2)
      next hne =>
        simp only [Memory.wfAbove, Bool.and_eq_true, decide_eq_true_eq]
        exact ⟨h'.1, Memory.write_wfAbove (by omega) v h'.2⟩

theorem Memory.write_wf (k : Nat) (v : Byte) :
    ∀ {m : Memory}, Memory.wf m = true → Memory.wf (Memory.write m k v) = true
  | [], _ => by
    by_cases hv : v = Memory.unlisted <;> simp [Memory.write, Memory.cons, hv, Memory.wf, Memory.wfAbove]
  | (a, b) :: m, h => by
    have h' := Memory.wf_cons.1 h
    rw [Memory.write]
    split
    next hlt =>
      by_cases hv : v = Memory.unlisted
      · simpa [Memory.cons, hv] using h
      · simp [Memory.cons, hv, Memory.wf, Memory.wfAbove, hlt, h'.1, h'.2]
    next hlt =>
      split
      next heq =>
        by_cases hv : v = Memory.unlisted
        · simpa [Memory.cons, hv] using Memory.wf_of_wfAbove h'.2
        · simp [Memory.cons, hv, Memory.wf, heq, h'.2]
      next hne => exact Memory.wf_cons.2 ⟨h'.1, Memory.write_wfAbove (by omega) v h'.2⟩

theorem Memory.read_write_above {lo k : Nat} (v : Byte) (k' : Nat) :
    ∀ {m : Memory}, Memory.wfAbove lo m = true →
      Memory.read (Memory.write m k v) k' = if k' = k then v else Memory.read m k'
  | [], _ => Memory.read_cons_of_wfAbove rfl k'
  | (a, b) :: m, h => by
    have h' := h
    simp only [Memory.wfAbove, Bool.and_eq_true, decide_eq_true_eq] at h'
    rw [Memory.write]
    split
    next hlt =>
      refine Memory.read_cons_of_wfAbove ?_ k'
      simp [Memory.wfAbove, hlt, h'.1.2, h'.2]
    next hlt =>
      split
      next heq =>
        subst heq
        rw [Memory.read_cons_of_wfAbove h'.2]
        by_cases hk : k' = k
        · simp [hk]
        · by_cases hlt' : k' < k
          · simp [hk, Memory.read, hlt', Memory.read_of_wfAbove (Nat.le_of_lt hlt') h'.2]
          · simp [hk, Memory.read, hlt']
      next hne =>
        rw [Memory.read]
        split
        next hka =>
          rw [if_neg (by omega), Memory.read, if_pos hka]
        next hka =>
          split
          next hka2 => rw [if_neg (by omega), Memory.read, if_neg hka, if_pos hka2]
          next hka2 =>
            rw [Memory.read_write_above v k' h'.2]
            by_cases hk : k' = k
            · simp [hk]
            · rw [if_neg hk, if_neg hk, Memory.read, if_neg hka, if_neg hka2]

/-- A read after a write gives the byte written there and the old byte elsewhere. -/
theorem Memory.read_write {m : Memory} (h : Memory.wf m = true) (k : Nat) (v : Byte) (k' : Nat) :
    Memory.read (Memory.write m k v) k' = if k' = k then v else Memory.read m k' := by
  cases m with
  | nil => exact Memory.read_write_above (lo := 0) v k' rfl
  | cons c m =>
    obtain ⟨a, b⟩ := c
    have h' := Memory.wf_cons.1 h
    cases a with
    | succ a =>
      refine Memory.read_write_above (lo := a) v k' ?_
      simp [Memory.wfAbove, h'.1, h'.2]
    | zero =>
      rw [Memory.write, if_neg (Nat.not_lt_zero k)]
      split
      next heq =>
        subst heq
        rw [Memory.read_cons_of_wfAbove h'.2]
        by_cases hk : k' = 0
        · simp [hk]
        · simp [hk, Memory.read]
      next hne =>
        rw [Memory.read, if_neg (Nat.not_lt_zero k')]
        split
        next hk0 => rw [if_neg (by omega), Memory.read, if_neg (Nat.not_lt_zero k'), if_pos hk0]
        next hk0 =>
          rw [Memory.read_write_above v k' h'.2]
          by_cases hk : k' = k
          · simp [hk]
          · rw [if_neg hk, if_neg hk, Memory.read, if_neg (Nat.not_lt_zero k'), if_neg hk0]

theorem Memory.read_write_same {m : Memory} (h : Memory.wf m = true) (k : Nat) (v : Byte) :
    Memory.read (Memory.write m k v) k = v := by rw [Memory.read_write h, if_pos rfl]

theorem Memory.read_write_other {m : Memory} (h : Memory.wf m = true) {k k' : Nat} (v : Byte) (hne : k' ≠ k) :
    Memory.read (Memory.write m k v) k' = Memory.read m k' := by rw [Memory.read_write h, if_neg hne]

/-! ## Placing a list of bytes -/

theorem Memory.writeList_wf : ∀ (bytes : List Byte) (base : Nat) {m : Memory}, Memory.wf m = true →
    Memory.wf (Memory.writeList m base bytes) = true
  | [], _, _, h => h
  | v :: vs, base, _, h => Memory.writeList_wf vs (base + 1) (Memory.write_wf base v h)

/-- The placed bytes stand at `base`, everything else is as before. -/
theorem Memory.read_writeList (k : Nat) : ∀ (bytes : List Byte) (base : Nat) {m : Memory}, Memory.wf m = true →
    Memory.read (Memory.writeList m base bytes) k
      = if base ≤ k ∧ k < base + bytes.length then bytes.getD (k - base) 0 else Memory.read m k
  | [], base, _, _ => by rw [Memory.writeList, if_neg (by rw [List.length_nil]; omega)]
  | v :: vs, base, m, h => by
    rw [Memory.writeList, Memory.read_writeList k vs (base + 1) (Memory.write_wf base v h), Memory.read_write h]
    simp only [List.length_cons]
    rcases Nat.lt_trichotomy k base with hk | rfl | hk
    · rw [if_neg (by omega), if_neg (by omega), if_neg (by omega)]
    · rw [if_neg (by omega), if_pos rfl, if_pos (by omega), Nat.sub_self, List.getD_cons_zero]
    · rw [if_neg (by omega : ¬ k = base)]
      by_cases hin : base + 1 ≤ k ∧ k < base + 1 + vs.length
      · rw [if_pos hin, if_pos (by omega), show k - base = (k - (base + 1)) + 1 by omega, List.getD_cons_succ]
      · rw [if_neg hin, if_neg (by omega)]

/-! ## Copying a row -/

theorem Memory.copyRow_wf (base : Nat) (src : Memory) {m : Memory} (h : Memory.wf m = true) :
    ∀ n, Memory.wf (Memory.copyRow m base src n) = true
  | 0 => h
  | n + 1 => Memory.write_wf _ _ (Memory.copyRow_wf base src h n)

/-- A copied row stands at `base`, everything else is as before. -/
theorem Memory.read_copyRow (base : Nat) (src : Memory) {m : Memory} (h : Memory.wf m = true) (k : Nat) :
    ∀ n, Memory.read (Memory.copyRow m base src n) k
      = if base ≤ k ∧ k < base + n then Memory.read src (k - base) else Memory.read m k
  | 0 => by rw [Memory.copyRow, if_neg (by omega)]
  | n + 1 => by
    rw [Memory.copyRow, Memory.read_write (Memory.copyRow_wf base src h n), Memory.read_copyRow base src h k n]
    by_cases hk : k = base + n
    · subst hk
      rw [if_pos rfl, if_pos (by omega), Nat.add_sub_cancel_left]
    · rw [if_neg hk]
      by_cases hin : base ≤ k ∧ k < base + n
      · rw [if_pos hin, if_pos (by omega)]
      · rw [if_neg hin, if_neg (by omega)]

/-! ## Clearing the first elements -/

theorem Memory.clearBelow_wfAbove (n : Nat) : ∀ {lo : Nat} {m : Memory}, Memory.wfAbove lo m = true →
    Memory.wfAbove lo (Memory.clearBelow m n) = true
  | _, [], _ => rfl
  | lo, (a, b) :: m, h => by
    simp only [Memory.wfAbove, Bool.and_eq_true, decide_eq_true_eq] at h
    have ih := Memory.clearBelow_wfAbove n h.2
    by_cases ha : n ≤ a
    · simpa [Memory.clearBelow, ha, Memory.wfAbove, h.1] using ih
    · have := Memory.wfAbove_mono (Nat.le_of_lt h.1.1) ih
      simpa [Memory.clearBelow, ha] using this

theorem Memory.clearBelow_wf (n : Nat) {m : Memory} (h : Memory.wf m = true) :
    Memory.wf (Memory.clearBelow m n) = true := by
  cases m with
  | nil => rfl
  | cons c m =>
    obtain ⟨a, b⟩ := c
    have h' := Memory.wf_cons.1 h
    have ih := Memory.clearBelow_wfAbove n h'.2
    by_cases ha : n ≤ a
    · simpa [Memory.clearBelow, ha, Memory.wf, h'.1] using ih
    · simpa [Memory.clearBelow, ha] using Memory.wf_of_wfAbove ih

theorem Memory.read_clearBelow_above (n k : Nat) : ∀ {lo : Nat} {m : Memory}, Memory.wfAbove lo m = true →
    Memory.read (Memory.clearBelow m n) k = if k < n then 0 else Memory.read m k
  | _, [], _ => by simp [Memory.clearBelow]
  | _, (a, b) :: m, h => by
    simp only [Memory.wfAbove, Bool.and_eq_true, decide_eq_true_eq] at h
    have ih := Memory.read_clearBelow_above n k h.2
    by_cases ha : n ≤ a
    · have hc : Memory.clearBelow ((a, b) :: m) n = (a, b) :: Memory.clearBelow m n := by
        simp [Memory.clearBelow, ha]
      rw [hc, Memory.read, Memory.read]
      split
      next hka =>
        by_cases hkn : k < n <;> simp [hkn, Memory.unlisted]
      next hka =>
        split
        next heq => rw [if_neg (by omega)]
        next hne => exact ih
    · have hc : Memory.clearBelow ((a, b) :: m) n = Memory.clearBelow m n := by
        simp [Memory.clearBelow, ha]
      rw [hc, ih]
      by_cases hkn : k < n
      · rw [if_pos hkn, if_pos hkn]
      · rw [if_neg hkn, if_neg hkn, Memory.read, if_neg (by omega), if_neg (by omega)]

/-- The cleared elements read 0, the others as before. -/
theorem Memory.read_clearBelow {m : Memory} (h : Memory.wf m = true) (n k : Nat) :
    Memory.read (Memory.clearBelow m n) k = if k < n then 0 else Memory.read m k := by
  cases m with
  | nil => simp [Memory.clearBelow]
  | cons c m =>
    obtain ⟨a, b⟩ := c
    have h' := Memory.wf_cons.1 h
    cases a with
    | succ a =>
      refine Memory.read_clearBelow_above n k (lo := a) ?_
      simp [Memory.wfAbove, h'.1, h'.2]
    | zero =>
      have ih := Memory.read_clearBelow_above n k h'.2
      by_cases hn : n = 0
      · subst hn
        simp [Memory.clearBelow]
      · have hc : Memory.clearBelow ((0, b) :: m) n = Memory.clearBelow m n := by
          simp [Memory.clearBelow, hn]
        rw [hc, ih]
        by_cases hkn : k < n
        · rw [if_pos hkn, if_pos hkn]
        · rw [if_neg hkn, if_neg hkn, Memory.read, if_neg (Nat.not_lt_zero k), if_neg (by omega)]

end Sys2Proof.Machine
end

