-- ==== Sys2Proof/Laws/State.lean ====
section
/-! SUPPORT. One lemma for each field under each named update, true by rfl, so that no later proof unfolds a record
update: the engine's at every width, then the interface's state around it. -/

namespace Sys2Proof.Machine

variable {wCfg wLen : Nat}

/-! ## `Engine.raise` (60_exceptions.md R136) -/

@[simp] theorem Engine.raise_pred (e : Engine wCfg wLen) (kind : ErrorKind) : (e.raise kind).pred = e.pred := rfl
@[simp] theorem Engine.raise_colors (e : Engine wCfg wLen) (kind : ErrorKind) : (e.raise kind).colors = e.colors := rfl
@[simp] theorem Engine.raise_bpc (e : Engine wCfg wLen) (kind : ErrorKind) : (e.raise kind).bpc = e.bpc := rfl
@[simp] theorem Engine.raise_columns (e : Engine wCfg wLen) (kind : ErrorKind) : (e.raise kind).columns = e.columns := rfl
@[simp] theorem Engine.raise_len (e : Engine wCfg wLen) (kind : ErrorKind) : (e.raise kind).len = e.len := rfl
@[simp] theorem Engine.raise_bpp (e : Engine wCfg wLen) (kind : ErrorKind) : (e.raise kind).bpp = e.bpp := rfl
@[simp] theorem Engine.raise_stride (e : Engine wCfg wLen) (kind : ErrorKind) : (e.raise kind).stride = e.stride := rfl
@[simp] theorem Engine.raise_rowsize (e : Engine wCfg wLen) (kind : ErrorKind) : (e.raise kind).rowsize = e.rowsize := rfl
@[simp] theorem Engine.raise_nrows (e : Engine wCfg wLen) (kind : ErrorKind) : (e.raise kind).nrows = e.nrows := rfl
@[simp] theorem Engine.raise_phase (e : Engine wCfg wLen) (kind : ErrorKind) : (e.raise kind).phase = .error := rfl
@[simp] theorem Engine.raise_path (e : Engine wCfg wLen) (kind : ErrorKind) : (e.raise kind).path = e.path := rfl
@[simp] theorem Engine.raise_stage (e : Engine wCfg wLen) (kind : ErrorKind) : (e.raise kind).stage = e.stage := rfl
@[simp] theorem Engine.raise_i (e : Engine wCfg wLen) (kind : ErrorKind) : (e.raise kind).i = e.i := rfl
@[simp] theorem Engine.raise_j (e : Engine wCfg wLen) (kind : ErrorKind) : (e.raise kind).j = e.j := rfl
@[simp] theorem Engine.raise_k (e : Engine wCfg wLen) (kind : ErrorKind) : (e.raise kind).k = e.k := rfl
@[simp] theorem Engine.raise_ft (e : Engine wCfg wLen) (kind : ErrorKind) : (e.raise kind).ft = e.ft := rfl
@[simp] theorem Engine.raise_err (e : Engine wCfg wLen) (kind : ErrorKind) : (e.raise kind).err = some kind := rfl
@[simp] theorem Engine.raise_outLen (e : Engine wCfg wLen) (kind : ErrorKind) : (e.raise kind).outLen = 0 := rfl
@[simp] theorem Engine.raise_prev (e : Engine wCfg wLen) (kind : ErrorKind) : (e.raise kind).prev = e.prev := rfl
@[simp] theorem Engine.raise_cur (e : Engine wCfg wLen) (kind : ErrorKind) : (e.raise kind).cur = e.cur := rfl
@[simp] theorem Engine.raise_inMem (e : Engine wCfg wLen) (kind : ErrorKind) : (e.raise kind).inMem = e.inMem := rfl
@[simp] theorem Engine.raise_outMem (e : Engine wCfg wLen) (kind : ErrorKind) : (e.raise kind).outMem = e.outMem := rfl

/-! ## `Engine.beginStart` (41_dispatch_identity.md R80) -/

@[simp] theorem Engine.beginStart_pred (e : Engine wCfg wLen) (c : CfgOf wCfg wLen) : (e.beginStart c).pred = c.pred := rfl
@[simp] theorem Engine.beginStart_colors (e : Engine wCfg wLen) (c : CfgOf wCfg wLen) : (e.beginStart c).colors = c.ops.colors := rfl
@[simp] theorem Engine.beginStart_bpc (e : Engine wCfg wLen) (c : CfgOf wCfg wLen) : (e.beginStart c).bpc = c.ops.bpc := rfl
@[simp] theorem Engine.beginStart_columns (e : Engine wCfg wLen) (c : CfgOf wCfg wLen) : (e.beginStart c).columns = c.ops.columns := rfl
@[simp] theorem Engine.beginStart_len (e : Engine wCfg wLen) (c : CfgOf wCfg wLen) : (e.beginStart c).len = c.ops.len := rfl
@[simp] theorem Engine.beginStart_bpp (e : Engine wCfg wLen) (c : CfgOf wCfg wLen) : (e.beginStart c).bpp = e.bpp := rfl
@[simp] theorem Engine.beginStart_stride (e : Engine wCfg wLen) (c : CfgOf wCfg wLen) : (e.beginStart c).stride = e.stride := rfl
@[simp] theorem Engine.beginStart_rowsize (e : Engine wCfg wLen) (c : CfgOf wCfg wLen) : (e.beginStart c).rowsize = e.rowsize := rfl
@[simp] theorem Engine.beginStart_nrows (e : Engine wCfg wLen) (c : CfgOf wCfg wLen) : (e.beginStart c).nrows = e.nrows := rfl
@[simp] theorem Engine.beginStart_phase (e : Engine wCfg wLen) (c : CfgOf wCfg wLen) : (e.beginStart c).phase = e.phase := rfl
@[simp] theorem Engine.beginStart_path (e : Engine wCfg wLen) (c : CfgOf wCfg wLen) : (e.beginStart c).path = .none := rfl
@[simp] theorem Engine.beginStart_stage (e : Engine wCfg wLen) (c : CfgOf wCfg wLen) : (e.beginStart c).stage = .rowstart := rfl
@[simp] theorem Engine.beginStart_i (e : Engine wCfg wLen) (c : CfgOf wCfg wLen) : (e.beginStart c).i = 0 := rfl
@[simp] theorem Engine.beginStart_j (e : Engine wCfg wLen) (c : CfgOf wCfg wLen) : (e.beginStart c).j = 0 := rfl
@[simp] theorem Engine.beginStart_k (e : Engine wCfg wLen) (c : CfgOf wCfg wLen) : (e.beginStart c).k = 0 := rfl
@[simp] theorem Engine.beginStart_ft (e : Engine wCfg wLen) (c : CfgOf wCfg wLen) : (e.beginStart c).ft = e.ft := rfl
@[simp] theorem Engine.beginStart_err (e : Engine wCfg wLen) (c : CfgOf wCfg wLen) : (e.beginStart c).err = none := rfl
@[simp] theorem Engine.beginStart_outLen (e : Engine wCfg wLen) (c : CfgOf wCfg wLen) : (e.beginStart c).outLen = 0 := rfl
@[simp] theorem Engine.beginStart_prev (e : Engine wCfg wLen) (c : CfgOf wCfg wLen) : (e.beginStart c).prev = e.prev := rfl
@[simp] theorem Engine.beginStart_cur (e : Engine wCfg wLen) (c : CfgOf wCfg wLen) : (e.beginStart c).cur = e.cur := rfl
@[simp] theorem Engine.beginStart_inMem (e : Engine wCfg wLen) (c : CfgOf wCfg wLen) : (e.beginStart c).inMem = e.inMem := rfl
@[simp] theorem Engine.beginStart_outMem (e : Engine wCfg wLen) (c : CfgOf wCfg wLen) : (e.beginStart c).outMem = e.outMem := rfl

/-! ## `Engine.setGeometry` (10_state.md R15) -/

@[simp] theorem Engine.setGeometry_pred (e : Engine wCfg wLen) (g : Geometry) : (e.setGeometry g).pred = e.pred := rfl
@[simp] theorem Engine.setGeometry_colors (e : Engine wCfg wLen) (g : Geometry) : (e.setGeometry g).colors = e.colors := rfl
@[simp] theorem Engine.setGeometry_bpc (e : Engine wCfg wLen) (g : Geometry) : (e.setGeometry g).bpc = e.bpc := rfl
@[simp] theorem Engine.setGeometry_columns (e : Engine wCfg wLen) (g : Geometry) : (e.setGeometry g).columns = e.columns := rfl
@[simp] theorem Engine.setGeometry_len (e : Engine wCfg wLen) (g : Geometry) : (e.setGeometry g).len = e.len := rfl
@[simp] theorem Engine.setGeometry_bpp (e : Engine wCfg wLen) (g : Geometry) : (e.setGeometry g).bpp = BitVec.ofNat wLen g.bpp := rfl
@[simp] theorem Engine.setGeometry_stride (e : Engine wCfg wLen) (g : Geometry) : (e.setGeometry g).stride = BitVec.ofNat wLen g.stride := rfl
@[simp] theorem Engine.setGeometry_rowsize (e : Engine wCfg wLen) (g : Geometry) : (e.setGeometry g).rowsize = BitVec.ofNat wLen g.rowsize := rfl
@[simp] theorem Engine.setGeometry_nrows (e : Engine wCfg wLen) (g : Geometry) : (e.setGeometry g).nrows = BitVec.ofNat wLen g.nrows := rfl
@[simp] theorem Engine.setGeometry_phase (e : Engine wCfg wLen) (g : Geometry) : (e.setGeometry g).phase = e.phase := rfl
@[simp] theorem Engine.setGeometry_path (e : Engine wCfg wLen) (g : Geometry) : (e.setGeometry g).path = e.path := rfl
@[simp] theorem Engine.setGeometry_stage (e : Engine wCfg wLen) (g : Geometry) : (e.setGeometry g).stage = e.stage := rfl
@[simp] theorem Engine.setGeometry_i (e : Engine wCfg wLen) (g : Geometry) : (e.setGeometry g).i = e.i := rfl
@[simp] theorem Engine.setGeometry_j (e : Engine wCfg wLen) (g : Geometry) : (e.setGeometry g).j = e.j := rfl
@[simp] theorem Engine.setGeometry_k (e : Engine wCfg wLen) (g : Geometry) : (e.setGeometry g).k = e.k := rfl
@[simp] theorem Engine.setGeometry_ft (e : Engine wCfg wLen) (g : Geometry) : (e.setGeometry g).ft = e.ft := rfl
@[simp] theorem Engine.setGeometry_err (e : Engine wCfg wLen) (g : Geometry) : (e.setGeometry g).err = e.err := rfl
@[simp] theorem Engine.setGeometry_outLen (e : Engine wCfg wLen) (g : Geometry) : (e.setGeometry g).outLen = e.outLen := rfl
@[simp] theorem Engine.setGeometry_prev (e : Engine wCfg wLen) (g : Geometry) : (e.setGeometry g).prev = e.prev := rfl
@[simp] theorem Engine.setGeometry_cur (e : Engine wCfg wLen) (g : Geometry) : (e.setGeometry g).cur = e.cur := rfl
@[simp] theorem Engine.setGeometry_inMem (e : Engine wCfg wLen) (g : Geometry) : (e.setGeometry g).inMem = e.inMem := rfl
@[simp] theorem Engine.setGeometry_outMem (e : Engine wCfg wLen) (g : Geometry) : (e.setGeometry g).outMem = e.outMem := rfl

/-! ## `Engine.runPath` (41_dispatch_identity.md R80) -/

@[simp] theorem Engine.runPath_pred (e : Engine wCfg wLen) (p : Path) : (e.runPath p).pred = e.pred := rfl
@[simp] theorem Engine.runPath_colors (e : Engine wCfg wLen) (p : Path) : (e.runPath p).colors = e.colors := rfl
@[simp] theorem Engine.runPath_bpc (e : Engine wCfg wLen) (p : Path) : (e.runPath p).bpc = e.bpc := rfl
@[simp] theorem Engine.runPath_columns (e : Engine wCfg wLen) (p : Path) : (e.runPath p).columns = e.columns := rfl
@[simp] theorem Engine.runPath_len (e : Engine wCfg wLen) (p : Path) : (e.runPath p).len = e.len := rfl
@[simp] theorem Engine.runPath_bpp (e : Engine wCfg wLen) (p : Path) : (e.runPath p).bpp = e.bpp := rfl
@[simp] theorem Engine.runPath_stride (e : Engine wCfg wLen) (p : Path) : (e.runPath p).stride = e.stride := rfl
@[simp] theorem Engine.runPath_rowsize (e : Engine wCfg wLen) (p : Path) : (e.runPath p).rowsize = e.rowsize := rfl
@[simp] theorem Engine.runPath_nrows (e : Engine wCfg wLen) (p : Path) : (e.runPath p).nrows = e.nrows := rfl
@[simp] theorem Engine.runPath_phase (e : Engine wCfg wLen) (p : Path) : (e.runPath p).phase = .run := rfl
@[simp] theorem Engine.runPath_path (e : Engine wCfg wLen) (p : Path) : (e.runPath p).path = p := rfl
@[simp] theorem Engine.runPath_stage (e : Engine wCfg wLen) (p : Path) : (e.runPath p).stage = e.stage := rfl
@[simp] theorem Engine.runPath_i (e : Engine wCfg wLen) (p : Path) : (e.runPath p).i = e.i := rfl
@[simp] theorem Engine.runPath_j (e : Engine wCfg wLen) (p : Path) : (e.runPath p).j = e.j := rfl
@[simp] theorem Engine.runPath_k (e : Engine wCfg wLen) (p : Path) : (e.runPath p).k = e.k := rfl
@[simp] theorem Engine.runPath_ft (e : Engine wCfg wLen) (p : Path) : (e.runPath p).ft = e.ft := rfl
@[simp] theorem Engine.runPath_err (e : Engine wCfg wLen) (p : Path) : (e.runPath p).err = e.err := rfl
@[simp] theorem Engine.runPath_outLen (e : Engine wCfg wLen) (p : Path) : (e.runPath p).outLen = e.outLen := rfl
@[simp] theorem Engine.runPath_prev (e : Engine wCfg wLen) (p : Path) : (e.runPath p).prev = e.prev := rfl
@[simp] theorem Engine.runPath_cur (e : Engine wCfg wLen) (p : Path) : (e.runPath p).cur = e.cur := rfl
@[simp] theorem Engine.runPath_inMem (e : Engine wCfg wLen) (p : Path) : (e.runPath p).inMem = e.inMem := rfl
@[simp] theorem Engine.runPath_outMem (e : Engine wCfg wLen) (p : Path) : (e.runPath p).outMem = e.outMem := rfl

/-! ## `Engine.clearPrev` (20_memory.md R41) -/

@[simp] theorem Engine.clearPrev_pred (e : Engine wCfg wLen) (n : Nat) : (e.clearPrev n).pred = e.pred := rfl
@[simp] theorem Engine.clearPrev_colors (e : Engine wCfg wLen) (n : Nat) : (e.clearPrev n).colors = e.colors := rfl
@[simp] theorem Engine.clearPrev_bpc (e : Engine wCfg wLen) (n : Nat) : (e.clearPrev n).bpc = e.bpc := rfl
@[simp] theorem Engine.clearPrev_columns (e : Engine wCfg wLen) (n : Nat) : (e.clearPrev n).columns = e.columns := rfl
@[simp] theorem Engine.clearPrev_len (e : Engine wCfg wLen) (n : Nat) : (e.clearPrev n).len = e.len := rfl
@[simp] theorem Engine.clearPrev_bpp (e : Engine wCfg wLen) (n : Nat) : (e.clearPrev n).bpp = e.bpp := rfl
@[simp] theorem Engine.clearPrev_stride (e : Engine wCfg wLen) (n : Nat) : (e.clearPrev n).stride = e.stride := rfl
@[simp] theorem Engine.clearPrev_rowsize (e : Engine wCfg wLen) (n : Nat) : (e.clearPrev n).rowsize = e.rowsize := rfl
@[simp] theorem Engine.clearPrev_nrows (e : Engine wCfg wLen) (n : Nat) : (e.clearPrev n).nrows = e.nrows := rfl
@[simp] theorem Engine.clearPrev_phase (e : Engine wCfg wLen) (n : Nat) : (e.clearPrev n).phase = e.phase := rfl
@[simp] theorem Engine.clearPrev_path (e : Engine wCfg wLen) (n : Nat) : (e.clearPrev n).path = e.path := rfl
@[simp] theorem Engine.clearPrev_stage (e : Engine wCfg wLen) (n : Nat) : (e.clearPrev n).stage = e.stage := rfl
@[simp] theorem Engine.clearPrev_i (e : Engine wCfg wLen) (n : Nat) : (e.clearPrev n).i = e.i := rfl
@[simp] theorem Engine.clearPrev_j (e : Engine wCfg wLen) (n : Nat) : (e.clearPrev n).j = e.j := rfl
@[simp] theorem Engine.clearPrev_k (e : Engine wCfg wLen) (n : Nat) : (e.clearPrev n).k = e.k := rfl
@[simp] theorem Engine.clearPrev_ft (e : Engine wCfg wLen) (n : Nat) : (e.clearPrev n).ft = e.ft := rfl
@[simp] theorem Engine.clearPrev_err (e : Engine wCfg wLen) (n : Nat) : (e.clearPrev n).err = e.err := rfl
@[simp] theorem Engine.clearPrev_outLen (e : Engine wCfg wLen) (n : Nat) : (e.clearPrev n).outLen = e.outLen := rfl
@[simp] theorem Engine.clearPrev_prev (e : Engine wCfg wLen) (n : Nat) : (e.clearPrev n).prev = e.prev.clearBelow n := rfl
@[simp] theorem Engine.clearPrev_cur (e : Engine wCfg wLen) (n : Nat) : (e.clearPrev n).cur = e.cur := rfl
@[simp] theorem Engine.clearPrev_inMem (e : Engine wCfg wLen) (n : Nat) : (e.clearPrev n).inMem = e.inMem := rfl
@[simp] theorem Engine.clearPrev_outMem (e : Engine wCfg wLen) (n : Nat) : (e.clearPrev n).outMem = e.outMem := rfl

/-! ## `Engine.copyByte` (41_dispatch_identity.md R84) -/

@[simp] theorem Engine.copyByte_pred (e : Engine wCfg wLen) (v : Byte) : (e.copyByte v).pred = e.pred := rfl
@[simp] theorem Engine.copyByte_colors (e : Engine wCfg wLen) (v : Byte) : (e.copyByte v).colors = e.colors := rfl
@[simp] theorem Engine.copyByte_bpc (e : Engine wCfg wLen) (v : Byte) : (e.copyByte v).bpc = e.bpc := rfl
@[simp] theorem Engine.copyByte_columns (e : Engine wCfg wLen) (v : Byte) : (e.copyByte v).columns = e.columns := rfl
@[simp] theorem Engine.copyByte_len (e : Engine wCfg wLen) (v : Byte) : (e.copyByte v).len = e.len := rfl
@[simp] theorem Engine.copyByte_bpp (e : Engine wCfg wLen) (v : Byte) : (e.copyByte v).bpp = e.bpp := rfl
@[simp] theorem Engine.copyByte_stride (e : Engine wCfg wLen) (v : Byte) : (e.copyByte v).stride = e.stride := rfl
@[simp] theorem Engine.copyByte_rowsize (e : Engine wCfg wLen) (v : Byte) : (e.copyByte v).rowsize = e.rowsize := rfl
@[simp] theorem Engine.copyByte_nrows (e : Engine wCfg wLen) (v : Byte) : (e.copyByte v).nrows = e.nrows := rfl
@[simp] theorem Engine.copyByte_phase (e : Engine wCfg wLen) (v : Byte) : (e.copyByte v).phase = e.phase := rfl
@[simp] theorem Engine.copyByte_path (e : Engine wCfg wLen) (v : Byte) : (e.copyByte v).path = e.path := rfl
@[simp] theorem Engine.copyByte_stage (e : Engine wCfg wLen) (v : Byte) : (e.copyByte v).stage = e.stage := rfl
@[simp] theorem Engine.copyByte_i (e : Engine wCfg wLen) (v : Byte) : (e.copyByte v).i = e.i := rfl
@[simp] theorem Engine.copyByte_j (e : Engine wCfg wLen) (v : Byte) : (e.copyByte v).j = e.j := rfl
@[simp] theorem Engine.copyByte_k (e : Engine wCfg wLen) (v : Byte) : (e.copyByte v).k = e.k + 1 := rfl
@[simp] theorem Engine.copyByte_ft (e : Engine wCfg wLen) (v : Byte) : (e.copyByte v).ft = e.ft := rfl
@[simp] theorem Engine.copyByte_err (e : Engine wCfg wLen) (v : Byte) : (e.copyByte v).err = e.err := rfl
@[simp] theorem Engine.copyByte_outLen (e : Engine wCfg wLen) (v : Byte) : (e.copyByte v).outLen = e.outLen + 1 := rfl
@[simp] theorem Engine.copyByte_prev (e : Engine wCfg wLen) (v : Byte) : (e.copyByte v).prev = e.prev := rfl
@[simp] theorem Engine.copyByte_cur (e : Engine wCfg wLen) (v : Byte) : (e.copyByte v).cur = e.cur := rfl
@[simp] theorem Engine.copyByte_inMem (e : Engine wCfg wLen) (v : Byte) : (e.copyByte v).inMem = e.inMem := rfl
@[simp] theorem Engine.copyByte_outMem (e : Engine wCfg wLen) (v : Byte) : (e.copyByte v).outMem = e.outMem.write e.k.toNat v := rfl

/-! ## `Engine.finish` (42_tiff.md R96, 43_png.md R106) -/

@[simp] theorem Engine.finish_pred (e : Engine wCfg wLen) : e.finish.pred = e.pred := rfl
@[simp] theorem Engine.finish_colors (e : Engine wCfg wLen) : e.finish.colors = e.colors := rfl
@[simp] theorem Engine.finish_bpc (e : Engine wCfg wLen) : e.finish.bpc = e.bpc := rfl
@[simp] theorem Engine.finish_columns (e : Engine wCfg wLen) : e.finish.columns = e.columns := rfl
@[simp] theorem Engine.finish_len (e : Engine wCfg wLen) : e.finish.len = e.len := rfl
@[simp] theorem Engine.finish_bpp (e : Engine wCfg wLen) : e.finish.bpp = e.bpp := rfl
@[simp] theorem Engine.finish_stride (e : Engine wCfg wLen) : e.finish.stride = e.stride := rfl
@[simp] theorem Engine.finish_rowsize (e : Engine wCfg wLen) : e.finish.rowsize = e.rowsize := rfl
@[simp] theorem Engine.finish_nrows (e : Engine wCfg wLen) : e.finish.nrows = e.nrows := rfl
@[simp] theorem Engine.finish_phase (e : Engine wCfg wLen) : e.finish.phase = .done := rfl
@[simp] theorem Engine.finish_path (e : Engine wCfg wLen) : e.finish.path = e.path := rfl
@[simp] theorem Engine.finish_stage (e : Engine wCfg wLen) : e.finish.stage = e.stage := rfl
@[simp] theorem Engine.finish_i (e : Engine wCfg wLen) : e.finish.i = e.i := rfl
@[simp] theorem Engine.finish_j (e : Engine wCfg wLen) : e.finish.j = e.j := rfl
@[simp] theorem Engine.finish_k (e : Engine wCfg wLen) : e.finish.k = e.k := rfl
@[simp] theorem Engine.finish_ft (e : Engine wCfg wLen) : e.finish.ft = e.ft := rfl
@[simp] theorem Engine.finish_err (e : Engine wCfg wLen) : e.finish.err = e.err := rfl
@[simp] theorem Engine.finish_outLen (e : Engine wCfg wLen) : e.finish.outLen = e.outLen := rfl
@[simp] theorem Engine.finish_prev (e : Engine wCfg wLen) : e.finish.prev = e.prev := rfl
@[simp] theorem Engine.finish_cur (e : Engine wCfg wLen) : e.finish.cur = e.cur := rfl
@[simp] theorem Engine.finish_inMem (e : Engine wCfg wLen) : e.finish.inMem = e.inMem := rfl
@[simp] theorem Engine.finish_outMem (e : Engine wCfg wLen) : e.finish.outMem = e.outMem := rfl

/-! ## `Engine.beginRow` (42_tiff.md R96, 43_png.md R106) -/

@[simp] theorem Engine.beginRow_pred (e : Engine wCfg wLen) : e.beginRow.pred = e.pred := rfl
@[simp] theorem Engine.beginRow_colors (e : Engine wCfg wLen) : e.beginRow.colors = e.colors := rfl
@[simp] theorem Engine.beginRow_bpc (e : Engine wCfg wLen) : e.beginRow.bpc = e.bpc := rfl
@[simp] theorem Engine.beginRow_columns (e : Engine wCfg wLen) : e.beginRow.columns = e.columns := rfl
@[simp] theorem Engine.beginRow_len (e : Engine wCfg wLen) : e.beginRow.len = e.len := rfl
@[simp] theorem Engine.beginRow_bpp (e : Engine wCfg wLen) : e.beginRow.bpp = e.bpp := rfl
@[simp] theorem Engine.beginRow_stride (e : Engine wCfg wLen) : e.beginRow.stride = e.stride := rfl
@[simp] theorem Engine.beginRow_rowsize (e : Engine wCfg wLen) : e.beginRow.rowsize = e.rowsize := rfl
@[simp] theorem Engine.beginRow_nrows (e : Engine wCfg wLen) : e.beginRow.nrows = e.nrows := rfl
@[simp] theorem Engine.beginRow_phase (e : Engine wCfg wLen) : e.beginRow.phase = e.phase := rfl
@[simp] theorem Engine.beginRow_path (e : Engine wCfg wLen) : e.beginRow.path = e.path := rfl
@[simp] theorem Engine.beginRow_stage (e : Engine wCfg wLen) : e.beginRow.stage = .column := rfl
@[simp] theorem Engine.beginRow_i (e : Engine wCfg wLen) : e.beginRow.i = e.i := rfl
@[simp] theorem Engine.beginRow_j (e : Engine wCfg wLen) : e.beginRow.j = 0 := rfl
@[simp] theorem Engine.beginRow_k (e : Engine wCfg wLen) : e.beginRow.k = e.k := rfl
@[simp] theorem Engine.beginRow_ft (e : Engine wCfg wLen) : e.beginRow.ft = e.ft := rfl
@[simp] theorem Engine.beginRow_err (e : Engine wCfg wLen) : e.beginRow.err = e.err := rfl
@[simp] theorem Engine.beginRow_outLen (e : Engine wCfg wLen) : e.beginRow.outLen = e.outLen := rfl
@[simp] theorem Engine.beginRow_prev (e : Engine wCfg wLen) : e.beginRow.prev = e.prev := rfl
@[simp] theorem Engine.beginRow_cur (e : Engine wCfg wLen) : e.beginRow.cur = e.cur := rfl
@[simp] theorem Engine.beginRow_inMem (e : Engine wCfg wLen) : e.beginRow.inMem = e.inMem := rfl
@[simp] theorem Engine.beginRow_outMem (e : Engine wCfg wLen) : e.beginRow.outMem = e.outMem := rfl

/-! ## `Engine.setFilter` (43_png.md R106) -/

@[simp] theorem Engine.setFilter_pred (e : Engine wCfg wLen) (t : Byte) : (e.setFilter t).pred = e.pred := rfl
@[simp] theorem Engine.setFilter_colors (e : Engine wCfg wLen) (t : Byte) : (e.setFilter t).colors = e.colors := rfl
@[simp] theorem Engine.setFilter_bpc (e : Engine wCfg wLen) (t : Byte) : (e.setFilter t).bpc = e.bpc := rfl
@[simp] theorem Engine.setFilter_columns (e : Engine wCfg wLen) (t : Byte) : (e.setFilter t).columns = e.columns := rfl
@[simp] theorem Engine.setFilter_len (e : Engine wCfg wLen) (t : Byte) : (e.setFilter t).len = e.len := rfl
@[simp] theorem Engine.setFilter_bpp (e : Engine wCfg wLen) (t : Byte) : (e.setFilter t).bpp = e.bpp := rfl
@[simp] theorem Engine.setFilter_stride (e : Engine wCfg wLen) (t : Byte) : (e.setFilter t).stride = e.stride := rfl
@[simp] theorem Engine.setFilter_rowsize (e : Engine wCfg wLen) (t : Byte) : (e.setFilter t).rowsize = e.rowsize := rfl
@[simp] theorem Engine.setFilter_nrows (e : Engine wCfg wLen) (t : Byte) : (e.setFilter t).nrows = e.nrows := rfl
@[simp] theorem Engine.setFilter_phase (e : Engine wCfg wLen) (t : Byte) : (e.setFilter t).phase = e.phase := rfl
@[simp] theorem Engine.setFilter_path (e : Engine wCfg wLen) (t : Byte) : (e.setFilter t).path = e.path := rfl
@[simp] theorem Engine.setFilter_stage (e : Engine wCfg wLen) (t : Byte) : (e.setFilter t).stage = e.stage := rfl
@[simp] theorem Engine.setFilter_i (e : Engine wCfg wLen) (t : Byte) : (e.setFilter t).i = e.i := rfl
@[simp] theorem Engine.setFilter_j (e : Engine wCfg wLen) (t : Byte) : (e.setFilter t).j = e.j := rfl
@[simp] theorem Engine.setFilter_k (e : Engine wCfg wLen) (t : Byte) : (e.setFilter t).k = e.k := rfl
@[simp] theorem Engine.setFilter_ft (e : Engine wCfg wLen) (t : Byte) : (e.setFilter t).ft = t := rfl
@[simp] theorem Engine.setFilter_err (e : Engine wCfg wLen) (t : Byte) : (e.setFilter t).err = e.err := rfl
@[simp] theorem Engine.setFilter_outLen (e : Engine wCfg wLen) (t : Byte) : (e.setFilter t).outLen = e.outLen := rfl
@[simp] theorem Engine.setFilter_prev (e : Engine wCfg wLen) (t : Byte) : (e.setFilter t).prev = e.prev := rfl
@[simp] theorem Engine.setFilter_cur (e : Engine wCfg wLen) (t : Byte) : (e.setFilter t).cur = e.cur := rfl
@[simp] theorem Engine.setFilter_inMem (e : Engine wCfg wLen) (t : Byte) : (e.setFilter t).inMem = e.inMem := rfl
@[simp] theorem Engine.setFilter_outMem (e : Engine wCfg wLen) (t : Byte) : (e.setFilter t).outMem = e.outMem := rfl

/-! ## `Engine.putColumn` (42_tiff.md R97, 43_png.md R108) -/

@[simp] theorem Engine.putColumn_pred (e : Engine wCfg wLen) (v : Byte) : (e.putColumn v).pred = e.pred := rfl
@[simp] theorem Engine.putColumn_colors (e : Engine wCfg wLen) (v : Byte) : (e.putColumn v).colors = e.colors := rfl
@[simp] theorem Engine.putColumn_bpc (e : Engine wCfg wLen) (v : Byte) : (e.putColumn v).bpc = e.bpc := rfl
@[simp] theorem Engine.putColumn_columns (e : Engine wCfg wLen) (v : Byte) : (e.putColumn v).columns = e.columns := rfl
@[simp] theorem Engine.putColumn_len (e : Engine wCfg wLen) (v : Byte) : (e.putColumn v).len = e.len := rfl
@[simp] theorem Engine.putColumn_bpp (e : Engine wCfg wLen) (v : Byte) : (e.putColumn v).bpp = e.bpp := rfl
@[simp] theorem Engine.putColumn_stride (e : Engine wCfg wLen) (v : Byte) : (e.putColumn v).stride = e.stride := rfl
@[simp] theorem Engine.putColumn_rowsize (e : Engine wCfg wLen) (v : Byte) : (e.putColumn v).rowsize = e.rowsize := rfl
@[simp] theorem Engine.putColumn_nrows (e : Engine wCfg wLen) (v : Byte) : (e.putColumn v).nrows = e.nrows := rfl
@[simp] theorem Engine.putColumn_phase (e : Engine wCfg wLen) (v : Byte) : (e.putColumn v).phase = e.phase := rfl
@[simp] theorem Engine.putColumn_path (e : Engine wCfg wLen) (v : Byte) : (e.putColumn v).path = e.path := rfl
@[simp] theorem Engine.putColumn_stage (e : Engine wCfg wLen) (v : Byte) : (e.putColumn v).stage = if e.j.toNat + 1 = e.stride.toNat then .commit else e.stage := rfl
@[simp] theorem Engine.putColumn_i (e : Engine wCfg wLen) (v : Byte) : (e.putColumn v).i = e.i := rfl
@[simp] theorem Engine.putColumn_j (e : Engine wCfg wLen) (v : Byte) : (e.putColumn v).j = e.j + 1 := rfl
@[simp] theorem Engine.putColumn_k (e : Engine wCfg wLen) (v : Byte) : (e.putColumn v).k = e.k := rfl
@[simp] theorem Engine.putColumn_ft (e : Engine wCfg wLen) (v : Byte) : (e.putColumn v).ft = e.ft := rfl
@[simp] theorem Engine.putColumn_err (e : Engine wCfg wLen) (v : Byte) : (e.putColumn v).err = e.err := rfl
@[simp] theorem Engine.putColumn_outLen (e : Engine wCfg wLen) (v : Byte) : (e.putColumn v).outLen = e.outLen := rfl
@[simp] theorem Engine.putColumn_prev (e : Engine wCfg wLen) (v : Byte) : (e.putColumn v).prev = e.prev := rfl
@[simp] theorem Engine.putColumn_cur (e : Engine wCfg wLen) (v : Byte) : (e.putColumn v).cur = e.cur.write e.j.toNat v := rfl
@[simp] theorem Engine.putColumn_inMem (e : Engine wCfg wLen) (v : Byte) : (e.putColumn v).inMem = e.inMem := rfl
@[simp] theorem Engine.putColumn_outMem (e : Engine wCfg wLen) (v : Byte) : (e.putColumn v).outMem = e.outMem := rfl

/-! ## `Engine.appendRow` (42_tiff.md R99, 43_png.md R120) -/

@[simp] theorem Engine.appendRow_pred (e : Engine wCfg wLen) : e.appendRow.pred = e.pred := rfl
@[simp] theorem Engine.appendRow_colors (e : Engine wCfg wLen) : e.appendRow.colors = e.colors := rfl
@[simp] theorem Engine.appendRow_bpc (e : Engine wCfg wLen) : e.appendRow.bpc = e.bpc := rfl
@[simp] theorem Engine.appendRow_columns (e : Engine wCfg wLen) : e.appendRow.columns = e.columns := rfl
@[simp] theorem Engine.appendRow_len (e : Engine wCfg wLen) : e.appendRow.len = e.len := rfl
@[simp] theorem Engine.appendRow_bpp (e : Engine wCfg wLen) : e.appendRow.bpp = e.bpp := rfl
@[simp] theorem Engine.appendRow_stride (e : Engine wCfg wLen) : e.appendRow.stride = e.stride := rfl
@[simp] theorem Engine.appendRow_rowsize (e : Engine wCfg wLen) : e.appendRow.rowsize = e.rowsize := rfl
@[simp] theorem Engine.appendRow_nrows (e : Engine wCfg wLen) : e.appendRow.nrows = e.nrows := rfl
@[simp] theorem Engine.appendRow_phase (e : Engine wCfg wLen) : e.appendRow.phase = e.phase := rfl
@[simp] theorem Engine.appendRow_path (e : Engine wCfg wLen) : e.appendRow.path = e.path := rfl
@[simp] theorem Engine.appendRow_stage (e : Engine wCfg wLen) : e.appendRow.stage = .rowstart := rfl
@[simp] theorem Engine.appendRow_i (e : Engine wCfg wLen) : e.appendRow.i = e.i + 1 := rfl
@[simp] theorem Engine.appendRow_j (e : Engine wCfg wLen) : e.appendRow.j = e.j := rfl
@[simp] theorem Engine.appendRow_k (e : Engine wCfg wLen) : e.appendRow.k = e.k := rfl
@[simp] theorem Engine.appendRow_ft (e : Engine wCfg wLen) : e.appendRow.ft = e.ft := rfl
@[simp] theorem Engine.appendRow_err (e : Engine wCfg wLen) : e.appendRow.err = e.err := rfl
@[simp] theorem Engine.appendRow_outLen (e : Engine wCfg wLen) : e.appendRow.outLen = e.outLen + e.stride := rfl
@[simp] theorem Engine.appendRow_prev (e : Engine wCfg wLen) : e.appendRow.prev = e.prev := rfl
@[simp] theorem Engine.appendRow_cur (e : Engine wCfg wLen) : e.appendRow.cur = e.cur := rfl
@[simp] theorem Engine.appendRow_inMem (e : Engine wCfg wLen) : e.appendRow.inMem = e.inMem := rfl
@[simp] theorem Engine.appendRow_outMem (e : Engine wCfg wLen) : e.appendRow.outMem = e.outMem.copyRow e.outLen.toNat e.cur e.stride.toNat := rfl

/-! ## `Engine.keepRow` (43_png.md R120) -/

@[simp] theorem Engine.keepRow_pred (e : Engine wCfg wLen) : e.keepRow.pred = e.pred := rfl
@[simp] theorem Engine.keepRow_colors (e : Engine wCfg wLen) : e.keepRow.colors = e.colors := rfl
@[simp] theorem Engine.keepRow_bpc (e : Engine wCfg wLen) : e.keepRow.bpc = e.bpc := rfl
@[simp] theorem Engine.keepRow_columns (e : Engine wCfg wLen) : e.keepRow.columns = e.columns := rfl
@[simp] theorem Engine.keepRow_len (e : Engine wCfg wLen) : e.keepRow.len = e.len := rfl
@[simp] theorem Engine.keepRow_bpp (e : Engine wCfg wLen) : e.keepRow.bpp = e.bpp := rfl
@[simp] theorem Engine.keepRow_stride (e : Engine wCfg wLen) : e.keepRow.stride = e.stride := rfl
@[simp] theorem Engine.keepRow_rowsize (e : Engine wCfg wLen) : e.keepRow.rowsize = e.rowsize := rfl
@[simp] theorem Engine.keepRow_nrows (e : Engine wCfg wLen) : e.keepRow.nrows = e.nrows := rfl
@[simp] theorem Engine.keepRow_phase (e : Engine wCfg wLen) : e.keepRow.phase = e.phase := rfl
@[simp] theorem Engine.keepRow_path (e : Engine wCfg wLen) : e.keepRow.path = e.path := rfl
@[simp] theorem Engine.keepRow_stage (e : Engine wCfg wLen) : e.keepRow.stage = e.stage := rfl
@[simp] theorem Engine.keepRow_i (e : Engine wCfg wLen) : e.keepRow.i = e.i := rfl
@[simp] theorem Engine.keepRow_j (e : Engine wCfg wLen) : e.keepRow.j = e.j := rfl
@[simp] theorem Engine.keepRow_k (e : Engine wCfg wLen) : e.keepRow.k = e.k := rfl
@[simp] theorem Engine.keepRow_ft (e : Engine wCfg wLen) : e.keepRow.ft = e.ft := rfl
@[simp] theorem Engine.keepRow_err (e : Engine wCfg wLen) : e.keepRow.err = e.err := rfl
@[simp] theorem Engine.keepRow_outLen (e : Engine wCfg wLen) : e.keepRow.outLen = e.outLen := rfl
@[simp] theorem Engine.keepRow_prev (e : Engine wCfg wLen) : e.keepRow.prev = e.prev.copyRow 0 e.cur e.stride.toNat := rfl
@[simp] theorem Engine.keepRow_cur (e : Engine wCfg wLen) : e.keepRow.cur = e.cur := rfl
@[simp] theorem Engine.keepRow_inMem (e : Engine wCfg wLen) : e.keepRow.inMem = e.inMem := rfl
@[simp] theorem Engine.keepRow_outMem (e : Engine wCfg wLen) : e.keepRow.outMem = e.outMem := rfl

/-! ## `State.withEngine` (the engine of a state) -/

@[simp] theorem State.withEngine_toEngine (s : State) (e : Engine 32 32) : (s.withEngine e).toEngine = e := rfl
@[simp] theorem State.withEngine_start (s : State) (e : Engine 32 32) : (s.withEngine e).start = s.start := rfl
@[simp] theorem State.withEngine_params (s : State) (e : Engine 32 32) : (s.withEngine e).params = s.params := rfl

/-! ## `State.takeStart` (log entry 6) -/

@[simp] theorem State.takeStart_toEngine (s : State) : s.takeStart.toEngine = s.toEngine := rfl
@[simp] theorem State.takeStart_start (s : State) : s.takeStart.start = none := rfl
@[simp] theorem State.takeStart_params (s : State) : s.takeStart.params = s.params := rfl

end Sys2Proof.Machine
end

