-- ==== Sys2Proof/Laws/Ops.lean ====
section
/-! SUPPORT. One lemma for each shared operation that says once what it can do when it answers a next state; later proofs
cite these instead of unfolding the operation. -/

namespace Sys2Proof.Machine

variable {wCfg wLen : Nat} {p : Params} {e u : Engine wCfg wLen}

/-- A guarded step answers a next state exactly when its guard holds. -/
theorem guarded_eq_next {σ : Type} {q : Prop} [Decidable q] {a y : σ} {other : Host.Outcome σ Fault Refusal}
    (h : other ≠ .next y) : (if q then Host.Outcome.next a else other) = .next y ↔ q ∧ y = a := by
  by_cases hp : q
  · rw [if_pos hp]
    exact ⟨fun he => ⟨hp, (Host.Outcome.next.inj he).symm⟩, fun he => he.2 ▸ rfl⟩
  · rw [if_neg hp]
    exact ⟨fun he => absurd he h, fun he => absurd he.1 hp⟩

theorem orFault_eq_next {α σ : Type} {r : Except Fault α} {go : α → Host.Outcome σ Fault Refusal} {y : σ} :
    orFault r go = .next y ↔ ∃ x, r = .ok x ∧ go x = .next y := by
  cases r <;> simp [orFault]

theorem readIn_eq_ok {addr : Nat} {v : Byte} :
    e.readIn addr = .ok v ↔ addr < e.len.toNat ∧ e.inMem.read addr = v := by
  simp only [Engine.readIn]
  split <;> simp_all

/-- The capacity of OUT is below the bound of OUT_LEN. -/
theorem outCapacity_lt (p : Params) (wLen : Nat) : outCapacity p wLen < 2 ^ wLen := by
  have : 0 < 2 ^ wLen := Nat.two_pow_pos wLen
  simp only [outCapacity]
  split <;> omega

/-- `n` bytes that OUT_LEN can count and MAX_OUT allows fit OUT. -/
theorem le_outCapacity {p : Params} {n : Nat} (hn : n < 2 ^ wLen) (hf : fits p.maxOut n = true) : n ≤ outCapacity p wLen := by
  cases hm : p.maxOut with
  | none => simp only [outCapacity, hm]; omega
  | some m =>
    simp only [fits, hm, decide_eq_true_eq] at hf
    simp only [outCapacity, hm]
    omega

theorem byteAt_of_neg {buf : Memory} {k : Int} (h : k < 0) : byteAt buf k = 0 := if_pos h

theorem byteAt_of_nonneg {buf : Memory} {k : Int} (h : 0 ≤ k) : byteAt buf k = buf.read k.toNat :=
  if_neg (Int.not_lt.2 h)

/-! ## Placing the input -/

/-- Placing the input answers a next state exactly outside RUN, and changes IN alone. -/
theorem Engine.place_eq_next {bytes : List Byte} :
    e.place bytes = .next u ↔ e.phase ≠ .run ∧ u = { e with inMem := e.inMem.writeList 0 bytes } := by
  by_cases hr : e.phase = .run <;> simp [Engine.place, hr, eq_comm]

theorem Engine.place_of_run (hr : e.phase = .run) (bytes : List Byte) : e.place bytes = .refused .inputOwnedByEngine :=
  if_pos hr

/-! ## START -/

theorem startIdentity_eq_next {c : CfgOf wCfg wLen} :
    startIdentity p c e = .next u ↔
      admittedIdentity c.ops p = true ∧ u = (e.beginStart c).runPath .id := by
  exact guarded_eq_next (by simp)

theorem startTiff_eq_next {c : CfgOf wCfg wLen} :
    startTiff p c e = .next u ↔
      (c.ops.bpc.toNat = 8 ∧ admitted .tiff c.ops p = true
        ∧ u = ((e.beginStart c).setGeometry (geometry .tiff c.ops)).runPath .tiff)
      ∨ (c.ops.bpc.toNat ≠ 8 ∧ u = (e.beginStart c).raise .unsupportedBitDepth) := by
  rw [startTiff]
  by_cases h : c.ops.bpc.toNat = 8
  · rw [if_pos h, guarded_eq_next (by simp)]
    simp [h]
  · rw [if_neg h]
    simp only [h, false_and, false_or, ne_eq, not_false_eq_true, true_and]
    exact ⟨fun he => (Host.Outcome.next.inj he).symm, fun he => he ▸ rfl⟩

theorem startPng_eq_next {c : CfgOf wCfg wLen} :
    startPng p c e = .next u ↔
      admitted .png c.ops p = true
      ∧ u = (((e.beginStart c).setGeometry (geometry .png c.ops)).clearPrev (geometry .png c.ops).stride).runPath .png := by
  exact guarded_eq_next (by simp)

theorem startOrContinue_of_not_run {mine : Bool} {start go : Engine wCfg wLen → EngineResult wCfg wLen} (h : e.phase ≠ .run) :
    startOrContinue mine start go e = start e := by
  cases hp : e.phase <;> simp_all [startOrContinue]

theorem startOrContinue_of_run {mine : Bool} {start go : Engine wCfg wLen → EngineResult wCfg wLen} (h : e.phase = .run) :
    startOrContinue mine start go e = if mine then go e else .refused .startWhileRunning := by
  simp [startOrContinue, h]

/-- A level-1 instruction that answers a next state has performed START, or was in progress and went on. -/
theorem startOrContinue_eq_next {mine : Bool} {start go : Engine wCfg wLen → EngineResult wCfg wLen} :
    startOrContinue mine start go e = .next u ↔
      (e.phase ≠ .run ∧ start e = .next u) ∨ (e.phase = .run ∧ mine = true ∧ go e = .next u) := by
  by_cases h : e.phase = .run
  · rw [startOrContinue_of_run h]
    cases mine <;> simp [h]
  · rw [startOrContinue_of_not_run h]
    simp [h]

/-! ## The steps of the three paths -/

theorem identityStep_eq_next :
    identityStep p e = .next u ↔
      (e.k = e.len ∧ u = { e with phase := .done })
      ∨ (e.k ≠ e.len ∧ e.k.toNat < e.len.toNat ∧ e.k.toNat < outCapacity p wLen
        ∧ u = e.copyByte (e.inMem.read e.k.toNat)) := by
  rw [identityStep]
  by_cases hkl : e.k = e.len
  · rw [if_pos hkl]
    simp only [hkl, true_and, ne_eq, not_true_eq_false, false_and, or_false]
    exact ⟨fun he => (Host.Outcome.next.inj he).symm, fun he => he ▸ rfl⟩
  · rw [if_neg hkl]
    simp only [orFault_eq_next, readIn_eq_ok, guarded_eq_next (by simp : Host.Outcome.fault Fault.outOutOfRange ≠ .next u)]
    constructor
    · rintro ⟨v, ⟨hk, rfl⟩, hc, rfl⟩
      exact .inr ⟨hkl, hk, hc, rfl⟩
    · rintro (⟨h, _⟩ | ⟨_, hk, hc, rfl⟩)
      · exact absurd h hkl
      · exact ⟨_, ⟨hk, rfl⟩, hc, rfl⟩

theorem columnStep_eq_next {v : Byte} :
    columnStep v e = .next u ↔ e.j.toNat < e.stride.toNat ∧ u = e.putColumn v := by
  exact guarded_eq_next (by simp)

theorem commitTiff_eq_next : commitTiff p e = .next u ↔ e.rowFits p = true ∧ u = e.appendRow := by
  exact guarded_eq_next (by simp)

theorem commitPng_eq_next : commitPng p e = .next u ↔ e.rowFits p = true ∧ u = e.appendRow.keepRow := by
  exact guarded_eq_next (by simp)

/-- The three steps of a TIFF row and the end of the row loop. -/
theorem tiffStep_eq_next :
    tiffStep p e = .next u ↔
      (e.stage = .rowstart ∧ e.i = e.nrows ∧ u = e.finish)
      ∨ (e.stage = .rowstart ∧ e.i ≠ e.nrows ∧ u = e.beginRow)
      ∨ (e.stage = .column ∧ e.tiffAddr < e.len.toNat ∧ e.j.toNat < e.stride.toNat
        ∧ u = e.putColumn (reconstruct (e.inMem.read e.tiffAddr) e.left))
      ∨ (e.stage = .commit ∧ e.rowFits p = true ∧ u = e.appendRow) := by
  cases hs : e.stage
  · simp only [tiffStep, hs, true_and, reduceCtorEq, false_and, or_false]
    by_cases hi : e.i = e.nrows
    · simp only [hi, if_true, true_and, ne_eq, not_true_eq_false, false_and, or_false]
      exact ⟨fun he => (Host.Outcome.next.inj he).symm, fun he => he ▸ rfl⟩
    · simp only [hi, if_false, false_and, false_or, ne_eq, not_false_eq_true, true_and]
      exact ⟨fun he => (Host.Outcome.next.inj he).symm, fun he => he ▸ rfl⟩
  · simp only [tiffStep, hs, tiffColumn, Engine.tiffX, orFault_eq_next, readIn_eq_ok, columnStep_eq_next, true_and,
      reduceCtorEq, false_and, or_false, false_or]
    constructor
    · rintro ⟨x, ⟨h1, rfl⟩, h2, rfl⟩
      exact ⟨h1, h2, rfl⟩
    · rintro ⟨h1, h2, rfl⟩
      exact ⟨_, ⟨h1, rfl⟩, h2, rfl⟩
  · simp [tiffStep, hs, commitTiff_eq_next]

/-- The three steps of a row operation of the PNG path. -/
theorem rowOperation_eq_next {ft : Byte} {predicted : Engine wCfg wLen → Byte} :
    rowOperation ft predicted p e = .next u ↔
      e.phase = .run ∧ e.path = .png ∧
      ((e.stage = .rowstart ∧ e.i ≠ e.nrows ∧ u = (e.setFilter ft).beginRow)
      ∨ (e.stage = .column ∧ e.pngAddr < e.len.toNat ∧ e.j.toNat < e.stride.toNat
        ∧ u = e.putColumn (reconstruct (e.inMem.read e.pngAddr) (predicted e)))
      ∨ (e.stage = .commit ∧ e.rowFits p = true ∧ u = e.appendRow.keepRow)) := by
  by_cases hp : e.phase = .run ∧ e.path = .png
  · rw [rowOperation, if_pos hp]
    cases hs : e.stage
    · simp only [hp.1, hp.2, true_and, reduceCtorEq, false_and, or_false]
      by_cases hi : e.i = e.nrows
      · simp [hi]
      · simp only [hi, if_false, ne_eq, not_false_eq_true, true_and]
        exact ⟨fun he => (Host.Outcome.next.inj he).symm, fun he => he ▸ rfl⟩
    · simp only [Engine.pngX, orFault_eq_next, readIn_eq_ok, columnStep_eq_next, hp.1, hp.2, true_and, reduceCtorEq,
        false_and, or_false, false_or]
      constructor
      · rintro ⟨x, ⟨h1, rfl⟩, h2, rfl⟩
        exact ⟨h1, h2, rfl⟩
      · rintro ⟨h1, h2, rfl⟩
        exact ⟨_, ⟨h1, rfl⟩, h2, rfl⟩
    · simp [commitPng_eq_next, hp]
  · rw [rowOperation, if_neg hp]
    constructor
    · intro h; cases h
    · rintro ⟨h1, h2, _⟩
      exact absurd ⟨h1, h2⟩ hp

theorem illegalFilter_eq_next {ft : Byte} :
    illegalFilter ft e = .next u ↔
      e.atPngRow = true ∧ u = (e.setFilter ft).raise .unsupportedFilterType := by
  exact guarded_eq_next (by simp)

theorem atPngRow_iff : e.atPngRow = true ↔
    e.phase = .run ∧ e.path = .png ∧ e.stage = .rowstart ∧ e.i ≠ e.nrows := by
  simp [Engine.atPngRow]

end Sys2Proof.Machine
end

