-- ==== Sys2Proof/Laws/Engine.lean ====
section
/-! SUPPORT. What START and a step of an engine have done, at every width and with any capacities. -/

namespace Sys2Proof.Machine

variable {wCfg wLen : Nat} {p : Params} {e u : Engine wCfg wLen}

/-! ## The five-way dispatch -/

/-- The value a row operation's COLUMN step adds, by filter type (43_png.md R108). -/
def predictedBy (ft : Byte) (e : Engine wCfg wLen) : Byte := predictedValue ft e.left e.above e.aboveLeft

/-- A legal filter type's operation. -/
theorem filterDispatch_of_legal {ft : Byte} (h : ft.toNat ≤ 4) (p : Params) (e : Engine wCfg wLen) :
    filterDispatch ft p e = rowOperation ft (predictedBy ft) p e := by
  have h5 : ft = 0 ∨ ft = 1 ∨ ft = 2 ∨ ft = 3 ∨ ft = 4 := by
    have : ∀ v : BitVec 8, v.toNat ≤ 4 → v = 0 ∨ v = 1 ∨ v = 2 ∨ v = 3 ∨ v = 4 := by decide
    exact this ft h
  rcases h5 with rfl | rfl | rfl | rfl | rfl <;> rfl

theorem filterDispatch_of_illegal {ft : Byte} (h : 4 < ft.toNat) (p : Params) (e : Engine wCfg wLen) :
    filterDispatch ft p e = illegalFilter ft e := by
  simp only [filterDispatch]
  rw [if_neg (by omega), if_neg (by omega), if_neg (by omega), if_neg (by omega), if_neg (by omega)]

/-- What a step of the PNG path that answers a next state has done. -/
theorem pngStep_cases (h : pngStep p e = .next u) :
    (e.stage = .rowstart ∧ e.i = e.nrows ∧ u = e.finish)
    ∨ (e.stage = .rowstart ∧ e.i ≠ e.nrows ∧ e.filterAddr < e.len.toNat
      ∧ (e.inMem.read e.filterAddr).toNat ≤ 4 ∧ u = (e.setFilter (e.inMem.read e.filterAddr)).beginRow)
    ∨ (e.stage = .rowstart ∧ e.i ≠ e.nrows ∧ e.filterAddr < e.len.toNat
      ∧ 4 < (e.inMem.read e.filterAddr).toNat
      ∧ u = (e.setFilter (e.inMem.read e.filterAddr)).raise .unsupportedFilterType)
    ∨ (e.stage = .column ∧ e.ft.toNat ≤ 4 ∧ e.pngAddr < e.len.toNat ∧ e.j.toNat < e.stride.toNat
      ∧ u = e.putColumn (reconstruct (e.inMem.read e.pngAddr) (predictedBy e.ft e)))
    ∨ (e.stage = .commit ∧ e.ft.toNat ≤ 4 ∧ e.rowFits p = true ∧ u = e.appendRow.keepRow) := by
  have hft : ∀ ft : Byte, e.stage ≠ .rowstart → filterDispatch ft p e = .next u → ft.toNat ≤ 4 := by
    intro ft hne hd
    by_contra hgt
    rw [filterDispatch_of_illegal (by omega), illegalFilter_eq_next, atPngRow_iff] at hd
    exact hne hd.1.2.2.1
  cases hs : e.stage
  · simp only [pngStep, hs] at h
    split at h
    next hi =>
      cases h
      exact .inl ⟨rfl, hi, rfl⟩
    next hi =>
      obtain ⟨ft, hft', hd⟩ := orFault_eq_next.1 h
      obtain ⟨ha, rfl⟩ := readIn_eq_ok.1 hft'
      by_cases hle : (e.inMem.read e.filterAddr).toNat ≤ 4
      · rw [filterDispatch_of_legal hle, rowOperation_eq_next] at hd
        obtain ⟨_, _, (⟨_, _, rfl⟩ | ⟨h', _⟩ | ⟨h', _⟩)⟩ := hd
        · exact .inr (.inl ⟨rfl, hi, ha, hle, rfl⟩)
        · rw [hs] at h'; cases h'
        · rw [hs] at h'; cases h'
      · rw [filterDispatch_of_illegal (by omega), illegalFilter_eq_next] at hd
        exact .inr (.inr (.inl ⟨rfl, hi, ha, by omega, hd.2⟩))
  · simp only [pngStep, hs] at h
    have hle := hft e.ft (by simp [hs]) h
    rw [filterDispatch_of_legal hle, rowOperation_eq_next] at h
    obtain ⟨_, _, (⟨h', _⟩ | ⟨_, h1, h2, rfl⟩ | ⟨h', _⟩)⟩ := h
    · rw [hs] at h'; cases h'
    · exact .inr (.inr (.inr (.inl ⟨rfl, hle, h1, h2, rfl⟩)))
    · rw [hs] at h'; cases h'
  · simp only [pngStep, hs] at h
    have hle := hft e.ft (by simp [hs]) h
    rw [filterDispatch_of_legal hle, rowOperation_eq_next] at h
    obtain ⟨_, _, (⟨h', _⟩ | ⟨h', _⟩ | ⟨_, h1, rfl⟩)⟩ := h
    · rw [hs] at h'; cases h'
    · rw [hs] at h'; cases h'
    · exact .inr (.inr (.inr (.inr ⟨rfl, hle, h1, rfl⟩)))

/-! ## What START and a step in progress have done -/

/-- What a START that answers a next state has done, by class of PRED (41_dispatch_identity.md R80, R81). -/
theorem engineStart_cases {c : CfgOf wCfg wLen} (h : engineStart p c e = .next u) :
    e.phase ≠ .run ∧
    ((c.pred.toNat = 1 ∧ admittedIdentity c.ops p = true ∧ u = (e.beginStart c).runPath .id)
    ∨ (c.pred.toNat = 2 ∧ c.ops.bpc.toNat = 8 ∧ admitted .tiff c.ops p = true
      ∧ u = ((e.beginStart c).setGeometry (geometry .tiff c.ops)).runPath .tiff)
    ∨ (c.pred.toNat = 2 ∧ c.ops.bpc.toNat ≠ 8 ∧ u = (e.beginStart c).raise .unsupportedBitDepth)
    ∨ (10 ≤ c.pred.toNat ∧ admitted .png c.ops p = true
      ∧ u = (((e.beginStart c).setGeometry (geometry .png c.ops)).clearPrev (geometry .png c.ops).stride).runPath .png)
    ∨ ((c.pred.toNat = 0 ∨ (3 ≤ c.pred.toNat ∧ c.pred.toNat ≤ 9))
      ∧ u = (e.beginStart c).raise .unsupportedPredictor)) := by
  simp only [engineStart] at h
  split_ifs at h with hr h1 h2 h3
  · exact ⟨hr, .inl ⟨h1, startIdentity_eq_next.1 h⟩⟩
  · rcases startTiff_eq_next.1 h with h | h
    · exact ⟨hr, .inr (.inl ⟨h2, h⟩)⟩
    · exact ⟨hr, .inr (.inr (.inl ⟨h2, h⟩))⟩
  · exact ⟨hr, .inr (.inr (.inr (.inl ⟨h3, startPng_eq_next.1 h⟩)))⟩
  · cases h
    exact ⟨hr, .inr (.inr (.inr (.inr ⟨by omega, rfl⟩)))⟩

/-- What no step in progress changes (10_state.md R11, R15, R18, R28). -/
structure Engine.Keeps (e u : Engine wCfg wLen) : Prop where
  config : e.SameConfig u
  geometry : e.SameGeometry u
  input : u.inMem = e.inMem
  path : u.path = e.path

theorem pathStep_keeps (h : pathStep p e = .next u) : e.Keeps u := by
  cases hp : e.path with
  | none => simp [pathStep, hp] at h
  | id =>
    simp only [pathStep, hp] at h
    obtain ⟨-, rfl⟩ | ⟨-, -, -, rfl⟩ := identityStep_eq_next.1 h <;>
      exact ⟨⟨rfl, rfl, rfl, rfl, rfl⟩, ⟨rfl, rfl, rfl, rfl⟩, rfl, rfl⟩
  | tiff =>
    simp only [pathStep, hp] at h
    obtain ⟨-, -, rfl⟩ | ⟨-, -, rfl⟩ | ⟨-, -, -, rfl⟩ | ⟨-, -, rfl⟩ := tiffStep_eq_next.1 h <;>
      exact ⟨⟨rfl, rfl, rfl, rfl, rfl⟩, ⟨rfl, rfl, rfl, rfl⟩, rfl, rfl⟩
  | png =>
    simp only [pathStep, hp] at h
    obtain ⟨-, -, rfl⟩ | ⟨-, -, -, -, rfl⟩ | ⟨-, -, -, -, rfl⟩ | ⟨-, -, -, -, rfl⟩ | ⟨-, -, -, rfl⟩ := pngStep_cases h <;>
      exact ⟨⟨rfl, rfl, rfl, rfl, rfl⟩, ⟨rfl, rfl, rfl, rfl⟩, rfl, rfl⟩

/-- The phase and the error kind a step in progress leaves. -/
theorem pathStep_status (hr : e.phase = .run) (h : pathStep p e = .next u) :
    (u.phase = .run ∧ u.err = e.err) ∨ (u.phase = .done ∧ u.err = e.err)
    ∨ (u.phase = .error ∧ u.err = some .unsupportedFilterType) := by
  cases hp : e.path with
  | none => simp [pathStep, hp] at h
  | id =>
    simp only [pathStep, hp] at h
    obtain ⟨-, rfl⟩ | ⟨-, -, -, rfl⟩ := identityStep_eq_next.1 h <;> simp [hr]
  | tiff =>
    simp only [pathStep, hp] at h
    obtain ⟨-, -, rfl⟩ | ⟨-, -, rfl⟩ | ⟨-, -, -, rfl⟩ | ⟨-, -, rfl⟩ := tiffStep_eq_next.1 h <;> simp [hr]
  | png =>
    simp only [pathStep, hp] at h
    obtain ⟨-, -, rfl⟩ | ⟨-, -, -, -, rfl⟩ | ⟨-, -, -, -, rfl⟩ | ⟨-, -, -, -, rfl⟩ | ⟨-, -, -, rfl⟩ := pngStep_cases h <;>
      simp [hr]

/-- What a step of an engine that answers a next state has done. -/
theorem engineStep_cases (h : engineStep p e = .next u) :
    (e.phase ≠ .run ∧ u = e) ∨ (e.phase = .run ∧ pathStep p e = .next u) := by
  cases hp : e.phase <;> simp_all [engineStep]

end Sys2Proof.Machine
end

