-- ==== Sys2Proof/Laws/Geometry.lean ====
section
/-! SUPPORT. The admitted domain and the derived geometry, unfolded once. -/

namespace Sys2Proof.Machine

variable {wCfg wLen : Nat}

theorem fits_iff {capacity : Option Nat} {n : Nat} : fits capacity n = true ↔ ∀ m, capacity = some m → n ≤ m := by
  cases capacity <;> simp [fits]

theorem Geometry.fitsMachine_iff {g : Geometry} {o : CfgOpsOf wCfg wLen} {p : Params} :
    g.fitsMachine o p = true ↔
      o.bpc.toNat * o.colors.toNat + 7 < 2 ^ wLen ∧ g.stride < 2 ^ wLen ∧ g.stride + 1 < 2 ^ wLen ∧ g.nrows * g.stride < 2 ^ wLen
      ∧ fits p.maxStride g.stride = true ∧ fits p.maxOut (g.nrows * g.stride) = true := by
  simp only [Geometry.fitsMachine, Bool.and_eq_true, decide_eq_true_eq, and_assoc]

theorem bitDepthListed_iff {bpc : BitVec wCfg} :
    bitDepthListed bpc = true ↔
      bpc.toNat = 1 ∨ bpc.toNat = 2 ∨ bpc.toNat = 4 ∨ bpc.toNat = 8 ∨ bpc.toNat = 16 := by
  simp [bitDepthListed]

theorem admitted_iff {path : Path} {o : CfgOpsOf wCfg wLen} {p : Params} :
    admitted path o p = true ↔
      1 ≤ o.colors.toNat ∧ 1 ≤ o.columns.toNat ∧ bitDepthListed o.bpc = true
      ∧ (geometry path o).fitsMachine o p = true := by
  simp only [admitted, Bool.and_eq_true, decide_eq_true_eq, and_assoc]

theorem bytesPerPixel_pos (bpc colors : Nat) : 1 ≤ bytesPerPixel bpc colors := Nat.le_max_left _ _

theorem rowSize_bounds (path : Path) (stride : Nat) : stride ≤ rowSize path stride ∧ rowSize path stride ≤ stride + 1 := by
  cases path <;> simp [rowSize]

/-- Inside the domain a row has at least one column, and BPP at least one and no more than STRIDE bytes. -/
theorem geometry_pos {path : Path} {o : CfgOpsOf wCfg wLen} {p : Params} (h : admitted path o p = true) :
    1 ≤ (geometry path o).bpp ∧ (geometry path o).bpp ≤ (geometry path o).stride
      ∧ 1 ≤ (geometry path o).stride ∧ 1 ≤ (geometry path o).rowsize := by
  have hb : 1 ≤ (geometry path o).bpp := bytesPerPixel_pos _ _
  have hs : (geometry path o).bpp ≤ (geometry path o).stride := by
    have := Nat.mul_le_mul_right (geometry path o).bpp (admitted_iff.1 h).2.1
    simpa [geometry] using this
  have hr := (rowSize_bounds path (geometry path o).stride).1
  exact ⟨hb, hs, by omega, by simpa [geometry] using Nat.le_trans (Nat.le_trans hb hs) hr⟩

/-- Inside the domain the four derived values fit their registers. -/
theorem geometry_lt {path : Path} {o : CfgOpsOf wCfg wLen} {p : Params} (h : admitted path o p = true) :
    (geometry path o).bpp < 2 ^ wLen ∧ (geometry path o).stride < 2 ^ wLen ∧ (geometry path o).rowsize < 2 ^ wLen
      ∧ (geometry path o).nrows < 2 ^ wLen := by
  obtain ⟨_, hs, hs1, _⟩ := Geometry.fitsMachine_iff.1 (admitted_iff.1 h).2.2.2
  have hp := geometry_pos h
  have hr : (geometry path o).rowsize ≤ (geometry path o).stride + 1 := (rowSize_bounds path _).2
  have hn : (geometry path o).nrows ≤ o.len.toNat := Nat.div_le_self _ _
  have hl := o.len.isLt
  omega

/-- The whole rows of the input end at or before LEN. -/
theorem geometry_rows_le (path : Path) (o : CfgOpsOf wCfg wLen) : (geometry path o).nrows * (geometry path o).rowsize ≤ o.len.toNat :=
  Nat.div_mul_le_self _ _

end Sys2Proof.Machine
end

