-- ==== Sys2Proof/Laws/Invariant.lean ====
section
/-! SUPPORT. What the invariant gives a step: the addresses it forms exist, its registers do not wrap, and its guards
hold. -/

namespace Sys2Proof.Machine

variable {wCfg wLen : Nat} {p : Params} {e : Engine wCfg wLen}

theorem memoriesWf_iff : e.memoriesWf = true ↔
    e.prev.wf = true ∧ e.cur.wf = true ∧ e.inMem.wf = true ∧ e.outMem.wf = true := by
  simp [Engine.memoriesWf, and_assoc]

/-- The memories of the reset state are canonical. -/
theorem reset_memoriesWf : (Engine.reset : Engine wCfg wLen).memoriesWf = true := rfl

/-- Rows `i` below `n`, each of `size` bytes, with a column `j` below `size`, lie below `n * size`. -/
theorem row_addr_lt {i n size j : Nat} (hi : i < n) (hj : j < size) : i * size + j < n * size := by
  have : (i + 1) * size ≤ n * size := Nat.mul_le_mul_right size hi
  rw [Nat.add_mul, Nat.one_mul] at this
  omega

theorem Engine.GeometryInv.rows_le (h : e.GeometryInv p) : e.nrows.toNat * e.rowsize.toNat ≤ e.len.toNat := by
  rw [h.nrowsReg, h.rowsizeReg]
  exact geometry_rows_le e.path e.cfgOps

theorem Engine.GeometryInv.rowsize_tiff (h : e.GeometryInv p) (hp : e.path = .tiff) : e.rowsize.toNat = e.stride.toNat := by
  rw [h.rowsizeReg, h.strideReg, hp]
  rfl

theorem Engine.GeometryInv.rowsize_png (h : e.GeometryInv p) (hp : e.path = .png) :
    e.rowsize.toNat = e.stride.toNat + 1 := by
  rw [h.rowsizeReg, h.strideReg, hp]
  rfl

theorem Engine.GeometryInv.bounds (h : e.GeometryInv p) :
    1 ≤ e.bpp.toNat ∧ e.bpp.toNat ≤ e.stride.toNat ∧ 1 ≤ e.stride.toNat ∧ 1 ≤ e.rowsize.toNat := by
  rw [h.bppReg, h.strideReg, h.rowsizeReg]
  exact geometry_pos h.inDomain

/-- A row that is not the last fits OUT (40_geometry.md R76). -/
theorem Engine.GeometryInv.output_le (h : e.GeometryInv p) :
    e.nrows.toNat * e.stride.toNat ≤ outCapacity p wLen := by
  obtain ⟨_, _, _, hn, _, ho⟩ := Geometry.fitsMachine_iff.1 (admitted_iff.1 h.inDomain).2.2.2
  rw [← h.nrowsReg, ← h.strideReg] at hn ho
  exact le_outCapacity hn ho

/-- There is room in OUT for row I. -/
theorem Engine.rowFits_of_inv (hg : e.GeometryInv p) (hr : e.RowInv) (hi : e.i.toNat < e.nrows.toNat) :
    e.rowFits p = true := by
  have h1 : (e.i.toNat + 1) * e.stride.toNat ≤ e.nrows.toNat * e.stride.toNat := Nat.mul_le_mul_right _ hi
  have h2 := hg.output_le
  rw [Nat.add_mul, Nat.one_mul] at h1
  simp only [Engine.rowFits, decide_eq_true_eq, hr.outIsRows]
  omega

/-- The filtered byte of the TIFF path lies in IN. -/
theorem Engine.tiffAddr_lt (hg : e.GeometryInv p) (hp : e.path = .tiff) (hi : e.i.toNat < e.nrows.toNat)
    (hj : e.j.toNat < e.stride.toNat) : e.tiffAddr < e.len.toNat := by
  have h1 := hg.rows_le
  rw [hg.rowsize_tiff hp] at h1
  exact Nat.lt_of_lt_of_le (row_addr_lt hi hj) h1

/-- The filter type of row I lies in IN. -/
theorem Engine.filterAddr_lt (hg : e.GeometryInv p) (hi : e.i.toNat < e.nrows.toNat) : e.filterAddr < e.len.toNat :=
  Nat.lt_of_lt_of_le (row_addr_lt (j := 0) hi hg.bounds.2.2.2) hg.rows_le

/-- The filtered byte of the PNG path lies in IN. -/
theorem Engine.pngAddr_lt (hg : e.GeometryInv p) (hp : e.path = .png) (hi : e.i.toNat < e.nrows.toNat)
    (hj : e.j.toNat < e.stride.toNat) : e.pngAddr < e.len.toNat := by
  have h1 := hg.rows_le
  have h2 := hg.rowsize_png hp
  have h3 := row_addr_lt (j := 1 + e.j.toNat) hi (size := e.rowsize.toNat) (by omega)
  simp only [Engine.pngAddr]
  omega

theorem Engine.Inv.identity (h : e.Inv p) (hr : e.phase = .run ∨ e.phase = .done) (hp : e.path = .id) :
    e.IdentityInv p := by
  have := h.path hr
  simpa only [Engine.PathInv, hp] using this

theorem Engine.Inv.tiff (h : e.Inv p) (hr : e.phase = .run ∨ e.phase = .done) (hp : e.path = .tiff) :
    e.pred.toNat = 2 ∧ e.bpc.toNat = 8 ∧ e.GeometryInv p ∧ e.RowInv := by
  have := h.path hr
  simpa only [Engine.PathInv, hp] using this

theorem Engine.Inv.png (h : e.Inv p) (hr : e.phase = .run ∨ e.phase = .done) (hp : e.path = .png) :
    10 ≤ e.pred.toNat ∧ e.GeometryInv p ∧ e.RowInv ∧ e.HistoryInv := by
  have := h.path hr
  simpa only [Engine.PathInv, hp] using this

theorem Engine.Inv.path_ne_none (h : e.Inv p) (hr : e.phase = .run ∨ e.phase = .done) : e.path ≠ .none := by
  intro hp
  have := h.path hr
  simp only [Engine.PathInv, hp] at this

/-- The identity path has room for byte K. -/
theorem Engine.IdentityInv.room_lt (h : e.IdentityInv p) (hk : e.k ≠ e.len) :
    e.k.toNat < e.len.toNat ∧ e.k.toNat < outCapacity p wLen := by
  have h1 := h.atMostLen
  have h2 : e.k.toNat ≠ e.len.toNat := fun he => hk (BitVec.eq_of_toNat_eq he)
  have h3 : e.len.toNat ≤ outCapacity p wLen := le_outCapacity e.len.isLt h.room
  omega

/-- A register that counts below a register's value does not wrap. -/
theorem toNat_add_one {x y : BitVec wLen} (h : x.toNat < y.toNat) : (x + 1).toNat = x.toNat + 1 := by
  have hy := y.isLt
  have h1 : (1 : BitVec wLen).toNat = 1 := by
    rw [BitVec.ofNat_eq_ofNat, BitVec.toNat_ofNat]
    exact Nat.mod_eq_of_lt (show 1 < 2 ^ wLen by omega)
  rw [BitVec.toNat_add, h1, Nat.mod_eq_of_lt (by omega)]

/-- The left neighbour is 0 in the first BPP columns and CUR[J - BPP] after them (43_png.md R107). -/
theorem Engine.left_eq (e : Engine wCfg wLen) :
    e.left = if e.j.toNat < e.bpp.toNat then 0 else e.cur.read (e.j.toNat - e.bpp.toNat) := by
  by_cases h : e.j.toNat < e.bpp.toNat
  · rw [if_pos h, Engine.left, byteAt_of_neg (by simp only [Engine.lookback]; omega)]
  · rw [if_neg h, Engine.left, byteAt_of_nonneg (by simp only [Engine.lookback]; omega)]
    congr 1
    simp only [Engine.lookback]
    omega

/-- The upper-left neighbour likewise (43_png.md R107). -/
theorem Engine.aboveLeft_eq (e : Engine wCfg wLen) :
    e.aboveLeft = if e.j.toNat < e.bpp.toNat then 0 else e.prev.read (e.j.toNat - e.bpp.toNat) := by
  by_cases h : e.j.toNat < e.bpp.toNat
  · rw [if_pos h, Engine.aboveLeft, byteAt_of_neg (by simp only [Engine.lookback]; omega)]
  · rw [if_neg h, Engine.aboveLeft, byteAt_of_nonneg (by simp only [Engine.lookback]; omega)]
    congr 1
    simp only [Engine.lookback]
    omega

/-- A row that is not past the last. -/
theorem Engine.RowInv.row_lt (h : e.RowInv) (hn : e.i ≠ e.nrows) : e.i.toNat < e.nrows.toNat := by
  have h1 := h.rowBound
  have h2 : e.i.toNat ≠ e.nrows.toNat := fun he => hn (BitVec.eq_of_toNat_eq he)
  omega

/-- The geometry facts pass to a state with the same configuration, geometry registers and capacities. -/
theorem Engine.GeometryInv.of_same {u : Engine wCfg wLen} (h : e.GeometryInv p) (hp : u.path = e.path) (hc : u.cfgOps = e.cfgOps)
    (hg : e.SameGeometry u) : u.GeometryInv p := by
  obtain ⟨a, b, c, d, e⟩ := h
  obtain ⟨g1, g2, g3, g4⟩ := hg
  refine ⟨?_, ?_, ?_, ?_, ?_⟩ <;> simp only [hp, hc, g1, g2, g3, g4] <;> assumption

/-- The invariant says of IN that it is canonical, and nothing else. -/
theorem Engine.Inv.withInput (h : e.Inv p) {m : Memory} (hm : m.wf = true) :
    ({ e with inMem := m } : Engine wCfg wLen).Inv p := by
  obtain ⟨h1, h2, -, h4⟩ := memoriesWf_iff.1 h.memories
  refine ⟨memoriesWf_iff.2 ⟨h1, h2, hm, h4⟩, ⟨h.status.1, h.status.2, h.status.3⟩, h.idle, fun hr => ?_⟩
  cases hp : e.path with
  | none => exact absurd hp (h.path_ne_none hr)
  | id =>
    obtain ⟨i1, i2, i3, i4, i5⟩ := h.identity hr hp
    exact ⟨i1, i2, i3, i4, i5⟩
  | tiff =>
    obtain ⟨c, b, g, r⟩ := h.tiff hr hp
    exact ⟨c, b, g.of_same hp.symm rfl ⟨rfl, rfl, rfl, rfl⟩, ⟨r.1, r.2, r.3, r.4, r.5, r.6⟩⟩
  | png =>
    obtain ⟨c, g, r, y⟩ := h.png hr hp
    exact ⟨c, g.of_same hp.symm rfl ⟨rfl, rfl, rfl, rfl⟩, ⟨r.1, r.2, r.3, r.4, r.5, r.6⟩, ⟨y.1, y.2, y.3⟩⟩

/-- With PHASE = RUN no error kind is held (10_state.md R22). -/
theorem Engine.StatusInv.err_of_run (h : e.StatusInv) (hr : e.phase = .run) : e.err = none := by
  by_contra hne
  have := h.errOnlyInError.1 hne
  rw [hr] at this
  cases this

/-- The row loop's facts after a COLUMN step. -/
theorem Engine.RowInv.putColumn (hr : e.RowInv) (hs : e.stage = .column) (hp : e.phase = .run) (v : Byte) :
    (e.putColumn v).RowInv := by
  have hc := hr.inColumn hs
  have hj := toNat_add_one hc.1
  refine ⟨hr.rowBound, ?_, ?_, ?_, hr.outIsRows, by simp [hp]⟩
  · simp only [Engine.putColumn_j, Engine.putColumn_stride, hj]
    omega
  · simp only [Engine.putColumn_stage, Engine.putColumn_j, Engine.putColumn_stride, Engine.putColumn_i,
      Engine.putColumn_nrows, hj]
    intro h
    split_ifs at h with he
    omega
  · simp only [Engine.putColumn_stage, Engine.putColumn_j, Engine.putColumn_stride, Engine.putColumn_i,
      Engine.putColumn_nrows, hj]
    intro h
    split_ifs at h with he
    · omega
    · rw [hs] at h
      cases h

/-- The row loop's facts after a COMMIT step (42_tiff.md R99, 43_png.md R120). -/
theorem Engine.RowInv.appendRow (hg : e.GeometryInv p) (hr : e.RowInv) (hs : e.stage = .commit) (hp : e.phase = .run) :
    e.appendRow.RowInv := by
  have hc := hr.inCommit hs
  have hi := toNat_add_one hc.2
  have ho := Engine.rowFits_of_inv hg hr hc.2
  simp only [Engine.rowFits, decide_eq_true_eq] at ho
  have hcap := outCapacity_lt p wLen
  refine ⟨?_, hr.columnBound, by simp, by simp, ?_, by simp [hp]⟩
  · simp only [Engine.appendRow_i, Engine.appendRow_nrows, hi]
    omega
  · simp only [Engine.appendRow_outLen, Engine.appendRow_i, Engine.appendRow_stride, hi, BitVec.toNat_add, hr.outIsRows] at *
    rw [Nat.mod_eq_of_lt (by omega), Nat.add_mul]
    omega

end Sys2Proof.Machine
end

