-- ==== Sys2Proof/Laws/PerInstr.lean ====
section
/-! SUPPORT. Facts about each instruction as syntax, one lemma for each constructor. -/

namespace Sys2Proof.Laws

/-- The operands an instruction carries; a row operation's are implicit (30_encoding.md R53, R54). -/
def operandsOf : Instr → Option CfgOps
  | .predNone ops => some ops
  | .predTiff ops => some ops
  | .predPng _ ops => some ops
  | .illegalPred _ ops => some ops
  | .rowNone => none
  | .rowSub => none
  | .rowUp => none
  | .rowAvg => none
  | .rowPaeth => none
  | .illegalFt _ => none

/-- The format of an instruction and what its fields hold: a level-1 instruction is a CFG record that keeps its operands
and whose PRED decodes to no other mnemonic, a row operation is the filter-type byte alone (30_encoding.md R50, R52,
R54, R55). -/
def EncodedFormat.Statement (i : Instr) : Prop :=
  i.wf = true →
    match encode i with
    | .cfg c => operandsOf i = some c.ops ∧ (decodeCfg c).mnemonic = i.mnemonic
    | .row ft => operandsOf i = none ∧ (decodeRow ft).mnemonic = i.mnemonic

theorem EncodedFormat.predNone (ops : CfgOps) : EncodedFormat.Statement (.predNone ops) := fun _ => ⟨rfl, rfl⟩

theorem EncodedFormat.predTiff (ops : CfgOps) : EncodedFormat.Statement (.predTiff ops) := fun _ => ⟨rfl, rfl⟩

theorem EncodedFormat.predPng (pred : Word) (ops : CfgOps) : EncodedFormat.Statement (.predPng pred ops) := by
  intro h
  have hp : 10 ≤ pred.toNat := by simpa [Instr.wf, isPngPredictor] using h
  refine ⟨rfl, ?_⟩
  simp only [decodeCfg]
  rw [if_neg (by omega), if_neg (by omega), if_pos hp]

theorem EncodedFormat.illegalPred (pred : Word) (ops : CfgOps) : EncodedFormat.Statement (.illegalPred pred ops) := by
  intro h
  have hp : pred.toNat = 0 ∨ (3 ≤ pred.toNat ∧ pred.toNat ≤ 9) := by simpa [Instr.wf, isIllegalPredictor] using h
  refine ⟨rfl, ?_⟩
  simp only [decodeCfg]
  rw [if_neg (by omega), if_neg (by omega), if_neg (by omega)]

theorem EncodedFormat.rowNone : EncodedFormat.Statement .rowNone := fun _ => ⟨rfl, rfl⟩

theorem EncodedFormat.rowSub : EncodedFormat.Statement .rowSub := fun _ => ⟨rfl, rfl⟩

theorem EncodedFormat.rowUp : EncodedFormat.Statement .rowUp := fun _ => ⟨rfl, rfl⟩

theorem EncodedFormat.rowAvg : EncodedFormat.Statement .rowAvg := fun _ => ⟨rfl, rfl⟩

theorem EncodedFormat.rowPaeth : EncodedFormat.Statement .rowPaeth := fun _ => ⟨rfl, rfl⟩

theorem EncodedFormat.illegalFt (ft : Byte) : EncodedFormat.Statement (.illegalFt ft) := by
  intro h
  have hp : 5 ≤ ft.toNat := by simpa [Instr.wf, isIllegalFilterType] using h
  refine ⟨rfl, ?_⟩
  simp only [decodeRow]
  rw [if_neg (by omega), if_neg (by omega), if_neg (by omega), if_neg (by omega), if_neg (by omega)]

end Sys2Proof.Laws
end

