-- ==== Sys2Proof/Laws/Reference.lean ====
section
/-! SUPPORT. The rows the reference function reconstructs, column by column. -/

namespace Sys2Proof.Machine

/-- A row reconstructed from `done` on keeps what is done, and each further column adds what is predicted for it from the
columns before it (42_tiff.md R100, 43_png.md R121). -/
theorem reconstructRow_spec {bpp : Nat} (hb : 1 ≤ bpp) (f : Nat → Byte → Byte) : ∀ (xs done : List Byte),
    (reconstructRow bpp f done xs).length = done.length + xs.length
    ∧ (∀ j, j < done.length → (reconstructRow bpp f done xs).getD j 0 = done.getD j 0)
    ∧ ∀ j, j < xs.length →
        (reconstructRow bpp f done xs).getD (done.length + j) 0
          = reconstruct (xs.getD j 0) (f (done.length + j) (backAt (reconstructRow bpp f done xs) (done.length + j) bpp)) := by
  intro xs
  induction xs with
  | nil => intro done; simp [reconstructRow]
  | cons x xs ih =>
    intro done
    simp only [reconstructRow]
    generalize hv : reconstruct x (f done.length (backAt done done.length bpp)) = v
    obtain ⟨h1, h2, h3⟩ := ih (done ++ [v])
    have hl : (done ++ [v]).length = done.length + 1 := by simp
    rw [hl] at h1 h2 h3
    refine ⟨by rw [h1, List.length_cons]; omega, fun j hj => ?_, fun j hj => ?_⟩
    · rw [h2 j (by omega), List.getD_eq_getElem?_getD, List.getElem?_append_left hj, ← List.getD_eq_getElem?_getD]
    · cases j with
      | zero =>
        have hback : backAt (reconstructRow bpp f (done ++ [v]) xs) done.length bpp = backAt done done.length bpp := by
          simp only [backAt]
          split_ifs with hlt
          · rfl
          · rw [h2 _ (by omega), List.getD_eq_getElem?_getD, List.getElem?_append_left (by omega),
              ← List.getD_eq_getElem?_getD]
        rw [Nat.add_zero, h2 _ (by omega), hback]
        simp [← hv, List.getD_eq_getElem?_getD]
      | succ j =>
        rw [show done.length + (j + 1) = done.length + 1 + j by omega, h3 j (by simpa using hj)]
        simp [List.getD_eq_getElem?_getD]

/-- The same from the start of a row. -/
theorem reconstructRow_nil {bpp : Nat} (hb : 1 ≤ bpp) (f : Nat → Byte → Byte) (xs : List Byte) :
    (reconstructRow bpp f [] xs).length = xs.length
    ∧ ∀ j, j < xs.length →
        (reconstructRow bpp f [] xs).getD j 0
          = reconstruct (xs.getD j 0) (f j (backAt (reconstructRow bpp f [] xs) j bpp)) := by
  have h := reconstructRow_spec hb f xs []
  exact ⟨by simpa using h.1, fun j hj => by simpa using h.2.2 j hj⟩

end Sys2Proof.Machine
end

