-- ==== Sys2Proof/Laws/Step.lean ====
section
/-! SUPPORT. What one step of the interface does: it waits, takes a START, or runs the engine's step in progress. -/

namespace Sys2Proof.Machine

variable {s t : State}

/-! ## Operations on the engine of a state -/

/-- What an operation on the engine of a state answers is the engine's answer, the host's side as it was. -/
theorem onEngine_eq_next {op : Engine 32 32 → EngineResult 32 32} :
    s.onEngine op = .next t ↔ ∃ e, op s.toEngine = .next e ∧ t = s.withEngine e := by
  simp only [State.onEngine]
  cases op s.toEngine with
  | next e => exact ⟨fun h => ⟨e, rfl, (Host.Outcome.next.inj h).symm⟩, fun ⟨_, h, ht⟩ => by cases h; rw [ht]⟩
  | fault f => exact ⟨(nomatch ·), fun ⟨_, h, _⟩ => nomatch h⟩
  | refused r => exact ⟨(nomatch ·), fun ⟨_, h, _⟩ => nomatch h⟩

theorem onEngine_eq_fault {op : Engine 32 32 → EngineResult 32 32} {f : Fault} :
    s.onEngine op = .fault f ↔ op s.toEngine = .fault f := by
  simp only [State.onEngine]
  cases op s.toEngine <;> simp

theorem onEngine_eq_refused {op : Engine 32 32 → EngineResult 32 32} {r : Refusal} :
    s.onEngine op = .refused r ↔ op s.toEngine = .refused r := by
  simp only [State.onEngine]
  cases op s.toEngine <;> simp

/-- Two operations that agree on the engine of a state answer the same there. -/
theorem onEngine_congr {op op' : Engine 32 32 → EngineResult 32 32} (h : op s.toEngine = op' s.toEngine) :
    s.onEngine op = s.onEngine op' := by
  simp only [State.onEngine, h]

/-! ## The host's moves -/

/-- Placing the input answers a next state exactly outside an invocation, and changes IN alone. -/
theorem State.place_eq_next {bytes : List Byte} :
    s.place bytes = .next t ↔ s.start = none ∧ s.phase ≠ .run ∧ t = { s with inMem := s.inMem.writeList 0 bytes } := by
  cases hs : s.start with
  | some c => simp [State.place, hs]
  | none =>
    simp only [State.place, hs, onEngine_eq_next, Engine.place_eq_next, true_and]
    exact ⟨fun ⟨_, ⟨hr, he⟩, ht⟩ => ⟨hr, by rw [ht, he]; simp [State.withEngine, hs]⟩,
      fun ⟨hr, ht⟩ => ⟨_, ⟨hr, rfl⟩, by rw [ht]; simp [State.withEngine, hs]⟩⟩

/-- Performing START answers a next state exactly outside an invocation, and it is pending there. -/
theorem State.present_eq_next {c : Cfg} :
    s.present c = .next t ↔ s.start = none ∧ s.phase ≠ .run ∧ t = { s with start := some c } := by
  cases hs : s.start with
  | some c' => simp [State.present, hs]
  | none => by_cases hr : s.phase = .run <;> simp [State.present, hs, hr, eq_comm]

/-- From START to completion the host has no move. -/
theorem State.host_waits (h : s.phase = .run ∨ s.start ≠ none) (bytes : List Byte) (c : Cfg) :
    s.place bytes = .refused .inputOwnedByEngine ∧ s.present c = .refused .startWhileRunning ∧ s.result = none := by
  cases hs : s.start with
  | some c' => simp [State.place, State.present, State.result, hs]
  | none =>
    have hr : s.phase = .run := h.resolve_right (not_not_intro hs)
    simp [State.place, State.present, State.result, Engine.result, Engine.place_of_run, onEngine_eq_refused, hs, hr]

/-- With no START pending the host reads what the engine has. -/
theorem State.result_of_no_start (hs : s.start = none) : s.result = s.toEngine.result := by
  simp only [State.result, hs]

/-! ## What each instruction runs on the engine -/

/-- Fetching a filter type and running its instruction is the five-way dispatch. -/
theorem exec_decodeRow (ft : Byte) (s : State) : exec (decodeRow ft) s = s.onEngine (filterDispatch ft s.params) := by
  simp only [decodeRow]
  split_ifs with h0 h1 h2 h3 h4
  · exact onEngine_congr (if_pos h0).symm
  · exact onEngine_congr (by rw [filterDispatch, if_neg h0, if_pos h1])
  · exact onEngine_congr (by rw [filterDispatch, if_neg h0, if_neg h1, if_pos h2])
  · exact onEngine_congr (by rw [filterDispatch, if_neg h0, if_neg h1, if_neg h2, if_pos h3])
  · exact onEngine_congr (by rw [filterDispatch, if_neg h0, if_neg h1, if_neg h2, if_neg h3, if_pos h4])
  · exact onEngine_congr (filterDispatch_of_illegal (by omega) _ _).symm

theorem exec_predNone_in_progress (hr : s.phase = .run) (hp : s.path = .id) :
    exec (.predNone s.cfgOps) s = s.onEngine (identityStep s.params) :=
  onEngine_congr (by simp [predNone, startOrContinue, hr, hp])

theorem exec_predTiff_in_progress (hr : s.phase = .run) (hp : s.path = .tiff) :
    exec (.predTiff s.cfgOps) s = s.onEngine (tiffStep s.params) :=
  onEngine_congr (by simp [predTiff, startOrContinue, hr, hp])

theorem exec_predPng_in_progress (hr : s.phase = .run) (hp : s.path = .png) :
    exec (.predPng s.pred s.cfgOps) s = s.onEngine (pngStep s.params) :=
  onEngine_congr (by simp [predPng, startOrContinue, hr, hp])

/-- Outside RUN a level-1 instruction is START with its CFG record. -/
theorem exec_decodeCfg (hr : s.phase ≠ .run) (c : Cfg) : exec (decodeCfg c) s = s.onEngine (engineStart s.params c) := by
  simp only [decodeCfg]
  split_ifs with h1 h2 h3
  · have hc : c = ⟨1, c.ops⟩ := congrArg (CfgOf.mk · c.ops) (BitVec.eq_of_toNat_eq h1)
    refine onEngine_congr ?_
    rw [predNone, startOrContinue_of_not_run hr, engineStart, if_neg hr, if_pos h1, ← hc]
  · have hc : c = ⟨2, c.ops⟩ := congrArg (CfgOf.mk · c.ops) (BitVec.eq_of_toNat_eq h2)
    refine onEngine_congr ?_
    rw [predTiff, startOrContinue_of_not_run hr, engineStart, if_neg hr, if_neg h1, if_pos h2, ← hc]
  · refine onEngine_congr ?_
    rw [predPng, startOrContinue_of_not_run hr, engineStart, if_neg hr, if_neg h1, if_neg h2, if_pos h3]
  · refine onEngine_congr ?_
    rw [illegalPredictor, startOrContinue_of_not_run hr, engineStart, if_neg hr, if_neg h1, if_neg h2, if_neg h3]

/-- A property of every legal row operation holds of each of the five instructions. -/
theorem exec_row_of_rowOperation {i : Instr} (hi : i ∈ [Instr.rowNone, .rowSub, .rowUp, .rowAvg, .rowPaeth]) (s : State) :
    ∃ (ft : Byte) (predicted : Engine 32 32 → Byte), exec i s = s.onEngine (rowOperation ft predicted s.params) := by
  simp only [List.mem_cons, List.not_mem_nil, or_false] at hi
  rcases hi with rfl | rfl | rfl | rfl | rfl <;> exact ⟨_, _, rfl⟩

/-! ## What a step runs -/

/-- With PHASE = RUN and no START pending the step is the engine's own. -/
theorem step_of_run (hr : s.phase = .run) (hs : s.start = none) : step s = s.onEngine (pathStep s.params) := by
  simp only [step, fetch, hr, hs, fetchRunning]
  cases hp : s.path
  · exact onEngine_congr (op := fun _ => .refused .stepNotEnabled) (by simp [pathStep, hp])
  · exact (exec_predNone_in_progress hr hp).trans (onEngine_congr (by simp [pathStep, hp]))
  · exact (exec_predTiff_in_progress hr hp).trans (onEngine_congr (by simp [pathStep, hp]))
  · have h : s.onEngine (pathStep s.params) = s.onEngine (pngStep s.params) := onEngine_congr (by simp [pathStep, hp])
    rw [h]
    simp only [fetchPng]
    cases hst : s.stage
    · by_cases hi : s.i = s.nrows
      · simp only [hi, if_true]
        exact exec_predPng_in_progress hr hp
      · simp only [hi, if_false]
        cases hf : s.filterByte with
        | ok ft =>
          exact (exec_decodeRow ft s).trans (onEngine_congr (by simp [pngStep, hst, hi, hf, orFault]))
        | error f =>
          exact (onEngine_eq_fault.2 (by simp [pngStep, hst, hi, hf, orFault])).symm
    · exact (exec_decodeRow _ s).trans (onEngine_congr (by simp [pngStep, hst]))
    · exact (exec_decodeRow _ s).trans (onEngine_congr (by simp [pngStep, hst]))

/-- Outside RUN a pending START is taken. -/
theorem step_of_start {c : Cfg} (hr : s.phase ≠ .run) (hs : s.start = some c) :
    step s = s.takeStart.onEngine (engineStart s.params c) := by
  rw [show engineStart s.params c = engineStart s.takeStart.params c from rfl, ← exec_decodeCfg (s := s.takeStart) hr c]
  cases hp : s.phase <;> simp_all [step, fetch]

theorem step_of_waiting (hr : s.phase ≠ .run) (hs : s.start = none) : step s = .next s := by
  cases hp : s.phase <;> simp_all [step, fetch]

theorem step_of_start_running {c : Cfg} (hr : s.phase = .run) (hs : s.start = some c) :
    step s = .refused .startWhileRunning := by
  simp [step, fetch, hr, hs]

/-- With no START pending the step is the engine's, in every phase. -/
theorem step_of_no_start (hs : s.start = none) : step s = s.onEngine (engineStep s.params) := by
  by_cases hr : s.phase = .run
  · exact (step_of_run hr hs).trans (onEngine_congr (by simp [engineStep, hr]))
  · rw [step_of_waiting hr hs]
    refine (onEngine_eq_next.2 ⟨s.toEngine, ?_, rfl⟩).symm
    cases hp : s.phase <;> simp_all [engineStep]

/-- What a step that answers a next state has done. -/
theorem step_cases (h : step s = .next t) :
    (s.phase ≠ .run ∧ s.start = none ∧ t = s)
    ∨ (s.phase ≠ .run ∧ ∃ c e, s.start = some c ∧ engineStart s.params c s.toEngine = .next e ∧ t = s.takeStart.withEngine e)
    ∨ (s.phase = .run ∧ s.start = none ∧ ∃ e, pathStep s.params s.toEngine = .next e ∧ t = s.withEngine e) := by
  by_cases hr : s.phase = .run
  · cases hs : s.start with
    | none =>
      rw [step_of_run hr hs, onEngine_eq_next] at h
      exact .inr (.inr ⟨hr, rfl, h⟩)
    | some c => rw [step_of_start_running hr hs] at h; cases h
  · cases hs : s.start with
    | none => rw [step_of_waiting hr hs] at h; cases h; exact .inl ⟨hr, rfl, rfl⟩
    | some c =>
      rw [step_of_start hr hs, onEngine_eq_next] at h
      obtain ⟨e, he, ht⟩ := h
      exact .inr (.inl ⟨hr, c, e, rfl, he, ht⟩)

end Sys2Proof.Machine
end

