-- ==== Sys2Proof/Laws/Run.lean ====
section
/-! SUPPORT. Runs of several steps, put together and taken apart. -/

namespace Sys2Proof.Machine

variable {s t u : State}

theorem run_zero : Host.Core.run Sys2Proof.core 0 s = .next t ↔ t = s :=
  ⟨fun h => (Host.Outcome.next.inj h).symm, fun h => h ▸ rfl⟩

theorem run_succ {n : Nat} : Host.Core.run Sys2Proof.core (n + 1) s = .next t ↔
    ∃ u, step s = .next u ∧ Host.Core.run Sys2Proof.core n u = .next t := by
  have hcore : Sys2Proof.core.step s = step s := rfl
  simp only [Host.Core.run, hcore]
  cases h : step s with
  | next u =>
    constructor
    · intro hr
      exact ⟨u, rfl, hr⟩
    · rintro ⟨w, hw, hr⟩
      cases hw
      exact hr
  | fault f =>
    constructor
    · intro hr; cases hr
    · rintro ⟨w, hw, -⟩; cases hw
  | refused r =>
    constructor
    · intro hr; cases hr
    · rintro ⟨w, hw, -⟩; cases hw

/-- Two runs in a row are one. -/
theorem run_add {m : Nat} : ∀ {n : Nat} {s : State}, Host.Core.run Sys2Proof.core n s = .next u →
    Host.Core.run Sys2Proof.core m u = .next t → Host.Core.run Sys2Proof.core (n + m) s = .next t
  | 0, s, h1, h2 => by
    rw [run_zero.1 h1] at h2
    rwa [Nat.zero_add]
  | n + 1, s, h1, h2 => by
    obtain ⟨w, hw, h1⟩ := run_succ.1 h1
    rw [show n + 1 + m = n + m + 1 by omega]
    exact run_succ.2 ⟨w, hw, run_add h1 h2⟩

/-- With no step enabled and no START the engine stays where it is (10_state.md R27). -/
theorem run_waiting (hr : s.phase ≠ .run) (hs : s.start = none) :
    ∀ n, Host.Core.run Sys2Proof.core n s = .next s
  | 0 => rfl
  | n + 1 => run_succ.2 ⟨s, step_of_waiting hr hs, run_waiting hr hs n⟩

end Sys2Proof.Machine
end

