-- ==== Sys2Proof/Tests/Slice0.lean ====
section
/-! SUPPORT. Small tests of one step each, with the numbers of spec/95_test_vectors.md and of the rules' worked examples,
and for every statement with hypotheses a state that meets them. -/

namespace Sys2Proof.Tests

open Sys2Proof.Machine

/-! ## Helpers -/

/-- The state a step answers, if it answers one. -/
def stateOf : Result → Option State
  | .next s => some s
  | .fault _ => none
  | .refused _ => none

/-- A memory of given bytes from address 0. -/
def bytes (l : List Byte) : Memory := Memory.writeList [] 0 l

/-- The operands COLORS, BPC, COLUMNS, LEN. -/
def ops (colors bpc columns len : Word) : CfgOps := ⟨colors, bpc, columns, len⟩

/-- Nothing has run; IN holds the bytes and START has been performed. -/
def started (pred : Word) (o : CfgOps) (input : List Byte) : State :=
  { State.reset with inMem := bytes input, start := some ⟨pred, o⟩ }

/-- The identity path on IN = [9, 8, 7] with K bytes copied. -/
def idAt (k : Word) (out : List Byte) : State :=
  { State.reset with
    pred := 1, len := 3, phase := .run, path := .id, k := k, outLen := k
    inMem := bytes [9, 8, 7], outMem := bytes out }

/-- The TIFF path of 42_tiff.md R97's example: three columns, BPP 1, IN = [5, 10, 250]. -/
def tiffAt (stage : Stage) (i j : Word) (cur : List Byte) : State :=
  { State.reset with
    pred := 2, colors := 1, bpc := 8, columns := 3, len := 3
    bpp := 1, stride := 3, rowsize := 3, nrows := 1
    phase := .run, path := .tiff, stage := stage, i := i, j := j, outLen := i * 3
    inMem := bytes [5, 10, 250], cur := bytes cur }

/-- The PNG path in row 1 of two rows of three columns, BPP 1, after the row [10, 20, 30] (95_test_vectors.md E4); the
second row's filter type is `ft`. -/
def pngAt (stage : Stage) (ft : Byte) (j : Word) (x cur : List Byte) : State :=
  { State.reset with
    pred := 10, colors := 1, bpc := 8, columns := 3, len := 8
    bpp := 1, stride := 3, rowsize := 4, nrows := 2
    phase := .run, path := .png, stage := stage, i := 1, j := j, ft := ft, outLen := 3
    prev := bytes [10, 20, 30], cur := bytes cur, outMem := bytes [10, 20, 30]
    inMem := bytes ([0, 10, 20, 30, ft] ++ x) }

/-- The same invocation after its last row. -/
def pngEnd : State :=
  { pngAt .rowstart 0 3 [1, 1, 1] [] with i := 2, outLen := 6, prev := [], outMem := bytes [10, 20, 30] }

/-- CUR[J] after one step. -/
def columnOf (r : Result) (j : Nat) : Option Byte := (stateOf r).map (fun s => s.cur.read j)

/-! ## Well-formedness refuses each ill-formed term -/

theorem test_wf_png_below_ten : (Instr.predPng 9 (ops 1 8 3 8)).wf = false := by decide
theorem test_wf_png_ten : (Instr.predPng 10 (ops 1 8 3 8)).wf = true := by decide
theorem test_wf_illegal_pred_one : (Instr.illegalPred 1 (ops 1 8 3 8)).wf = false := by decide
theorem test_wf_illegal_pred_two : (Instr.illegalPred 2 (ops 1 8 3 8)).wf = false := by decide
theorem test_wf_illegal_pred_ten : (Instr.illegalPred 10 (ops 1 8 3 8)).wf = false := by decide
theorem test_wf_illegal_pred_bounds :
    ([0, 3, 9].map fun p => (Instr.illegalPred p (ops 1 8 3 8)).wf) = [true, true, true] := by decide
theorem test_wf_illegal_ft_four : (Instr.illegalFt 4).wf = false := by decide
theorem test_wf_illegal_ft_bounds : ([5, 255].map fun ft => (Instr.illegalFt ft).wf) = [true, true] := by decide

/-! ## Decoding words written out from 30_encoding.md R52, R54, R55 -/

theorem test_decode_pred_none : decodeTableWord 32 0b00000000000000000000000000000001 = some (.predNone (ops 0 0 0 0)) := by
  decide
theorem test_decode_pred_tiff : decodeTableWord 32 0b00000000000000000000000000000010 = some (.predTiff (ops 0 0 0 0)) := by
  decide
theorem test_decode_pred_png : decodeTableWord 32 0b00000000000000000000000000001010 = some (.predPng 10 (ops 0 0 0 0)) := by
  decide
theorem test_decode_pred_png_top :
    decodeTableWord 32 0b10000000000000000000000000000000 = some (.predPng 2147483648 (ops 0 0 0 0)) := by decide
theorem test_decode_illegal_pred :
    decodeTableWord 32 0b00000000000000000000000000000111 = some (.illegalPred 7 (ops 0 0 0 0)) := by decide
theorem test_decode_row_none : decodeTableWord 8 0b00000000 = some .rowNone := by decide
theorem test_decode_row_sub : decodeTableWord 8 0b00000001 = some .rowSub := by decide
theorem test_decode_row_up : decodeTableWord 8 0b00000010 = some .rowUp := by decide
theorem test_decode_row_avg : decodeTableWord 8 0b00000011 = some .rowAvg := by decide
theorem test_decode_row_paeth : decodeTableWord 8 0b00000100 = some .rowPaeth := by decide
theorem test_decode_illegal_ft : decodeTableWord 8 0b00010001 = some (.illegalFt 17) := by decide
theorem test_decode_cfg_record :
    decodeCfgFields [12, 1, 8, 3, 8] = .ok (.predPng 12 (ops 1 8 3 8)) := by rfl
theorem test_decode_cfg_short : decodeCfgFields [12, 1, 8, 3] = .error .cfgFieldCount := by rfl
theorem test_decode_row_record : decodeRowBytes [4, 0, 5] = .ok .rowPaeth := by rfl
theorem test_decode_row_empty : decodeRowBytes [] = .error .emptyRow := by rfl

/-! ## withFetchWord: the next step runs the word -/

theorem test_fetch_cfg_word :
    fetch (State.reset.withFetchWord 32 1) = .instr (.predNone (ops 0 0 0 0)) State.reset := by decide
theorem test_fetch_row_word :
    fetch (State.reset.withFetchWord 8 4) = .instr .rowPaeth (State.reset.withFetchWord 8 4) := by decide
/-- The state withFetchWord gives a row word is the one START(10, 1, 8, 1, 2) leaves (41_dispatch_identity.md R80). -/
theorem test_fetch_row_state :
    stateOf (step (started 10 (ops 1 8 1 2) [4, 0])) = some (State.reset.withFetchWord 8 4) := by decide

/-! ## START (95_test_vectors.md V-DISP, V-GEO, 41_dispatch_identity.md R80) -/

theorem test_start_png_geometry :
    (stateOf (step (started 10 (ops 3 4 5 33) []))).map (fun s => (s.bpp, s.stride, s.rowsize, s.nrows, s.path))
      = some (2, 10, 11, 3, .png) := by decide
theorem test_start_tiff_geometry :
    (stateOf (step (started 2 (ops 3 8 2 15) []))).map (fun s => (s.bpp, s.stride, s.rowsize, s.nrows, s.path))
      = some (3, 6, 6, 2, .tiff) := by decide
theorem test_start_identity_ignores_the_rest :
    (stateOf (step (started 1 (ops 0 3 0 5) []))).map (fun s => (s.phase, s.path)) = some (.run, .id) := by decide
theorem test_start_illegal_before_bit_depth :
    (stateOf (step (started 5 (ops 1 4 3 0) []))).map (fun s => (s.phase, s.errCode, s.path, s.pred))
      = some (.error, 1, .none, 5) := by decide
theorem test_start_bit_depth_before_domain :
    (stateOf (step (started 2 (ops 0 4 0 0) []))).map (fun s => (s.phase, s.errCode, s.path, s.bpc))
      = some (.error, 2, .none, 4) := by decide
theorem test_start_png_without_colors_refused : step (started 10 (ops 0 8 3 8) []) = .refused .outsideDomain := by rfl

/-! ## The steps of the paths -/

theorem test_identity_copies : (stateOf (exec (.predNone (ops 0 0 0 3)) (idAt 1 [9]))).map (fun s => (s.outMem.read 1, s.outLen))
    = some (8, 2) := by decide
theorem test_identity_done : (stateOf (exec (.predNone (ops 0 0 0 3)) (idAt 3 [9, 8, 7]))).map (fun s => s.phase)
    = some .done := by decide
/-- 42_tiff.md R97: CUR[1] = 15 and x = 250 give 9. -/
theorem test_tiff_column_wraps : columnOf (exec (.predTiff (ops 1 8 3 3)) (tiffAt .column 0 2 [5, 15])) 2 = some 9 := by decide
/-- 42_tiff.md R99. -/
theorem test_tiff_commit :
    (stateOf (exec (.predTiff (ops 1 8 3 3)) (tiffAt .commit 0 3 [5, 15, 9]))).map
      (fun s => (s.outBytes 3, s.outLen, s.i, s.stage)) = some ([5, 15, 9], 3, 1, .rowstart) := by decide
/-- 43_png.md R110: x = 200. -/
theorem test_none_column : columnOf (exec .rowNone (pngAt .column 0 1 [1, 200, 3] [7])) 1 = some 200 := by decide
/-- 95_test_vectors.md E3: 15 + 250 wraps to 9. -/
theorem test_sub_column : columnOf (exec .rowSub (pngAt .column 1 2 [5, 10, 250] [5, 15])) 2 = some 9 := by decide
theorem test_sub_first_column : columnOf (exec .rowSub (pngAt .column 1 0 [5, 10, 250] [200])) 0 = some 5 := by decide
/-- 95_test_vectors.md E4. -/
theorem test_up_column : columnOf (exec .rowUp (pngAt .column 2 1 [1, 1, 1] [11])) 1 = some 21 := by decide
/-- 95_test_vectors.md E5: a = 0, b = 10, x = 3 give 8. -/
theorem test_avg_first_column : columnOf (exec .rowAvg (pngAt .column 3 0 [3, 0, 0] [])) 0 = some 8 := by decide
/-- 43_png.md R113: the sum 255 + 20 does not wrap, 137 + 0 is the byte. -/
theorem test_avg_column_nine_bits : columnOf (exec .rowAvg (pngAt .column 3 1 [0, 0, 0] [255])) 1 = some 137 := by decide
/-- 95_test_vectors.md E6: a = 10, b = 20, c = 10, x = 5 give 25. -/
theorem test_paeth_column : columnOf (exec .rowPaeth (pngAt .column 4 1 [0, 5, 0] [10])) 1 = some 25 := by decide
/-- 43_png.md R114: in the first column Paeth is Up. -/
theorem test_paeth_first_column : columnOf (exec .rowPaeth (pngAt .column 4 0 [1, 0, 0] [])) 0 = some 11 := by decide
theorem test_png_commit_keeps_the_row :
    (stateOf (exec .rowUp (pngAt .commit 2 3 [1, 1, 1] [11, 21, 31]))).map
      (fun s => (s.outBytes 6, s.outLen, s.prev, s.i)) = some ([10, 20, 30, 11, 21, 31], 6, bytes [11, 21, 31], 2) := by decide
/-- 43_png.md R106: I = 1, IN[4] = 2 give FT = 2, J = 0, STAGE = COLUMN. -/
theorem test_png_rowstart :
    (stateOf (exec (.predPng 10 (ops 1 8 3 8)) (pngAt .rowstart 2 3 [1, 1, 1] []))).map (fun s => (s.ft, s.j, s.stage))
      = some (2, 0, .column) := by decide
/-- 95_test_vectors.md E8. -/
theorem test_illegal_filter_type :
    (stateOf (step (pngAt .rowstart 7 3 [1, 2, 3] []))).map (fun s => (s.phase, s.errCode, s.ft, s.i, s.outLen))
      = some (.error, 4, 7, 1, 0) := by decide
/-- 43_png.md R115. -/
theorem test_paeth_values : [paeth 10 20 10, paeth 100 200 20, paeth 0 10 0, paeth 5 5 5] = [20, 200, 10, 5] := by decide
/-- 43_png.md R118: ten bits agree with the integers, eight return `c`. -/
theorem test_paeth_widths : [paethAtWidth 10 100 200 20, paethAtWidth 8 100 200 20] = [200, 20] := by decide
theorem test_waiting : step State.reset = .next State.reset := by rfl

/-! ## The host's moves (70_reset_and_hazards.md R152, R167) -/

theorem test_place_then_present :
    (stateOf (State.reset.place [9, 0, 7])).bind (fun s => stateOf (s.present ⟨1, ops 0 0 0 3⟩))
      = some (started 1 (ops 0 0 0 3) [9, 0, 7]) := by decide
theorem test_place_replaces_the_input_of_the_last_invocation :
    (stateOf (({ idAt 3 [9, 8, 7] with phase := .done } : State).place [1, 0])).map (fun s => s.inBytes 3)
      = some [1, 0, 7] := by decide
theorem test_host_has_no_move_in_run :
    (idAt 1 [9]).place [1] = .refused .inputOwnedByEngine ∧ (idAt 1 [9]).present ⟨1, ops 0 0 0 0⟩ = .refused .startWhileRunning
    ∧ (idAt 1 [9]).result = none := ⟨rfl, rfl, rfl⟩
/-- The last invocation is complete, START has been performed and not yet taken: IN and the result are the engine's. -/
theorem test_host_has_no_move_after_start :
    let s := { idAt 3 [9, 8, 7] with phase := .done }
    let u := { s with start := some ⟨1, ops 0 0 0 0⟩ }
    s.result = some (.ok [9, 8, 7]) ∧ u.result = none ∧ u.place [1] = .refused .inputOwnedByEngine
    ∧ u.present ⟨2, ops 0 0 0 0⟩ = .refused .startWhileRunning := ⟨rfl, rfl, rfl, rfl⟩

/-! ## Engines of other widths (00_scope.md R6) -/

/-- The engine an operation answers, if it answers one. -/
def engineOf {wCfg wLen : Nat} : EngineResult wCfg wLen → Option (Engine wCfg wLen)
  | .next e => some e
  | .fault _ => none
  | .refused _ => none

/-- START(10, 1, 8, COLUMNS, 15) of an engine with W_CFG = 5 and W_LEN = 4, after reset. -/
def smallStart (columns : BitVec 5) : EngineResult 5 4 := engineStart Params.default ⟨10, ⟨1, 8, columns, 15⟩⟩ Engine.reset

/-- 40_geometry.md R70 to R74: 15 bytes are three rows of four columns and a filter type. -/
theorem test_small_start :
    (engineOf (smallStart 4)).map (fun e => (e.bpp, e.stride, e.rowsize, e.nrows, e.path)) = some (1, 4, 5, 3, .png) := by
  decide

/-- 40_geometry.md R76: STRIDE + 1 = 16 does not fit four bits; STRIDE = 14 does, and 32 bits take both. -/
theorem test_small_domain :
    smallStart 15 = .refused .outsideDomain ∧ (engineOf (smallStart 14)).map (fun e => e.rowsize) = some 15
    ∧ (stateOf (step (started 10 (ops 1 8 15 15) []))).map (fun s => s.rowsize) = some 16 :=
  ⟨by rfl, by decide, by decide⟩

/-! ## States that meet the invariant -/

theorem idAt_inv (k : Word) (out : List Byte) (hk : k.toNat ≤ 3) (hw : (idAt k out).memoriesWf = true) : (idAt k out).Inv :=
  ⟨hw, ⟨by simp [idAt, State.reset, Engine.reset], by simp [idAt, State.reset, Engine.reset], by simp [idAt, State.reset, Engine.reset]⟩, by simp [idAt],
    fun _ => ⟨rfl, rfl, hk, rfl, by simp [idAt]⟩⟩

theorem tiffAt_geometry (stage : Stage) (i j : Word) (cur : List Byte) : (tiffAt stage i j cur).GeometryInv Params.default :=
  ⟨by show admitted .tiff (ops 1 8 3 3) Params.default = true; decide, by show (1 : Nat) = max 1 ((8 * 1 + 7) / 8); decide,
    by show (3 : Nat) = 3 * max 1 ((8 * 1 + 7) / 8); decide, by show (3 : Nat) = 3 * max 1 ((8 * 1 + 7) / 8); decide,
    by show (1 : Nat) = 3 / (3 * max 1 ((8 * 1 + 7) / 8)); decide⟩

theorem pngAt_geometry (stage : Stage) (ft : Byte) (j : Word) (x cur : List Byte) : (pngAt stage ft j x cur).GeometryInv Params.default :=
  ⟨by show admitted .png (ops 1 8 3 8) Params.default = true; decide, by show (1 : Nat) = max 1 ((8 * 1 + 7) / 8); decide,
    by show (3 : Nat) = 3 * max 1 ((8 * 1 + 7) / 8); decide, by show (4 : Nat) = 3 * max 1 ((8 * 1 + 7) / 8) + 1; decide,
    by show (2 : Nat) = 8 / (3 * max 1 ((8 * 1 + 7) / 8) + 1); decide⟩

/-- At COLUMN 0 to 2 of the TIFF row. -/
theorem tiffAt_column_inv (j : Word) (cur : List Byte) (hj : j.toNat < 3) (hw : (tiffAt .column 0 j cur).memoriesWf = true) :
    (tiffAt .column 0 j cur).Inv :=
  ⟨hw, ⟨by simp [tiffAt, State.reset, Engine.reset], by simp [tiffAt, State.reset, Engine.reset], by simp [tiffAt]⟩, by simp [tiffAt],
    fun _ => ⟨rfl, rfl, tiffAt_geometry _ _ _ _,
      ⟨by show (0 : Nat) ≤ 1; decide, Nat.le_of_lt hj, fun _ => ⟨hj, by show (0 : Nat) < 1; decide⟩, by simp [tiffAt], by rfl, by simp [tiffAt]⟩⟩⟩

theorem tiffAt_commit_inv : (tiffAt .commit 0 3 [5, 15, 9]).Inv :=
  ⟨by decide, ⟨by simp [tiffAt, State.reset, Engine.reset], by simp [tiffAt, State.reset, Engine.reset], by simp [tiffAt]⟩, by simp [tiffAt],
    fun _ => ⟨rfl, rfl, tiffAt_geometry _ _ _ _,
      ⟨by decide, by decide, by simp [tiffAt], fun _ => by decide, by rfl, by simp [tiffAt]⟩⟩⟩

theorem tiffAt_rowstart_inv (i : Word) (hi : i = 0 ∨ i = 1) : (tiffAt .rowstart i 3 []).Inv := by
  rcases hi with rfl | rfl <;>
    exact ⟨by decide, ⟨by simp [tiffAt, State.reset, Engine.reset], by simp [tiffAt, State.reset, Engine.reset], by simp [tiffAt]⟩, by simp [tiffAt],
      fun _ => ⟨rfl, rfl, tiffAt_geometry _ _ _ _,
        ⟨by decide, by decide, by simp [tiffAt], by simp [tiffAt], by rfl, by simp [tiffAt]⟩⟩⟩

theorem pngAt_history (stage : Stage) (ft : Byte) (j : Word) (x cur : List Byte) (hf : stage ≠ .rowstart → ft.toNat ≤ 4) :
    (pngAt stage ft j x cur).HistoryInv :=
  ⟨hf, fun h => absurd h (by simp [pngAt]), fun _ => by
    show ∀ k, k < 3 → (bytes [10, 20, 30]).read k = (bytes [10, 20, 30]).read (0 * 3 + k)
    simp⟩

/-- At COLUMN 0 to 2 of the second row. -/
theorem pngAt_column_inv (ft : Byte) (j : Word) (x cur : List Byte) (hf : ft.toNat ≤ 4) (hj : j.toNat < 3)
    (hw : (pngAt .column ft j x cur).memoriesWf = true) : (pngAt .column ft j x cur).Inv :=
  ⟨hw, ⟨by simp [pngAt, State.reset, Engine.reset], by simp [pngAt, State.reset, Engine.reset], by simp [pngAt]⟩, by simp [pngAt],
    fun _ => ⟨by show (10 : Nat) ≤ 10; decide, pngAt_geometry _ _ _ _ _,
      ⟨by show (1 : Nat) ≤ 2; decide, Nat.le_of_lt hj, fun _ => ⟨hj, by show (1 : Nat) < 2; decide⟩, by simp [pngAt], by rfl, by simp [pngAt]⟩,
      pngAt_history _ _ _ _ _ (fun _ => hf)⟩⟩

theorem pngAt_commit_inv : (pngAt .commit 2 3 [1, 1, 1] [11, 21, 31]).Inv :=
  ⟨by decide, ⟨by simp [pngAt, State.reset, Engine.reset], by simp [pngAt, State.reset, Engine.reset], by simp [pngAt]⟩, by simp [pngAt],
    fun _ => ⟨by decide, pngAt_geometry _ _ _ _ _,
      ⟨by decide, by decide, by simp [pngAt], fun _ => by decide, by rfl, by simp [pngAt]⟩,
      pngAt_history _ _ _ _ _ (fun _ => by decide)⟩⟩

/-- At ROWSTART of the second row, whatever its filter type. -/
theorem pngAt_rowstart_inv (ft : Byte) (x : List Byte) (hw : (pngAt .rowstart ft 3 x []).memoriesWf = true) :
    (pngAt .rowstart ft 3 x []).Inv :=
  ⟨hw, ⟨by simp [pngAt, State.reset, Engine.reset], by simp [pngAt, State.reset, Engine.reset], by simp [pngAt]⟩, by simp [pngAt],
    fun _ => ⟨by show (10 : Nat) ≤ 10; decide, pngAt_geometry _ _ _ _ _,
      ⟨by show (1 : Nat) ≤ 2; decide, by show (3 : Nat) ≤ 3; decide, by simp [pngAt],
        by simp [pngAt], by rfl, by simp [pngAt]⟩,
      pngAt_history _ _ _ _ _ (fun h => absurd rfl h)⟩⟩

theorem pngEnd_inv : pngEnd.Inv :=
  ⟨by decide, ⟨by simp [pngEnd, pngAt, State.reset, Engine.reset], by simp [pngEnd, pngAt, State.reset, Engine.reset], by simp [pngEnd, pngAt]⟩,
    by simp [pngEnd, pngAt], fun _ => ⟨by show (10 : Nat) ≤ 10; decide,
      (pngAt_geometry .rowstart 0 3 [1, 1, 1] []).of_same rfl rfl ⟨rfl, rfl, rfl, rfl⟩,
      ⟨by show (2 : Nat) ≤ 2; decide, by show (3 : Nat) ≤ 3; decide, by simp [pngEnd, pngAt], by simp [pngEnd, pngAt], by rfl,
        by simp [pngEnd, pngAt]⟩,
      ⟨by simp [pngEnd, pngAt], by simp [pngEnd], fun _ => by
        show ∀ k, k < 3 → (bytes []).read k = (bytes [10, 20, 30]).read ((2 - 1) * 3 + k)
        decide⟩⟩⟩

/-! ## For every statement with hypotheses, states and operands that meet them, at the boundaries of each clause -/

theorem witness_DecodeOfEncodeIsTheInstruction :
    (Instr.predPng 10 (ops 1 8 3 8)).wf = true ∧ (Instr.predPng 4294967295 (ops 1 8 3 8)).wf = true
    ∧ (Instr.illegalPred 9 (ops 1 8 3 8)).wf = true ∧ (Instr.illegalFt 255).wf = true ∧ Instr.rowNone.wf = true := by decide

theorem witness_StepRunsTheDecodedInstruction :
    (∀ s ∈ [started 10 (ops 1 8 3 8) [], { started 0 (ops 0 0 0 0) [] with phase := .error }], s.phase ≠ .run ∧ s.start ≠ none)
    ∧ ((idAt 1 [9]).phase = .run ∧ (idAt 1 [9]).start = none ∧ (idAt 1 [9]).path = .id)
    ∧ ((tiffAt .column 0 0 []).phase = .run ∧ (tiffAt .column 0 0 []).start = none ∧ (tiffAt .column 0 0 []).path = .tiff)
    ∧ (pngEnd.phase = .run ∧ pngEnd.start = none ∧ pngEnd.path = .png ∧ pngEnd.stage = .rowstart ∧ pngEnd.i = pngEnd.nrows)
    ∧ (∀ s ∈ [pngAt .rowstart 2 3 [1, 1, 1] [], { pngAt .rowstart 7 3 [] [] with len := 5 }],
        s.phase = .run ∧ s.start = none ∧ s.path = .png ∧ s.stage = .rowstart ∧ s.i ≠ s.nrows
        ∧ s.i.toNat * s.rowsize.toNat < s.len.toNat)
    ∧ (∀ s ∈ [pngAt .column 2 0 [1, 1, 1] [], pngAt .commit 2 3 [1, 1, 1] []],
        s.phase = .run ∧ s.start = none ∧ s.path = .png ∧ s.stage ≠ .rowstart) := by decide

/-- PngPathRunsTheSelectedRowOperation: the PNG states of the witness before, whatever `start` is. -/
theorem witness_PngPathRunsTheSelectedRowOperation :
    (∀ s ∈ [pngEnd, pngAt .rowstart 2 3 [1, 1, 1] [], pngAt .column 2 0 [] [], pngAt .commit 2 3 [] []],
      s.phase = .run ∧ s.path = .png)
    ∧ (pngEnd.stage = .rowstart ∧ pngEnd.i = pngEnd.nrows)
    ∧ ((pngAt .rowstart 2 3 [1, 1, 1] []).stage = .rowstart ∧ (pngAt .rowstart 2 3 [1, 1, 1] []).i ≠ 2)
    ∧ (pngAt .column 2 0 [] []).stage ≠ .rowstart ∧ (pngAt .commit 2 3 [] []).stage ≠ .rowstart := by decide

theorem witness_ReadReturnsTheLatestWrite : Memory.wf [(1, 7), (5, 9)] = true ∧ Memory.wf [] = true := by decide

theorem witness_EqualReadsAreEqualMemories :
    Memory.wf (bytes [0, 7]) = true ∧ Memory.wf [(1, 7)] = true ∧ ∀ k, (bytes [0, 7]).read k = Memory.read [(1, 7)] k :=
  ⟨by decide, by decide, fun _ => rfl⟩

theorem witness_LookbackReadsZeroBeforeTheRow : (-1 : Int) < 0 ∧ (0 : Int) = (0 : Nat) ∧ (2 : Int) = (2 : Nat) := by decide

theorem witness_AccessesThatDoNotExistFault :
    (let s := idAt 4 []; s.phase = .run ∧ s.path = .id ∧ s.len.toNat < s.k.toNat)
    ∧ (let s := { idAt 2 [9, 8] with params := ⟨none, some 2⟩ }
       s.phase = .run ∧ s.path = .id ∧ s.k.toNat < s.len.toNat ∧ outCapacity s.params 32 ≤ s.k.toNat)
    ∧ (let s := tiffAt .column 1 0 []
       s.phase = .run ∧ s.path = .tiff ∧ s.stage = .column ∧ s.len.toNat ≤ s.i.toNat * s.stride.toNat + s.j.toNat)
    ∧ (let s := { tiffAt .column 0 3 [] with len := 4 }
       s.phase = .run ∧ s.path = .tiff ∧ s.stage = .column ∧ s.i.toNat * s.stride.toNat + s.j.toNat < s.len.toNat
       ∧ s.stride.toNat ≤ s.j.toNat)
    ∧ (let s := { tiffAt .commit 0 3 [] with params := ⟨none, some 2⟩ }
       s.phase = .run ∧ s.path = .tiff ∧ s.stage = .commit ∧ outCapacity s.params 32 < s.outLen.toNat + s.stride.toNat)
    ∧ (let s := pngAt .column 0 3 [] []
       s.phase = .run ∧ s.path = .png ∧ s.stage = .column ∧ s.len.toNat ≤ s.i.toNat * s.rowsize.toNat + 1 + s.j.toNat)
    ∧ (let s := { pngAt .column 0 3 [] [] with len := 9 }
       s.phase = .run ∧ s.path = .png ∧ s.stage = .column ∧ s.i.toNat * s.rowsize.toNat + 1 + s.j.toNat < s.len.toNat
       ∧ s.stride.toNat ≤ s.j.toNat)
    ∧ (let s := { pngAt .commit 0 3 [] [] with params := ⟨none, some 5⟩ }
       s.phase = .run ∧ s.path = .png ∧ s.stage = .commit ∧ outCapacity s.params 32 < s.outLen.toNat + s.stride.toNat) := by decide

/-- The distances of 43_png.md R115, for the two witnesses that follow. -/
def distances (a b c : Byte) : Nat × Nat × Nat :=
  let p : Int := (a.toNat : Int) + b.toNat - c.toNat
  ((p - a.toNat).natAbs, (p - b.toNat).natAbs, (p - c.toNat).natAbs)

/-- `a` is chosen at (5, 5, 5), `b` at (10, 20, 10), `c` at (10, 20, 15); (255, 255, 0) and (0, 0, 255) reach the ranges'
ends. -/
theorem witness_PaethSelectsByTheThreeDistances :
    distances 5 5 5 = (0, 0, 0) ∧ distances 10 20 10 = (10, 0, 10) ∧ distances 10 20 15 = (5, 5, 0)
    ∧ distances 255 255 0 = (255, 255, 510) ∧ distances 0 0 255 = (255, 255, 510) := by decide

/-- One triple for each of the seven rows of 43_png.md R116. -/
theorem witness_PaethBreaksTiesInOrder :
    distances 5 5 5 = (0, 0, 0) ∧ distances 10 10 0 = (10, 10, 20) ∧ distances 8 11 10 = (1, 2, 1)
    ∧ distances 11 8 10 = (2, 1, 1) ∧ distances 15 11 10 = (1, 5, 6) ∧ distances 11 15 10 = (5, 1, 6)
    ∧ distances 15 5 10 = (5, 5, 0) := by decide

theorem witness_TenSignedBitsAreEnoughForPaeth : 10 ≤ 10 ∧ 10 ≤ 11 := by decide

theorem witness_StartLoadsTheDerivedGeometry :
    State.reset.phase ≠ .run
    ∧ (∃ t, exec (decodeCfg ⟨2, ops 3 8 2 15⟩) State.reset = .next t ∧ t.path = .tiff)
    ∧ ∃ t, exec (decodeCfg ⟨10, ops 1 1 8 18⟩) State.reset = .next t ∧ t.path = .png :=
  ⟨by decide, ⟨_, rfl, rfl⟩, ⟨_, rfl, rfl⟩⟩

/-- The domain's edges: MAX_STRIDE equal to STRIDE admits and one less refuses, and so MAX_OUT. -/
theorem witness_AdmittedExactlyInsideTheDomain :
    (ops 1 8 3 6).bpc.toNat = 8
    ∧ [admitted .tiff (ops 1 8 3 6) ⟨some 3, some 6⟩, admitted .tiff (ops 1 8 3 6) ⟨some 2, some 6⟩,
        admitted .tiff (ops 1 8 3 6) ⟨some 3, some 5⟩, admitted .png (ops 1 16 3 7) ⟨none, none⟩,
        admitted .png (ops 1 3 3 7) ⟨none, none⟩, admitted .png (ops 1 8 4294967295 7) ⟨none, none⟩]
      = [true, false, false, true, false, false]
    ∧ (⟨1, 8, 3, 6⟩ : CfgOpsOf 5 4).bpc.toNat = 8
    ∧ [admitted .png (⟨1, 8, 14, 15⟩ : CfgOpsOf 5 4) ⟨none, none⟩, admitted .png (⟨1, 8, 15, 15⟩ : CfgOpsOf 5 4) ⟨none, none⟩]
      = [true, false]
    ∧ [admittedIdentity (ops 0 0 0 5) ⟨none, some 5⟩, admittedIdentity (ops 0 0 0 5) ⟨none, some 4⟩] = [true, false] := by
  decide

theorem witness_StartIdentityRuns :
    State.reset.phase ≠ .run ∧ admittedIdentity (ops 0 3 0 5) State.reset.params = true
    ∧ pngEnd.phase = .run ∧ ({ pngEnd with phase := .done } : State).phase ≠ .run := by decide

theorem witness_StartTiffRuns :
    State.reset.phase ≠ .run ∧ (ops 1 8 1 0).bpc.toNat = 8 ∧ admitted .tiff (ops 1 8 1 0) State.reset.params = true := by decide

theorem witness_StartPngRuns :
    ∀ s ∈ [State.reset, { pngEnd with phase := .done, prev := bytes [1, 2, 3, 4] }],
      s.memoriesWf = true ∧ s.phase ≠ .run ∧ admitted .png (ops 1 8 3 8) s.params = true := by decide

theorem witness_TiffRejectsOtherBitDepths :
    State.reset.phase ≠ .run ∧ (ops 0 0 0 0).bpc.toNat ≠ 8 ∧ (ops 1 16 3 0).bpc.toNat ≠ 8 := by decide

theorem witness_IllegalPredictorIsRejected : State.reset.phase ≠ .run ∧ (Instr.illegalPred 3 (ops 1 4 3 0)).wf = true := by decide

theorem witness_OutsideTheDomainIsRefused :
    State.reset.phase ≠ .run ∧ ({ State.reset with params := ⟨none, some 4⟩ } : State).phase ≠ .run
    ∧ admittedIdentity (ops 0 0 0 5) ⟨none, some 4⟩ = false
    ∧ ((ops 1 8 0 3).bpc.toNat = 8 ∧ admitted .tiff (ops 1 8 0 3) State.reset.params = false)
    ∧ admitted .png (ops 0 8 3 8) State.reset.params = false := by decide

/-- A START pending in each phase; RUN states without one and with one, each with operands or a PRED that differ in one
place from the invocation in progress. -/
theorem witness_StartIsLegalOutsideRunOnly :
    (∀ p ∈ [Phase.idle, .done, .error, .run],
      ({ State.reset with phase := p, start := some ⟨10, ops 1 8 3 8⟩ } : State).start = some ⟨10, ops 1 8 3 8⟩)
    ∧ (∀ s ∈ [pngAt .column 2 0 [] [], { pngAt .column 2 0 [] [] with start := some ⟨10, ops 1 8 3 8⟩ }],
        s.phase = .run ∧ s.path ≠ .id ∧ s.path ≠ .tiff ∧ s.cfgOps ≠ ops 1 8 3 9
        ∧ (s.path = .png ∧ s.cfgOps = ops 1 8 3 8 ∧ s.pred ≠ 11))
    ∧ ((idAt 1 [9]).phase = .run ∧ (idAt 1 [9]).path = .id ∧ (idAt 1 [9]).cfgOps ≠ ops 0 0 0 4)
    ∧ (let s := tiffAt .column 0 0 []
       s.phase = .run ∧ s.path = .tiff ∧ s.path ≠ .png ∧ s.cfgOps ≠ ops 2 8 3 3) := by decide

theorem witness_IdentityStepCopiesOneByte :
    ((idAt 0 []).Inv ∧ (idAt 0 []).phase = .run ∧ (idAt 0 []).path = .id ∧ (idAt 0 []).k ≠ (idAt 0 []).len)
    ∧ (idAt 3 [9, 8, 7]).Inv ∧ (idAt 3 [9, 8, 7]).k = (idAt 3 [9, 8, 7]).len :=
  ⟨⟨idAt_inv _ _ (by decide) (by decide), rfl, rfl, by decide⟩, idAt_inv _ _ (by decide) (by decide), rfl⟩

theorem witness_TiffRowstartBeginsARowOrEnds :
    ∀ s ∈ [tiffAt .rowstart 0 3 [], tiffAt .rowstart 1 3 []], s.phase = .run ∧ s.path = .tiff ∧ s.stage = .rowstart := by
  decide

/-- The first column, where the left neighbour is 0, and the last, which leads to COMMIT. -/
theorem witness_TiffColumnAccumulates : (tiffAt .column 0 0 []).Inv ∧ (tiffAt .column 0 2 [5, 15]).Inv
    ∧ (tiffAt .column 0 2 [5, 15]).phase = .run ∧ (tiffAt .column 0 2 [5, 15]).path = .tiff :=
  ⟨tiffAt_column_inv _ _ (by decide) (by decide), tiffAt_column_inv _ _ (by decide) (by decide), rfl, rfl⟩

theorem witness_TiffCommitAppendsTheRow : (tiffAt .commit 0 3 [5, 15, 9]).Inv
    ∧ (tiffAt .commit 0 3 [5, 15, 9]).phase = .run ∧ (tiffAt .commit 0 3 [5, 15, 9]).path = .tiff :=
  ⟨tiffAt_commit_inv, rfl, rfl⟩

/-- No row left, the last legal filter type, the first illegal one. -/
theorem witness_PngRowstartFetchesTheFilterType :
    pngEnd.Inv ∧ (pngAt .rowstart 4 3 [1, 1, 1] []).Inv ∧ (pngAt .rowstart 5 3 [1, 1, 1] []).Inv
    ∧ ∀ s ∈ [pngEnd, pngAt .rowstart 4 3 [1, 1, 1] [], pngAt .rowstart 5 3 [1, 1, 1] []],
      s.start = none ∧ s.phase = .run ∧ s.path = .png ∧ s.stage = .rowstart :=
  ⟨pngEnd_inv, pngAt_rowstart_inv _ _ (by decide), pngAt_rowstart_inv _ _ (by decide), by decide⟩

theorem witness_RowOperationsBeginTheirRow :
    let s := pngAt .rowstart 4 3 [1, 1, 1] []
    s.phase = .run ∧ s.path = .png ∧ s.stage = .rowstart ∧ s.i ≠ s.nrows := by decide

/-- For RowNoneColumn, RowSubColumn, RowUpColumn, RowAvgColumn, RowPaethColumn: a first and a last column, with the
filter type of each. -/
theorem witness_RowColumns (ft : Byte) (h : ft = 0 ∨ ft = 1 ∨ ft = 2 ∨ ft = 3 ∨ ft = 4) :
    ((pngAt .column ft 0 [1, 1, 1] []).Inv ∧ (pngAt .column ft 0 [1, 1, 1] []).phase = .run
      ∧ (pngAt .column ft 0 [1, 1, 1] []).path = .png)
    ∧ (pngAt .column ft 2 [1, 1, 1] [11, 21]).Inv := by
  rcases h with rfl | rfl | rfl | rfl | rfl <;>
    exact ⟨⟨pngAt_column_inv _ _ _ _ (by decide) (by decide) (by decide), rfl, rfl⟩,
      pngAt_column_inv _ _ _ _ (by decide) (by decide) (by decide)⟩

theorem witness_PngCommitAppendsAndKeepsTheRow :
    let s := pngAt .commit 2 3 [1, 1, 1] [11, 21, 31]
    s.Inv ∧ s.phase = .run ∧ s.path = .png ∧ s.stage = .commit :=
  ⟨pngAt_commit_inv, rfl, rfl, rfl⟩

theorem witness_IllegalFilterTypeIsRejected :
    let s := pngAt .rowstart 5 3 [1, 1, 1] []
    s.phase = .run ∧ s.path = .png ∧ s.stage = .rowstart ∧ s.i ≠ s.nrows := by decide

theorem witness_RowOperationsNeedAnEnabledStep :
    State.reset.phase ≠ .run ∧ (tiffAt .column 0 0 []).path ≠ .png ∧ (pngEnd.stage = .rowstart ∧ pngEnd.i = pngEnd.nrows)
    ∧ (pngAt .column 2 0 [] []).stage ≠ .rowstart := by decide

theorem witness_RowOperationFrame :
    (∃ t, exec .rowUp (pngAt .rowstart 2 3 [1, 1, 1] []) = .next t)
    ∧ (∃ t, exec .rowAvg (pngAt .column 3 0 [1, 1, 1] []) = .next t)
    ∧ (∃ t, exec .rowPaeth (pngAt .commit 4 3 [1, 1, 1] [11, 21, 31]) = .next t)
    ∧ ∀ s ∈ [pngAt .rowstart 2 3 [1, 1, 1] [], pngAt .column 3 0 [1, 1, 1] [], pngAt .commit 4 3 [1, 1, 1] [11, 21, 31]],
      s.memoriesWf = true :=
  ⟨⟨_, rfl⟩, ⟨_, rfl⟩, ⟨_, rfl⟩, by decide⟩

theorem witness_TiffFrame :
    (∃ t, exec (.predTiff (ops 1 8 3 3)) State.reset = .next t) ∧ (∃ t, exec (.predTiff (ops 1 4 3 3)) State.reset = .next t)
    ∧ (∃ t, exec (.predTiff (ops 1 8 3 3)) (tiffAt .rowstart 0 3 []) = .next t)
    ∧ (∃ t, exec (.predTiff (ops 1 8 3 3)) (tiffAt .column 0 0 []) = .next t)
    ∧ (∃ t, exec (.predTiff (ops 1 8 3 3)) (tiffAt .commit 0 3 [5, 15, 9]) = .next t)
    ∧ ∀ s ∈ [State.reset, tiffAt .rowstart 0 3 [], tiffAt .column 0 0 [], tiffAt .commit 0 3 [5, 15, 9]], s.memoriesWf = true :=
  ⟨⟨_, rfl⟩, ⟨_, rfl⟩, ⟨_, rfl⟩, ⟨_, rfl⟩, ⟨_, rfl⟩, by decide⟩

theorem witness_IdentityFrame :
    (∃ t, exec (.predNone (ops 0 3 0 5)) State.reset = .next t) ∧ (∃ t, exec (.predNone (ops 0 0 0 3)) (idAt 0 []) = .next t)
    ∧ (∃ t, exec (.predNone (ops 0 0 0 3)) (idAt 3 [9, 8, 7]) = .next t)
    ∧ ∀ s ∈ [State.reset, idAt 0 [], idAt 3 [9, 8, 7]], s.memoriesWf = true :=
  ⟨⟨_, rfl⟩, ⟨_, rfl⟩, ⟨_, rfl⟩, by decide⟩

theorem witness_PngFrame :
    (∃ t, exec (.predPng 10 (ops 1 8 3 8)) State.reset = .next t)
    ∧ (∃ t, exec (.predPng 10 (ops 1 8 3 8)) pngEnd = .next t)
    ∧ (∃ t, exec (.predPng 10 (ops 1 8 3 8)) (pngAt .rowstart 7 3 [1, 1, 1] []) = .next t)
    ∧ (∃ t, exec (.predPng 10 (ops 1 8 3 8)) (pngAt .column 2 0 [1, 1, 1] []) = .next t)
    ∧ (∃ t, exec (.predPng 10 (ops 1 8 3 8)) (pngAt .commit 2 3 [1, 1, 1] [11, 21, 31]) = .next t)
    ∧ ∀ s ∈ [State.reset, pngEnd, pngAt .rowstart 7 3 [1, 1, 1] [], pngAt .column 2 0 [1, 1, 1] [],
        pngAt .commit 2 3 [1, 1, 1] [11, 21, 31]], s.memoriesWf = true :=
  ⟨⟨_, rfl⟩, ⟨_, rfl⟩, ⟨_, rfl⟩, ⟨_, rfl⟩, ⟨_, rfl⟩, by decide⟩

theorem witness_ErrorEntryFrame :
    (∃ t, exec (.illegalPred 5 (ops 1 4 3 0)) State.reset = .next t)
    ∧ ∃ t, exec (.illegalFt 7) (pngAt .rowstart 7 3 [1, 2, 3] []) = .next t :=
  ⟨⟨_, rfl⟩, ⟨_, rfl⟩⟩

theorem reset_inv : State.reset.Inv :=
  ⟨rfl, ⟨by simp [State.reset, Engine.reset], by simp [State.reset, Engine.reset], by simp [State.reset, Engine.reset]⟩,
    by simp [State.reset, Engine.reset], by simp [State.reset, Engine.reset]⟩

/-- The identity path of an engine with W_CFG = 5 and W_LEN = 4, at K = 0. -/
def smallIdentity : Engine 5 4 := { Engine.reset with pred := 1, len := 3, phase := .run, path := .id }

/-- The last clauses of StepKeepsTheInvariant and OnlyStartIsRefusedAndNothingFaults: an engine of other widths that meets
the invariant and takes a step, and one that takes a START. -/
theorem witness_engines_of_other_widths :
    (smallIdentity.Inv Params.default ∧ ∃ u, engineStep Params.default smallIdentity = .next u)
    ∧ (Engine.reset : Engine 5 4).Inv Params.default ∧ ∃ u, smallStart 14 = .next u :=
  ⟨⟨⟨rfl, ⟨by simp [smallIdentity, Engine.reset], by simp [smallIdentity, Engine.reset], by simp [smallIdentity]⟩,
      by simp [smallIdentity], fun _ => ⟨rfl, rfl, by decide, rfl, by simp [smallIdentity]⟩⟩, _, rfl⟩,
    ⟨rfl, ⟨by simp [Engine.reset], by simp [Engine.reset], by simp [Engine.reset]⟩, by simp [Engine.reset],
      by simp [Engine.reset]⟩, _, rfl⟩

/-- A START, a step in progress, and the host's moves, from states that meet the invariant. -/
theorem witness_StepKeepsTheInvariant :
    ((started 10 (ops 1 8 3 8) []).Inv ∧ ∃ t, step (started 10 (ops 1 8 3 8) []) = .next t)
    ∧ (pngAt .commit 2 3 [1, 1, 1] [11, 21, 31]).Inv ∧ (∃ t, step (pngAt .commit 2 3 [1, 1, 1] [11, 21, 31]) = .next t)
    ∧ (∃ t, State.reset.place [1, 0] = .next t) ∧ (∃ t, State.reset.present ⟨10, ops 1 8 3 8⟩ = .next t)
    ∧ ∃ u, (Engine.reset : Engine 5 4).place [1, 0] = .next u :=
  ⟨⟨⟨rfl, ⟨by simp [started, State.reset, Engine.reset], by simp [started, State.reset, Engine.reset],
      by simp [started, State.reset, Engine.reset]⟩, by simp [started, State.reset, Engine.reset],
      by simp [started, State.reset, Engine.reset]⟩, _, rfl⟩, pngAt_commit_inv, ⟨_, rfl⟩, ⟨_, rfl⟩, ⟨_, rfl⟩, _, rfl⟩

/-- OnlyStartIsRefusedAndNothingFaults: an invariant state in RUN without a START, one with, and a refused START. -/
theorem witness_OnlyStartIsRefusedAndNothingFaults :
    (pngEnd.Inv ∧ pngEnd.phase = .run ∧ pngEnd.start = none)
    ∧ (let s := { pngEnd with start := some ⟨1, ops 0 0 0 0⟩ }; s.Inv ∧ step s = .refused .startWhileRunning)
    ∧ step (started 10 (ops 0 0 0 0) []) = .refused .outsideDomain :=
  ⟨⟨pngEnd_inv, rfl, rfl⟩, ⟨⟨pngEnd_inv.memories, ⟨pngEnd_inv.status.1, pngEnd_inv.status.2, pngEnd_inv.status.3⟩,
    pngEnd_inv.idle, fun _ =>
      let ⟨h1, h2, h3, h4⟩ := pngEnd_inv.png (.inl rfl) rfl
      ⟨h1, h2.of_same rfl rfl ⟨rfl, rfl, rfl, rfl⟩, ⟨h3.1, h3.2, h3.3, h3.4, h3.5, h3.6⟩, ⟨h4.1, h4.2, h4.3⟩⟩⟩, rfl⟩, rfl⟩

/-- A step in progress and a START; a state in RUN, one with a START pending, and states outside an invocation. -/
theorem witness_OnlyStartWritesConfigurationAndGeometry :
    (∃ t, step (tiffAt .column 0 0 []) = .next t) ∧ (tiffAt .column 0 0 []).start = none
    ∧ (∃ t, step (started 2 (ops 1 8 3 3) []) = .next t)
    ∧ (idAt 1 [9]).phase = .run ∧ (started 1 (ops 0 0 0 3) []).start ≠ none
    ∧ (∀ s ∈ [State.reset, { idAt 3 [9, 8, 7] with phase := .done }], s.phase ≠ .run ∧ s.start = none ∧ s.inMem.wf = true)
    ∧ smallIdentity.phase = .run ∧ (Engine.reset : Engine 5 4).phase ≠ .run ∧ (Engine.reset : Engine 5 4).inMem.wf = true :=
  ⟨⟨_, rfl⟩, rfl, ⟨_, rfl⟩, rfl, by decide, by decide, rfl, by decide, rfl⟩

theorem witness_HistoryIsWrittenOnlyByStartAndCommit :
    (let s := { started 10 (ops 1 8 3 8) [] with prev := bytes [1, 2] }; ∃ t, step s = .next t ∧ t.prev ≠ s.prev)
    ∧ let s := pngAt .commit 2 3 [1, 1, 1] [11, 21, 31]; ∃ t, step s = .next t ∧ t.prev ≠ s.prev :=
  ⟨⟨_, rfl, by decide⟩, ⟨_, rfl, by decide⟩⟩

theorem witness_OutputIsOnlyAppendedTo :
    ((pngAt .commit 2 3 [1, 1, 1] [11, 21, 31]).Inv ∧ ∃ t, step (pngAt .commit 2 3 [1, 1, 1] [11, 21, 31]) = .next t
      ∧ t.phase ≠ .error)
    ∧ (pngAt .rowstart 7 3 [1, 1, 1] []).Inv ∧ ∃ t, step (pngAt .rowstart 7 3 [1, 1, 1] []) = .next t ∧ t.phase = .error :=
  ⟨⟨pngAt_commit_inv, _, rfl, by decide⟩, pngAt_rowstart_inv _ _ (by decide), _, rfl, rfl⟩

theorem witness_PhaseTransitions :
    (∃ t, step pngEnd = .next t ∧ pngEnd.phase = .run)
    ∧ (∃ t, step (started 5 (ops 1 8 3 0) []) = .next t ∧ (started 5 (ops 1 8 3 0) []).start ≠ none)
    ∧ ∃ t, step State.reset = .next t ∧ State.reset.start = none :=
  ⟨⟨_, rfl, rfl⟩, ⟨_, rfl, by decide⟩, ⟨_, rfl, rfl⟩⟩

/-- The hypothesis is met by a state no run reaches. -/
theorem witness_NotImplementedIsNeverRaised :
    let s : State := { State.reset with err := some .notImplemented }
    ∃ t, step s = .next t ∧ t.err = some .notImplemented := ⟨_, rfl, rfl⟩

theorem witness_ErrorsAreRaisedWhereTheSpecSays :
    ∀ s ∈ [started 9 (ops 1 8 3 0) [], started 2 (ops 1 16 3 0) [], pngAt .rowstart 5 3 [1, 1, 1] []],
      s.phase ≠ .error ∧ (stateOf (step s)).map (fun t => t.phase) = some .error := by decide

/-- One configuration of each class the spec does not refuse, LEN 0 among them. -/
theorem witness_Begins :
    (started 1 (ops 0 3 0 5) [7, 1, 2, 3, 255]).Begins ⟨1, ops 0 3 0 5⟩
    ∧ (started 2 (ops 1 8 3 0) []).Begins ⟨2, ops 1 8 3 0⟩
    ∧ (started 10 (ops 1 8 3 8) [0, 10, 20, 30, 7, 1, 1, 1]).Begins ⟨10, ops 1 8 3 8⟩
    ∧ (started 2 (ops 0 4 0 0) []).Begins ⟨2, ops 0 4 0 0⟩ ∧ (started 9 (ops 0 4 0 0) []).Begins ⟨9, ops 0 4 0 0⟩ :=
  ⟨⟨by decide, by decide, rfl, by decide⟩, ⟨by decide, by decide, rfl, by decide⟩, ⟨by decide, by decide, rfl, by decide⟩,
    ⟨by decide, by decide, rfl, by decide⟩, ⟨by decide, by decide, rfl, by decide⟩⟩

/-- The second clause of InvocationComputesTheReference. -/
theorem witness_refused_configuration :
    let s := started 2 (ops 1 8 0 3) []
    s.phase ≠ .run ∧ s.start = some ⟨2, ops 1 8 0 3⟩ ∧ refusedAtStart ⟨2, ops 1 8 0 3⟩ s.params = true := by decide

/-- The last clause of InvocationComputesTheReference, at other widths and with capacities that are just met. -/
theorem witness_invocation_of_other_widths :
    (Engine.reset : Engine 5 4).memoriesWf = true ∧ (Engine.reset : Engine 5 4).phase ≠ .run
    ∧ refusedAtStart (⟨10, ⟨1, 8, 14, 15⟩⟩ : CfgOf 5 4) ⟨some 14, some 14⟩ = false := by decide

/-- ResultDependsOnConfigurationAndInputOnly: a second state that differs in what an earlier invocation left. -/
theorem witness_ResultDependsOnConfigurationAndInputOnly :
    let s := started 10 (ops 1 8 3 8) [0, 10, 20, 30]
    let s' := { s with phase := .done, prev := bytes [1, 2], cur := bytes [3], ft := 9, outLen := 4, bpp := 7 }
    s'.Begins ⟨10, ops 1 8 3 8⟩ ∧ s.params = s'.params ∧ (∀ k, k < 8 → s.inMem.read k = s'.inMem.read k) ∧ s ≠ s'
    ∧ (∃ t, Host.Core.run Sys2Proof.core 1 s = .next t) ∧ ∃ t, Host.Core.run Sys2Proof.core 1 s' = .next t :=
  ⟨⟨by decide, by decide, rfl, by decide⟩, rfl, fun _ _ => rfl, by decide, ⟨_, rfl⟩, ⟨_, rfl⟩⟩

theorem witness_TiffRowIsARunningSumPerLane : (1 : Nat) ≤ 1 ∧ (1 : Nat) ≤ 3 ∧ tiffRow 1 [5, 10, 250] = [5, 15, 9] := by decide

theorem witness_PngRowClosedForm :
    (1 : Nat) ≤ 2 ∧ (4 : Byte).toNat ≤ 4 ∧ (0 : Byte).toNat ≤ 4 ∧ pngRow 1 4 [0, 5] [10, 20] = [10, 25] := by decide

end Sys2Proof.Tests
end

-- The state's invariants and phases: family 10_state.md
section
/-! Proofs. The invariant at reset and under every step and host move, who writes the configuration and geometry, the
transitions of PHASE, and the status codes (10_state.md). -/

namespace Sys2Proof.Machine

variable {wCfg wLen : Nat} {p : Params} {e u : Engine wCfg wLen}

/-! ## Canonical memories under each update -/

theorem Engine.clearPrev_memoriesWf (h : e.memoriesWf = true) (n : Nat) : (e.clearPrev n).memoriesWf = true := by
  obtain ⟨hprev, hcur, hin, hout⟩ := memoriesWf_iff.1 h
  exact memoriesWf_iff.2 ⟨Memory.clearBelow_wf n hprev, hcur, hin, hout⟩

theorem Engine.copyByte_memoriesWf (h : e.memoriesWf = true) (v : Byte) : (e.copyByte v).memoriesWf = true := by
  obtain ⟨hprev, hcur, hin, hout⟩ := memoriesWf_iff.1 h
  exact memoriesWf_iff.2 ⟨hprev, hcur, hin, Memory.write_wf _ _ hout⟩

theorem Engine.putColumn_memoriesWf (h : e.memoriesWf = true) (v : Byte) : (e.putColumn v).memoriesWf = true := by
  obtain ⟨hprev, hcur, hin, hout⟩ := memoriesWf_iff.1 h
  exact memoriesWf_iff.2 ⟨hprev, Memory.write_wf _ _ hcur, hin, hout⟩

theorem Engine.appendRow_memoriesWf (h : e.memoriesWf = true) : e.appendRow.memoriesWf = true := by
  obtain ⟨hprev, hcur, hin, hout⟩ := memoriesWf_iff.1 h
  exact memoriesWf_iff.2 ⟨hprev, hcur, hin, Memory.copyRow_wf _ _ hout _⟩

theorem Engine.keepRow_memoriesWf (h : e.memoriesWf = true) : e.keepRow.memoriesWf = true := by
  obtain ⟨hprev, hcur, hin, hout⟩ := memoriesWf_iff.1 h
  exact memoriesWf_iff.2 ⟨Memory.copyRow_wf _ _ hprev _, hcur, hin, hout⟩

theorem pathStep_memoriesWf (hm : e.memoriesWf = true) (h : pathStep p e = .next u) : u.memoriesWf = true := by
  cases hp : e.path with
  | none => simp [pathStep, hp] at h
  | id =>
    simp only [pathStep, hp] at h
    obtain ⟨-, rfl⟩ | ⟨-, -, -, rfl⟩ := identityStep_eq_next.1 h
    · exact hm
    · exact Engine.copyByte_memoriesWf hm _
  | tiff =>
    simp only [pathStep, hp] at h
    obtain ⟨-, -, rfl⟩ | ⟨-, -, rfl⟩ | ⟨-, -, -, rfl⟩ | ⟨-, -, rfl⟩ := tiffStep_eq_next.1 h
    · exact hm
    · exact hm
    · exact Engine.putColumn_memoriesWf hm _
    · exact Engine.appendRow_memoriesWf hm
  | png =>
    simp only [pathStep, hp] at h
    obtain ⟨-, -, rfl⟩ | ⟨-, -, -, -, rfl⟩ | ⟨-, -, -, -, rfl⟩ | ⟨-, -, -, -, rfl⟩ | ⟨-, -, -, rfl⟩ := pngStep_cases h
    · exact hm
    · exact hm
    · exact hm
    · exact Engine.putColumn_memoriesWf hm _
    · exact Engine.keepRow_memoriesWf (Engine.appendRow_memoriesWf hm)

/-! ## What PATH promises, path by path -/

theorem Engine.pathInv_of_id (hp : e.path = .id) : e.PathInv p ↔ e.IdentityInv p := by
  simp only [Engine.PathInv, hp]

theorem Engine.pathInv_of_tiff (hp : e.path = .tiff) :
    e.PathInv p ↔ e.pred.toNat = 2 ∧ e.bpc.toNat = 8 ∧ e.GeometryInv p ∧ e.RowInv := by
  simp only [Engine.PathInv, hp]

theorem Engine.pathInv_of_png (hp : e.path = .png) :
    e.PathInv p ↔ 10 ≤ e.pred.toNat ∧ e.GeometryInv p ∧ e.RowInv ∧ e.HistoryInv := by
  simp only [Engine.PathInv, hp]

/-! ## An invocation in progress, complete, or ended by an error -/

/-- In RUN and DONE the invariant is what PATH promises, with canonical memories and no error kind held. -/
theorem Engine.Inv.of_pathInv (hm : e.memoriesWf = true) (hr : e.phase = .run ∨ e.phase = .done) (he : e.err = none)
    (hp : e.PathInv p) : e.Inv p := by
  refine ⟨hm, ⟨?_, ?_, ?_⟩, ?_, fun _ => hp⟩ <;> rcases hr with hr | hr <;> simp [hr, he]

/-- Error entry leaves the invariant whatever the registers held (60_exceptions.md R136). -/
theorem Engine.Inv.raise (hm : e.memoriesWf = true) {kind : ErrorKind} (hk : kind ≠ .notImplemented) :
    (e.raise kind).Inv p := by
  refine ⟨hm, ⟨?_, ?_, ?_⟩, ?_, ?_⟩ <;> simp [hk]

/-! ## START leaves the invariant -/

/-- A register loaded with a value that fits holds it. -/
theorem toNat_register_of_lt {n : Nat} (h : n < 2 ^ wLen) : (BitVec.ofNat wLen n).toNat = n := by
  rw [BitVec.toNat_ofNat, Nat.mod_eq_of_lt h]

/-- The registers START loads hold the derived geometry of a configuration inside the domain (40_geometry.md R75). -/
theorem Engine.GeometryInv.of_start {path : Path} {c : CfgOf wCfg wLen} (h : admitted path c.ops p = true)
    (e : Engine wCfg wLen) : (((e.beginStart c).setGeometry (geometry path c.ops)).runPath path).GeometryInv p := by
  obtain ⟨hbpp, hstride, hrowsize, hnrows⟩ := geometry_lt h
  exact ⟨h, toNat_register_of_lt hbpp, toNat_register_of_lt hstride, toNat_register_of_lt hrowsize,
    toNat_register_of_lt hnrows⟩

/-- The row loop's facts before row 0. -/
theorem Engine.RowInv.of_first_row (hi : e.i = 0) (hj : e.j = 0) (hs : e.stage = .rowstart) (ho : e.outLen = 0)
    (hr : e.phase = .run) : e.RowInv := by
  constructor <;> simp [hi, hj, hs, ho, hr]

/-- Before row 0 the zero fill of START is the history (20_memory.md R41). -/
theorem Engine.HistoryInv.of_start (hm : e.memoriesWf = true) {c : CfgOf wCfg wLen} (h : admitted .png c.ops p = true) :
    ((((e.beginStart c).setGeometry (geometry .png c.ops)).clearPrev (geometry .png c.ops).stride).runPath .png).HistoryInv := by
  have hstride := toNat_register_of_lt (geometry_lt h).2.1
  refine ⟨by simp, fun _ k hk => ?_, by simp⟩
  have hk' : k < (geometry .png c.ops).stride := by simpa only [Engine.runPath_stride, Engine.clearPrev_stride,
    Engine.setGeometry_stride, hstride] using hk
  exact (Memory.read_clearBelow (memoriesWf_iff.1 hm).1 _ k).trans (if_pos hk')

theorem engineStart_inv (hm : e.memoriesWf = true) {c : CfgOf wCfg wLen} (h : engineStart p c e = .next u) : u.Inv p := by
  obtain ⟨-, ⟨hpred, hroom, rfl⟩ | ⟨hpred, hbpc, had, rfl⟩ | ⟨-, -, rfl⟩ | ⟨hpred, had, rfl⟩ | ⟨-, rfl⟩⟩ := engineStart_cases h
  · refine .of_pathInv hm (.inl rfl) rfl ((Engine.pathInv_of_id rfl).2 ?_)
    exact ⟨hpred, hroom, by simp, rfl, by simp⟩
  · refine .of_pathInv hm (.inl rfl) rfl ((Engine.pathInv_of_tiff rfl).2 ?_)
    exact ⟨hpred, hbpc, .of_start had e, .of_first_row rfl rfl rfl rfl rfl⟩
  · exact Engine.Inv.raise (e := e.beginStart c) hm (by simp)
  · refine .of_pathInv (Engine.clearPrev_memoriesWf hm _) (.inl rfl) rfl ((Engine.pathInv_of_png rfl).2 ?_)
    exact ⟨hpred, (Engine.GeometryInv.of_start had e).of_same rfl rfl ⟨rfl, rfl, rfl, rfl⟩,
      .of_first_row rfl rfl rfl rfl rfl, .of_start hm had⟩
  · exact Engine.Inv.raise (e := e.beginStart c) hm (by simp)

/-! ## A step in progress keeps what PATH promises -/

theorem identityStep_identityInv (hi : e.IdentityInv p) (hr : e.phase = .run) (h : identityStep p e = .next u) :
    u.IdentityInv p := by
  obtain ⟨hk, rfl⟩ | ⟨-, hk, -, rfl⟩ := identityStep_eq_next.1 h
  · exact ⟨hi.code, hi.room, hi.atMostLen, hi.outIsK, fun _ => hk⟩
  · refine ⟨hi.code, hi.room, ?_, ?_, by simp [hr]⟩
    · simp only [Engine.copyByte_k, Engine.copyByte_len, toNat_add_one hk]
      omega
    · simp only [Engine.copyByte_outLen, Engine.copyByte_k, hi.outIsK]

theorem Engine.RowInv.finish (hr : e.RowInv) (hs : e.stage = .rowstart) (hi : e.i = e.nrows) : e.finish.RowInv :=
  ⟨hr.rowBound, hr.columnBound, hr.inColumn, hr.inCommit, hr.outIsRows, fun _ => ⟨hs, hi⟩⟩

theorem Engine.RowInv.beginRow (hg : e.GeometryInv p) (hr : e.RowInv) (hi : e.i ≠ e.nrows) (hp : e.phase = .run) :
    e.beginRow.RowInv := by
  refine ⟨hr.rowBound, by simp, fun _ => ⟨?_, hr.row_lt hi⟩, by simp, hr.outIsRows, by simp [hp]⟩
  obtain ⟨-, -, hstride, -⟩ := hg.bounds
  simpa using Nat.lt_of_succ_le hstride

theorem tiffStep_rowInv (hg : e.GeometryInv p) (hr : e.RowInv) (hrun : e.phase = .run) (h : tiffStep p e = .next u) :
    u.RowInv := by
  obtain ⟨hs, hi, rfl⟩ | ⟨-, hi, rfl⟩ | ⟨hs, -, -, rfl⟩ | ⟨hs, -, rfl⟩ := tiffStep_eq_next.1 h
  · exact hr.finish hs hi
  · exact hr.beginRow hg hi hrun
  · exact hr.putColumn hs hrun _
  · exact hr.appendRow hg hs hrun

/-- FT and PREV do not enter the row loop's facts. -/
theorem Engine.RowInv.of_setFilter_beginRow (h : e.beginRow.RowInv) (t : Byte) : (e.setFilter t).beginRow.RowInv :=
  ⟨h.rowBound, h.columnBound, h.inColumn, h.inCommit, h.outIsRows, h.doneAtEnd⟩

theorem Engine.RowInv.keepRow (h : e.RowInv) : e.keepRow.RowInv :=
  ⟨h.rowBound, h.columnBound, h.inColumn, h.inCommit, h.outIsRows, h.doneAtEnd⟩

/-- Copying the row that was appended to OUT into PREV makes it the history of the next row (43_png.md R120). -/
theorem Engine.HistoryInv.commit (hm : e.memoriesWf = true) (hr : e.RowInv) (hs : e.stage = .commit) :
    e.appendRow.keepRow.HistoryInv := by
  obtain ⟨hprev, -, -, hout⟩ := memoriesWf_iff.1 hm
  have hi : (e.i + 1).toNat = e.i.toNat + 1 := toNat_add_one (hr.inCommit hs).2
  refine ⟨by simp, fun h0 => ?_, fun _ k hk => ?_⟩
  · simp only [Engine.keepRow_i, Engine.appendRow_i, hi] at h0
    cases h0
  replace hk : k < e.stride.toNat := hk
  have hrow : (e.prev.copyRow 0 e.cur e.stride.toNat).read k = e.cur.read k := by
    rw [Memory.read_copyRow 0 e.cur hprev, if_pos (by omega), Nat.sub_zero]
  have happended : (e.outMem.copyRow e.outLen.toNat e.cur e.stride.toNat).read (e.outLen.toNat + k) = e.cur.read k := by
    rw [Memory.read_copyRow _ e.cur hout, if_pos (by omega), Nat.add_sub_cancel_left]
  simp only [Engine.keepRow_prev, Engine.keepRow_outMem, Engine.keepRow_i, Engine.keepRow_stride, Engine.appendRow_prev,
    Engine.appendRow_cur, Engine.appendRow_outMem, Engine.appendRow_i, Engine.appendRow_stride, hi, Nat.add_sub_cancel]
  rw [hrow, ← hr.outIsRows, happended]

/-- A step of the PNG path that raises no error keeps the row loop's facts and the history. -/
theorem pngStep_rowInv_historyInv (hm : e.memoriesWf = true) (hg : e.GeometryInv p) (hr : e.RowInv) (hy : e.HistoryInv)
    (hrun : e.phase = .run) (h : pngStep p e = .next u) (hne : u.phase ≠ .error) : u.RowInv ∧ u.HistoryInv := by
  obtain ⟨hs, hi, rfl⟩ | ⟨-, hi, -, hft, rfl⟩ | ⟨-, -, -, -, rfl⟩ | ⟨hs, hft, -, -, rfl⟩ | ⟨hs, -, -, rfl⟩ := pngStep_cases h
  · exact ⟨hr.finish hs hi, hy.filterLegal, hy.firstRow, hy.laterRows⟩
  · exact ⟨(hr.beginRow hg hi hrun).of_setFilter_beginRow _, fun _ => hft, hy.firstRow, hy.laterRows⟩
  · exact absurd rfl hne
  · exact ⟨hr.putColumn hs hrun _, fun _ => hft, hy.firstRow, hy.laterRows⟩
  · exact ⟨(hr.appendRow hg hs hrun).keepRow, .commit hm hr hs⟩

theorem Engine.Keeps.geometryInv (h : e.Keeps u) (hg : e.GeometryInv p) : u.GeometryInv p := by
  obtain ⟨-, hcolors, hbpc, hcolumns, hlen⟩ := h.config
  exact hg.of_same h.path (by simp only [Engine.cfgOps, hcolors, hbpc, hcolumns, hlen]) h.geometry

/-- A step in progress that raises no error keeps what PATH promises. -/
theorem pathStep_pathInv (hi : e.Inv p) (hrun : e.phase = .run) (h : pathStep p e = .next u) (hne : u.phase ≠ .error) :
    u.PathInv p := by
  have hk := pathStep_keeps h
  cases hp : e.path with
  | none => exact absurd hp (hi.path_ne_none (.inl hrun))
  | id =>
    simp only [pathStep, hp] at h
    exact (Engine.pathInv_of_id (hk.path.trans hp)).2 (identityStep_identityInv (hi.identity (.inl hrun) hp) hrun h)
  | tiff =>
    simp only [pathStep, hp] at h
    obtain ⟨hpred, hbpc, hg, hr⟩ := hi.tiff (.inl hrun) hp
    exact (Engine.pathInv_of_tiff (hk.path.trans hp)).2
      ⟨hk.config.pred ▸ hpred, hk.config.bpc ▸ hbpc, hk.geometryInv hg, tiffStep_rowInv hg hr hrun h⟩
  | png =>
    simp only [pathStep, hp] at h
    obtain ⟨hpred, hg, hr, hy⟩ := hi.png (.inl hrun) hp
    exact (Engine.pathInv_of_png (hk.path.trans hp)).2
      ⟨hk.config.pred ▸ hpred, hk.geometryInv hg, pngStep_rowInv_historyInv hi.memories hg hr hy hrun h hne⟩

/-- A step in progress that ends in ERROR is the raise of an illegal filter type (43_png.md R106, 60_exceptions.md R134). -/
theorem pathStep_error (hrun : e.phase = .run) (h : pathStep p e = .next u) (he : u.phase = .error) :
    u = (e.setFilter (e.inMem.read e.filterAddr)).raise .unsupportedFilterType := by
  cases hp : e.path with
  | none => simp [pathStep, hp] at h
  | id =>
    simp only [pathStep, hp] at h
    obtain ⟨-, rfl⟩ | ⟨-, -, -, rfl⟩ := identityStep_eq_next.1 h <;> simp [hrun] at he
  | tiff =>
    simp only [pathStep, hp] at h
    obtain ⟨-, -, rfl⟩ | ⟨-, -, rfl⟩ | ⟨-, -, -, rfl⟩ | ⟨-, -, rfl⟩ := tiffStep_eq_next.1 h <;> simp [hrun] at he
  | png =>
    simp only [pathStep, hp] at h
    obtain ⟨-, -, rfl⟩ | ⟨-, -, -, -, rfl⟩ | ⟨-, -, -, -, rfl⟩ | ⟨-, -, -, -, rfl⟩ | ⟨-, -, -, rfl⟩ := pngStep_cases h
    case inr.inr.inl => rfl
    all_goals simp [hrun] at he

/-! ## The engine's operations keep the invariant -/

theorem pathStep_inv (hi : e.Inv p) (hrun : e.phase = .run) (h : pathStep p e = .next u) : u.Inv p := by
  have hm := pathStep_memoriesWf hi.memories h
  have herr := hi.status.err_of_run hrun
  obtain ⟨hu, he⟩ | ⟨hu, he⟩ | ⟨hu, -⟩ := pathStep_status hrun h
  · exact .of_pathInv hm (.inl hu) (he.trans herr) (pathStep_pathInv hi hrun h (by simp [hu]))
  · exact .of_pathInv hm (.inr hu) (he.trans herr) (pathStep_pathInv hi hrun h (by simp [hu]))
  · rw [pathStep_error hrun h hu]
    exact Engine.Inv.raise (e := e.setFilter (e.inMem.read e.filterAddr)) hi.memories (by simp)

theorem engineStep_inv (hi : e.Inv p) (h : engineStep p e = .next u) : u.Inv p := by
  obtain ⟨-, rfl⟩ | ⟨hrun, h⟩ := engineStep_cases h
  · exact hi
  · exact pathStep_inv hi hrun h

theorem Engine.place_inv (hi : e.Inv p) {bytes : List Byte} (h : e.place bytes = .next u) : u.Inv p := by
  obtain ⟨-, rfl⟩ := Engine.place_eq_next.1 h
  exact hi.withInput (Memory.writeList_wf _ _ (memoriesWf_iff.1 hi.memories).2.2.1)

/-! ## The interface's step and host moves keep the invariant -/

theorem step_inv {s t : State} (hi : s.Inv) (h : step s = .next t) : t.Inv := by
  obtain ⟨-, -, rfl⟩ | ⟨-, c, e, -, he, rfl⟩ | ⟨hrun, -, e, he, rfl⟩ := step_cases h
  · exact hi
  · exact engineStart_inv hi.memories he
  · exact pathStep_inv hi hrun he

theorem State.place_inv {s t : State} (hi : s.Inv) {bytes : List Byte} (h : s.place bytes = .next t) : t.Inv := by
  obtain ⟨-, -, rfl⟩ := State.place_eq_next.1 h
  exact hi.withInput (Memory.writeList_wf _ _ (memoriesWf_iff.1 hi.memories).2.2.1)

theorem State.present_inv {s t : State} (hi : s.Inv) {c : Cfg} (h : s.present c = .next t) : t.Inv := by
  obtain ⟨-, -, rfl⟩ := State.present_eq_next.1 h
  exact hi

/-- Settles O47: START builds the invariant from canonical memories, a step in progress keeps what its path promises or
raises an error, and the host's moves touch nothing else the invariant speaks of. -/
theorem stepKeepsTheInvariant : Obligations.StepKeepsTheInvariant := by
  unfold Obligations.StepKeepsTheInvariant
  exact ⟨fun _ _ hi => step_inv hi, fun _ _ hi => ⟨fun _ => State.place_inv hi, fun _ => State.present_inv hi⟩,
    fun _ _ _ _ _ hi => ⟨engineStep_inv hi, fun _ => engineStart_inv hi.memories, fun _ => Engine.place_inv hi⟩⟩

/-! ## Who writes IN, the configuration and the geometry -/

theorem engineStart_inMem {c : CfgOf wCfg wLen} (h : engineStart p c e = .next u) : u.inMem = e.inMem := by
  obtain ⟨-, ⟨-, -, rfl⟩ | ⟨-, -, -, rfl⟩ | ⟨-, -, rfl⟩ | ⟨-, -, rfl⟩ | ⟨-, rfl⟩⟩ := engineStart_cases h <;> rfl

theorem Engine.Keeps.refl (e : Engine wCfg wLen) : e.Keeps e := ⟨⟨rfl, rfl, rfl, rfl, rfl⟩, ⟨rfl, rfl, rfl, rfl⟩, rfl, rfl⟩

theorem step_inMem_params {s t : State} (h : step s = .next t) : t.inMem = s.inMem ∧ t.params = s.params := by
  obtain ⟨-, -, rfl⟩ | ⟨-, c, e, -, he, rfl⟩ | ⟨-, -, e, he, rfl⟩ := step_cases h
  · exact ⟨rfl, rfl⟩
  · exact ⟨engineStart_inMem he, rfl⟩
  · exact ⟨(pathStep_keeps he).input, rfl⟩

theorem step_keeps_of_no_start {s t : State} (hs : s.start = none) (h : step s = .next t) : s.Keeps t.toEngine := by
  obtain ⟨-, -, rfl⟩ | ⟨-, c, e, hc, -, -⟩ | ⟨-, -, e, he, rfl⟩ := step_cases h
  · exact .refl _
  · rw [hs] at hc
    cases hc
  · exact pathStep_keeps he

/-- Bytes placed from address 0 are read below their number, the old bytes above. -/
theorem Memory.read_writeList_zero {m : Memory} (h : m.wf = true) (bytes : List Byte) (k : Nat) :
    (m.writeList 0 bytes).read k = if k < bytes.length then bytes.getD k 0 else m.read k := by
  simpa using Memory.read_writeList k bytes 0 h

/-- Settles O49: a step waits, takes START or is in progress, and only START writes more than the working state; the host's
moves are refused exactly from START to completion. -/
theorem onlyStartWritesConfigurationAndGeometry : Obligations.OnlyStartWritesConfigurationAndGeometry := by
  unfold Obligations.OnlyStartWritesConfigurationAndGeometry
  refine ⟨fun s t h => ?_, fun s bytes c h => s.host_waits h bytes c, fun s bytes c hr hs => ?_, fun _ _ e bytes => ⟨?_, ?_⟩⟩
  · obtain ⟨hin, hparams⟩ := step_inMem_params h
    refine ⟨hin, hparams, fun hs => ?_⟩
    obtain ⟨hconfig, hgeometry, -, hpath⟩ := step_keeps_of_no_start hs h
    exact ⟨hconfig, hgeometry, hpath⟩
  · exact ⟨State.present_eq_next.2 ⟨hs, hr, rfl⟩, _, State.place_eq_next.2 ⟨hs, hr, rfl⟩,
      fun hw => Memory.read_writeList_zero hw bytes⟩
  · exact fun hr => ⟨Engine.place_of_run hr bytes, by simp only [Engine.result, hr]⟩
  · exact fun hr => ⟨_, Engine.place_eq_next.2 ⟨hr, rfl⟩, fun hw => Memory.read_writeList_zero hw bytes⟩

/-! ## The transitions of PHASE -/

theorem engineStart_phase {c : CfgOf wCfg wLen} (h : engineStart p c e = .next u) : u.phase = .run ∨ u.phase = .error := by
  obtain ⟨-, ⟨-, -, rfl⟩ | ⟨-, -, -, rfl⟩ | ⟨-, -, rfl⟩ | ⟨-, -, rfl⟩ | ⟨-, rfl⟩⟩ := engineStart_cases h <;> simp

theorem pathStep_phase (hrun : e.phase = .run) (h : pathStep p e = .next u) :
    u.phase = .run ∨ u.phase = .done ∨ u.phase = .error :=
  (pathStep_status hrun h).imp And.left (Or.imp And.left And.left)

/-- Settles O52, by what a step can be: waiting, taking START, or in progress. -/
theorem phaseTransitions : Obligations.PhaseTransitions := by
  unfold Obligations.PhaseTransitions
  intro s t h
  obtain ⟨hr, hs, rfl⟩ | ⟨hr, c, e, hs, he, rfl⟩ | ⟨hr, hs, e, he, rfl⟩ := step_cases h
  · exact ⟨fun hrun => absurd hrun hr, fun _ hne => absurd hs hne, fun _ _ => rfl⟩
  · exact ⟨fun hrun => absurd hrun hr, fun _ _ => ⟨engineStart_phase he, rfl⟩, fun _ hn => by simp [hs] at hn⟩
  · exact ⟨fun _ => pathStep_phase hr he, fun hne => absurd hr hne, fun hne => absurd hr hne⟩

/-! ## Status codes and reset -/

theorem ErrorKind.code_ne_zero (kind : ErrorKind) : kind.code ≠ 0 := by
  cases kind <;> decide

theorem Engine.errCode_eq_zero_iff : e.errCode = 0 ↔ e.err = none := by
  cases he : e.err with
  | none => simp [Engine.errCode, he]
  | some kind => simpa only [Engine.errCode, he, reduceCtorEq, iff_false] using kind.code_ne_zero

/-- Settles O45: the tables by evaluation, and no error kind has the code 0. -/
theorem statusCodesAreTheSpecs : Obligations.StatusCodesAreTheSpecs := by
  unfold Obligations.StatusCodesAreTheSpecs
  exact ⟨rfl, rfl, rfl, rfl, fun _ => Engine.errCode_eq_zero_iff⟩

theorem Engine.reset_inv (p : Params) : (Engine.reset : Engine wCfg wLen).Inv p := by
  refine ⟨reset_memoriesWf, ⟨?_, ?_, ?_⟩, fun _ => ⟨rfl, rfl⟩, ?_⟩ <;> simp [Engine.reset]

/-- Settles O46. -/
theorem resetMeetsTheInvariant : Obligations.ResetMeetsTheInvariant := by
  unfold Obligations.ResetMeetsTheInvariant
  exact ⟨Engine.reset_inv _, fun _ _ => Engine.reset_inv⟩

end Sys2Proof.Machine
end

-- Memories, operands and who writes them: family 20_memory.md
section
/-! Proofs. Reading a canonical memory back, the accesses that fault, and who writes PREV and OUT (20_memory.md). -/

namespace Sys2Proof.Machine

variable {wCfg wLen : Nat} {p : Params} {e u : Engine wCfg wLen}

/-- Settles O7, by the two laws of `Memory.write`: it keeps the canonical form, and what is read after it. -/
theorem readReturnsTheLatestWrite : Obligations.ReadReturnsTheLatestWrite := by
  unfold Obligations.ReadReturnsTheLatestWrite
  exact fun _ k v hm => ⟨Memory.write_wf k v hm, Memory.read_write hm k v⟩

/-! ## A canonical memory is determined by its reads -/

theorem Memory.read_head (a : Nat) (b : Byte) (m : Memory) : Memory.read ((a, b) :: m) a = b := by
  rw [Memory.read, if_neg (Nat.lt_irrefl a), if_pos rfl]

theorem Memory.read_below_head {a k : Nat} (hk : k < a) (b : Byte) (m : Memory) :
    Memory.read ((a, b) :: m) k = Memory.unlisted := by
  rw [Memory.read, if_pos hk]

theorem Memory.read_above_head {a k : Nat} (hk : a < k) (b : Byte) (m : Memory) :
    Memory.read ((a, b) :: m) k = Memory.read m k := by
  rw [Memory.read, if_neg (by omega), if_neg (by omega)]

/-- The first listed byte is not the unlisted one, so a memory that reads alike lists nothing that begins above it. -/
theorem Memory.head_le_of_read_eq {a a' : Nat} {b b' : Byte} {m m' : Memory} (hm : Memory.wf ((a, b) :: m) = true)
    (h : Memory.read ((a, b) :: m) a = Memory.read ((a', b') :: m') a) : a' ≤ a := by
  by_contra hlt
  rw [Memory.read_head, Memory.read_below_head (Nat.lt_of_not_le hlt)] at h
  exact (Memory.wf_cons.1 hm).1 h

theorem Memory.tail_read_eq {a : Nat} {b b' : Byte} {m m' : Memory} (hm : Memory.wfAbove a m = true)
    (hm' : Memory.wfAbove a m' = true) (h : ∀ k, Memory.read ((a, b) :: m) k = Memory.read ((a, b') :: m') k) (k : Nat) :
    Memory.read m k = Memory.read m' k := by
  rcases Nat.lt_or_ge a k with hk | hk
  · simpa only [Memory.read_above_head hk] using h k
  · rw [Memory.read_of_wfAbove hk hm, Memory.read_of_wfAbove hk hm']

theorem Memory.eq_of_read_eq : ∀ {m m' : Memory}, m.wf = true → m'.wf = true → (∀ k, m.read k = m'.read k) → m = m'
  | [], [], _, _, _ => rfl
  | [], (a, b) :: m', _, hm', h =>
    absurd ((Memory.read_head a b m').symm.trans (h a).symm) (Memory.wf_cons.1 hm').1
  | (a, b) :: m, [], hm, _, h =>
    absurd ((Memory.read_head a b m).symm.trans (h a)) (Memory.wf_cons.1 hm).1
  | (a, b) :: m, (a', b') :: m', hm, hm', h => by
    obtain rfl : a = a' :=
      Nat.le_antisymm (Memory.head_le_of_read_eq hm' (h a').symm) (Memory.head_le_of_read_eq hm (h a))
    have hb : b = b' := by simpa only [Memory.read_head] using h a
    have hw := (Memory.wf_cons.1 hm).2
    have hw' := (Memory.wf_cons.1 hm').2
    rw [hb, Memory.eq_of_read_eq (Memory.wf_of_wfAbove hw) (Memory.wf_of_wfAbove hw') (Memory.tail_read_eq hw hw' h)]

/-- Settles O8, by induction on the two lists: their heads stand at one address, and their tails read alike. -/
theorem equalReadsAreEqualMemories : Obligations.EqualReadsAreEqualMemories := by
  unfold Obligations.EqualReadsAreEqualMemories
  exact fun _ _ => Memory.eq_of_read_eq

/-! ## The lookback accessor -/

/-- Settles O9, by the two cases of `byteAt`; a natural number is not below 0. -/
theorem lookbackReadsZeroBeforeTheRow : Obligations.LookbackReadsZeroBeforeTheRow := by
  unfold Obligations.LookbackReadsZeroBeforeTheRow
  refine fun buf k => ⟨byteAt_of_neg, ?_⟩
  rintro n rfl
  exact byteAt_of_nonneg (Int.natCast_nonneg n)

/-! ## Accesses that do not exist (log entry 11) -/

theorem orFault_readIn_of_le {σ : Type} {addr : Nat} (h : e.len.toNat ≤ addr) (go : Byte → Host.Outcome σ Fault Refusal) :
    orFault (e.readIn addr) go = .fault .inOutOfRange := by
  rw [Engine.readIn, if_neg (Nat.not_lt.2 h), orFault]

theorem orFault_readIn_of_lt {σ : Type} {addr : Nat} (h : addr < e.len.toNat) (go : Byte → Host.Outcome σ Fault Refusal) :
    orFault (e.readIn addr) go = go (e.inMem.read addr) := by
  rw [Engine.readIn, if_pos h, orFault]

theorem columnStep_of_stride_le (h : e.stride.toNat ≤ e.j.toNat) (v : Byte) :
    columnStep v e = .fault .rowBufferOutOfRange :=
  if_neg (Nat.not_lt.2 h)

/-- A COLUMN step faults at an element outside the row buffer once its byte of IN is read. -/
theorem orFault_columnStep_of_stride_le {addr : Nat} (ha : addr < e.len.toNat) (hj : e.stride.toNat ≤ e.j.toNat)
    (v : Byte → Byte) : orFault (e.readIn addr) (fun x => columnStep (v x) e) = .fault .rowBufferOutOfRange := by
  rw [orFault_readIn_of_lt ha, columnStep_of_stride_le hj]

theorem Engine.rowFits_eq_false (h : outCapacity p wLen < e.outLen.toNat + e.stride.toNat) : e.rowFits p = false :=
  decide_eq_false (Nat.not_le.2 h)

theorem commitTiff_of_full (h : outCapacity p wLen < e.outLen.toNat + e.stride.toNat) :
    commitTiff p e = .fault .outOutOfRange := by
  simp [commitTiff, Engine.rowFits_eq_false h]

theorem commitPng_of_full (h : outCapacity p wLen < e.outLen.toNat + e.stride.toNat) :
    commitPng p e = .fault .outOutOfRange := by
  simp [commitPng, Engine.rowFits_eq_false h]

/-- Before K reaches LEN, or past it, the identity step reads IN at K and writes OUT at K. -/
theorem identityStep_of_ne (h : e.k ≠ e.len) :
    identityStep p e = orFault (e.readIn e.k.toNat) fun v =>
      if e.k.toNat < outCapacity p wLen then .next (e.copyByte v) else .fault .outOutOfRange :=
  if_neg h

theorem identityStep_of_len_lt (h : e.len.toNat < e.k.toNat) : identityStep p e = .fault .inOutOfRange := by
  rw [identityStep_of_ne (fun hk => by simp [hk] at h), orFault_readIn_of_le (Nat.le_of_lt h)]

theorem identityStep_of_full (h : e.k.toNat < e.len.toNat) (hfull : outCapacity p wLen ≤ e.k.toNat) :
    identityStep p e = .fault .outOutOfRange := by
  rw [identityStep_of_ne (fun hk => by simp [hk] at h), orFault_readIn_of_lt h, if_neg (Nat.not_lt.2 hfull)]

theorem tiffStep_of_column (hs : e.stage = .column) : tiffStep p e = tiffColumn e := by
  simp only [tiffStep, hs]

theorem tiffStep_of_commit (hs : e.stage = .commit) : tiffStep p e = commitTiff p e := by
  simp only [tiffStep, hs]

theorem rowOperation_of_column {t : Byte} {predicted : Engine wCfg wLen → Byte} (hr : e.phase = .run) (hp : e.path = .png)
    (hs : e.stage = .column) : rowOperation t predicted p e
      = orFault (e.readIn e.pngAddr) fun x => columnStep (reconstruct x (predicted e)) e := by
  simp only [rowOperation, hr, hp, hs, and_self, if_true, Engine.pngX]

theorem rowOperation_of_commit {t : Byte} {predicted : Engine wCfg wLen → Byte} (hr : e.phase = .run) (hp : e.path = .png)
    (hs : e.stage = .commit) : rowOperation t predicted p e = commitPng p e := by
  simp only [rowOperation, hr, hp, hs, and_self, if_true]

/-- Settles O10: each instruction in RUN is its path's step on the engine, which reads IN, then writes CUR or OUT. -/
theorem accessesThatDoNotExistFault : Obligations.AccessesThatDoNotExistFault := by
  unfold Obligations.AccessesThatDoNotExistFault
  refine ⟨fun s hr hp hk => ?_, fun s hr hp hk hfull => ?_, fun s hr hp hs => ⟨fun ha => ?_, fun ha hj => ?_⟩,
    fun s hr hp hs hfull => ?_, fun i hi s hr hp => ?_⟩
  · rw [exec_predNone_in_progress hr hp, onEngine_eq_fault]
    exact identityStep_of_len_lt hk
  · rw [exec_predNone_in_progress hr hp, onEngine_eq_fault]
    exact identityStep_of_full hk hfull
  · rw [exec_predTiff_in_progress hr hp, onEngine_eq_fault, tiffStep_of_column hs]
    exact orFault_readIn_of_le ha _
  · rw [exec_predTiff_in_progress hr hp, onEngine_eq_fault, tiffStep_of_column hs]
    exact orFault_columnStep_of_stride_le ha hj _
  · rw [exec_predTiff_in_progress hr hp, onEngine_eq_fault, tiffStep_of_commit hs]
    exact commitTiff_of_full hfull
  · obtain ⟨t, predicted, hexec⟩ := exec_row_of_rowOperation hi s
    rw [hexec, onEngine_eq_fault, onEngine_eq_fault, onEngine_eq_fault]
    refine ⟨fun hs ha => ?_, fun hs ha hj => ?_, fun hs hfull => ?_⟩
    · rw [rowOperation_of_column hr hp hs]
      exact orFault_readIn_of_le ha _
    · rw [rowOperation_of_column hr hp hs]
      exact orFault_columnStep_of_stride_le ha hj _
    · rw [rowOperation_of_commit hr hp hs]
      exact commitPng_of_full hfull

/-! ## Who writes PREV (20_memory.md R41) -/

theorem engineStart_prev {c : CfgOf wCfg wLen} (h : engineStart p c e = .next u) (hne : u.prev ≠ e.prev) :
    10 ≤ c.pred.toNat ∧ u.phase = .run ∧ u.path = .png := by
  obtain ⟨-, ⟨-, -, rfl⟩ | ⟨-, -, -, rfl⟩ | ⟨-, -, rfl⟩ | ⟨hpred, -, rfl⟩ | ⟨-, rfl⟩⟩ := engineStart_cases h
  case inr.inr.inr.inl => exact ⟨hpred, rfl, rfl⟩
  all_goals exact absurd rfl hne

theorem pathStep_prev (h : pathStep p e = .next u) (hne : u.prev ≠ e.prev) : e.path = .png ∧ e.stage = .commit := by
  cases hp : e.path with
  | none => simp [pathStep, hp] at h
  | id =>
    simp only [pathStep, hp] at h
    obtain ⟨-, rfl⟩ | ⟨-, -, -, rfl⟩ := identityStep_eq_next.1 h <;> exact absurd rfl hne
  | tiff =>
    simp only [pathStep, hp] at h
    obtain ⟨-, -, rfl⟩ | ⟨-, -, rfl⟩ | ⟨-, -, -, rfl⟩ | ⟨-, -, rfl⟩ := tiffStep_eq_next.1 h <;> exact absurd rfl hne
  | png =>
    simp only [pathStep, hp] at h
    obtain ⟨-, -, rfl⟩ | ⟨-, -, -, -, rfl⟩ | ⟨-, -, -, -, rfl⟩ | ⟨-, -, -, -, rfl⟩ | ⟨hs, -⟩ := pngStep_cases h
    case inr.inr.inr.inr => exact ⟨rfl, hs⟩
    all_goals exact absurd rfl hne

/-- Settles O50: a waiting step changes nothing, START writes PREV on the PNG path alone, a step in progress at its COMMIT
alone. -/
theorem historyIsWrittenOnlyByStartAndCommit : Obligations.HistoryIsWrittenOnlyByStartAndCommit := by
  unfold Obligations.HistoryIsWrittenOnlyByStartAndCommit
  intro s t h hne
  obtain ⟨-, -, rfl⟩ | ⟨hr, c, e, hs, he, rfl⟩ | ⟨hr, -, e, he, rfl⟩ := step_cases h
  · exact absurd rfl hne
  · obtain ⟨hpred, hrun, hpath⟩ := engineStart_prev he hne
    exact .inl ⟨hr, ⟨c, hs, hpred⟩, hrun, hpath⟩
  · exact .inr ⟨hr, pathStep_prev he hne⟩

/-! ## OUT is only appended to (20_memory.md R32) -/

/-- The bytes of OUT below OUT_LEN are as before and OUT_LEN has not fallen. -/
structure Engine.OnlyAppends (e u : Engine wCfg wLen) : Prop where
  kept : ∀ k, k < e.outLen.toNat → u.outMem.read k = e.outMem.read k
  grows : e.outLen.toNat ≤ u.outLen.toNat

theorem Engine.OnlyAppends.of_same (hmem : u.outMem = e.outMem) (hlen : u.outLen = e.outLen) : e.OnlyAppends u :=
  ⟨fun _ _ => by rw [hmem], by rw [hlen]⟩

/-- The identity step writes OUT at K = OUT_LEN, which is below LEN and so does not wrap. -/
theorem Engine.OnlyAppends.copyByte (hout : e.outMem.wf = true) (hk : e.outLen = e.k) (hlt : e.k.toNat < e.len.toNat)
    (v : Byte) : e.OnlyAppends (e.copyByte v) := by
  refine ⟨fun k hlen => ?_, ?_⟩
  · rw [hk] at hlen
    exact Memory.read_write_other hout v (Nat.ne_of_lt hlen)
  · rw [Engine.copyByte_outLen, hk, toNat_add_one hlt]
    exact Nat.le_succ _

/-- A COMMIT step copies its row to OUT from OUT_LEN upward, and a row that fits OUT does not wrap OUT_LEN. -/
theorem Engine.OnlyAppends.appendRow (hout : e.outMem.wf = true) (hfits : e.rowFits p = true) :
    e.OnlyAppends e.appendRow := by
  refine ⟨fun k hlen => ?_, ?_⟩
  · rw [Engine.appendRow_outMem, Memory.read_copyRow _ _ hout, if_neg (by omega)]
  · have hcap := outCapacity_lt p wLen
    simp only [Engine.rowFits, decide_eq_true_eq] at hfits
    rw [Engine.appendRow_outLen, BitVec.toNat_add, Nat.mod_eq_of_lt (by omega)]
    exact Nat.le_add_right _ _

/-- PREV does not enter. -/
theorem Engine.OnlyAppends.keepRow (h : e.OnlyAppends u) : e.OnlyAppends u.keepRow := ⟨h.kept, h.grows⟩

/-- A step in progress that raises no error only appends to OUT. -/
theorem pathStep_onlyAppends (hi : e.Inv p) (hrun : e.phase = .run) (h : pathStep p e = .next u) (hne : u.phase ≠ .error) :
    e.OnlyAppends u := by
  obtain ⟨-, -, -, hout⟩ := memoriesWf_iff.1 hi.memories
  cases hp : e.path with
  | none => exact absurd hp (hi.path_ne_none (.inl hrun))
  | id =>
    simp only [pathStep, hp] at h
    obtain ⟨-, rfl⟩ | ⟨-, hk, -, rfl⟩ := identityStep_eq_next.1 h
    · exact .of_same rfl rfl
    · exact .copyByte hout (hi.identity (.inl hrun) hp).outIsK hk _
  | tiff =>
    simp only [pathStep, hp] at h
    obtain ⟨-, -, rfl⟩ | ⟨-, -, rfl⟩ | ⟨-, -, -, rfl⟩ | ⟨-, hfits, rfl⟩ := tiffStep_eq_next.1 h
    case inr.inr.inr => exact .appendRow hout hfits
    all_goals exact .of_same rfl rfl
  | png =>
    simp only [pathStep, hp] at h
    obtain ⟨-, -, rfl⟩ | ⟨-, -, -, -, rfl⟩ | ⟨-, -, -, -, rfl⟩ | ⟨-, -, -, -, rfl⟩ | ⟨-, -, hfits, rfl⟩ := pngStep_cases h
    case inr.inr.inl => exact absurd rfl hne
    case inr.inr.inr.inr => exact (Engine.OnlyAppends.appendRow hout hfits).keepRow
    all_goals exact .of_same rfl rfl

/-- Settles O51: in RUN a step raises an error, which leaves OUT and clears OUT_LEN, or only appends to OUT. -/
theorem outputIsOnlyAppendedTo : Obligations.OutputIsOnlyAppendedTo := by
  unfold Obligations.OutputIsOnlyAppendedTo
  intro s t hi hrun h
  obtain ⟨hr, -, -⟩ | ⟨hr, -⟩ | ⟨-, -, e, he, rfl⟩ := step_cases h
  · exact absurd hrun hr
  · exact absurd hrun hr
  by_cases herr : e.phase = .error
  · rw [pathStep_error hrun he herr]
    exact ⟨fun _ _ => rfl, fun hne => absurd rfl hne, fun _ => rfl⟩
  · obtain ⟨hkept, hgrows⟩ := pathStep_onlyAppends hi hrun he herr
    exact ⟨hkept, fun _ => hgrows, fun hphase => absurd hphase herr⟩

end Sys2Proof.Machine
end

-- The decoder, the encoder and the opcode table: family 30_encoding.md
section
/-! Proofs. What the decoder answers, the encoder as its inverse, and the rows of spec/opcode_table.json as disjoint
ranges of opcode values (30_encoding.md R50 to R59). -/

namespace Sys2Proof

/-! ## Well-formed opcode values -/

@[simp] theorem Instr.predPng_wf_iff {pred : Word} {o : CfgOps} : (Instr.predPng pred o).wf = true ↔ 10 ≤ pred.toNat := by
  simp [Instr.wf, isPngPredictor]

@[simp] theorem Instr.illegalPred_wf_iff {pred : Word} {o : CfgOps} :
    (Instr.illegalPred pred o).wf = true ↔ pred.toNat = 0 ∨ (3 ≤ pred.toNat ∧ pred.toNat ≤ 9) := by
  simp [Instr.wf, isIllegalPredictor]

@[simp] theorem Instr.illegalFt_wf_iff {ft : Byte} : (Instr.illegalFt ft).wf = true ↔ 5 ≤ ft.toNat := by
  simp [Instr.wf, isIllegalFilterType]

/-! ## What the decoder answers -/

/-- The four classes of PRED, which exclude each other (30_encoding.md R52, R55). -/
theorem decodeCfg_cases (c : Cfg) :
    (c.pred.toNat = 1 ∧ decodeCfg c = .predNone c.ops)
    ∨ (c.pred.toNat = 2 ∧ decodeCfg c = .predTiff c.ops)
    ∨ (10 ≤ c.pred.toNat ∧ decodeCfg c = .predPng c.pred c.ops)
    ∨ ((c.pred.toNat = 0 ∨ (3 ≤ c.pred.toNat ∧ c.pred.toNat ≤ 9)) ∧ decodeCfg c = .illegalPred c.pred c.ops) := by
  simp only [decodeCfg]
  split_ifs with h1 h2 h10
  · exact .inl ⟨h1, rfl⟩
  · exact .inr (.inl ⟨h2, rfl⟩)
  · exact .inr (.inr (.inl ⟨h10, rfl⟩))
  · exact .inr (.inr (.inr ⟨by omega, rfl⟩))

/-- The six classes of the filter-type byte, which exclude each other (30_encoding.md R54, R55). -/
theorem decodeRow_cases (ft : Byte) :
    (ft.toNat = 0 ∧ decodeRow ft = .rowNone) ∨ (ft.toNat = 1 ∧ decodeRow ft = .rowSub)
    ∨ (ft.toNat = 2 ∧ decodeRow ft = .rowUp) ∨ (ft.toNat = 3 ∧ decodeRow ft = .rowAvg)
    ∨ (ft.toNat = 4 ∧ decodeRow ft = .rowPaeth) ∨ (5 ≤ ft.toNat ∧ decodeRow ft = .illegalFt ft) := by
  simp only [decodeRow]
  split_ifs with h0 h1 h2 h3 h4
  · exact .inl ⟨h0, rfl⟩
  · exact .inr (.inl ⟨h1, rfl⟩)
  · exact .inr (.inr (.inl ⟨h2, rfl⟩))
  · exact .inr (.inr (.inr (.inl ⟨h3, rfl⟩)))
  · exact .inr (.inr (.inr (.inr (.inl ⟨h4, rfl⟩))))
  · exact .inr (.inr (.inr (.inr (.inr ⟨by omega, rfl⟩))))

theorem decodeCfg_of_png {pred : Word} (h : 10 ≤ pred.toNat) (o : CfgOps) : decodeCfg ⟨pred, o⟩ = .predPng pred o := by
  obtain ⟨hp, -⟩ | ⟨hp, -⟩ | ⟨-, hd⟩ | ⟨hp, -⟩ := decodeCfg_cases ⟨pred, o⟩
  case inr.inr.inl => exact hd
  all_goals exact absurd h (by simp only at hp; omega)

theorem decodeCfg_of_illegal {pred : Word} (h : pred.toNat = 0 ∨ (3 ≤ pred.toNat ∧ pred.toNat ≤ 9)) (o : CfgOps) :
    decodeCfg ⟨pred, o⟩ = .illegalPred pred o := by
  obtain ⟨hp, -⟩ | ⟨hp, -⟩ | ⟨hp, -⟩ | ⟨-, hd⟩ := decodeCfg_cases ⟨pred, o⟩
  case inr.inr.inr => exact hd
  all_goals exact absurd h (by simp only at hp; omega)

theorem decodeRow_of_illegal {ft : Byte} (h : 5 ≤ ft.toNat) : decodeRow ft = .illegalFt ft := by
  obtain ⟨hf, -⟩ | ⟨hf, -⟩ | ⟨hf, -⟩ | ⟨hf, -⟩ | ⟨hf, -⟩ | ⟨-, hd⟩ := decodeRow_cases ft
  case inr.inr.inr.inr.inr => exact hd
  all_goals exact absurd h (by omega)

/-! ## Decoder and encoder -/

/-- Settles O3, by the instruction: a fixed opcode value decodes by evaluation, a carried one lies in its own class. -/
theorem decodeOfEncodeIsTheInstruction : Obligations.DecodeOfEncodeIsTheInstruction := by
  unfold Obligations.DecodeOfEncodeIsTheInstruction
  intro i hwf
  cases i with
  | predNone o => rfl
  | predTiff o => rfl
  | predPng pred o => exact decodeCfg_of_png (Instr.predPng_wf_iff.1 hwf) o
  | illegalPred pred o => exact decodeCfg_of_illegal (Instr.illegalPred_wf_iff.1 hwf) o
  | rowNone => rfl
  | rowSub => rfl
  | rowUp => rfl
  | rowAvg => rfl
  | rowPaeth => rfl
  | illegalFt ft => exact decodeRow_of_illegal (Instr.illegalFt_wf_iff.1 hwf)

/-- The encoder's fixed PRED is the record's own when the numbers agree. -/
theorem cfg_eq_of_pred_toNat {c : Cfg} {pred : Word} (h : c.pred.toNat = pred.toNat) : Record.cfg ⟨pred, c.ops⟩ = .cfg c :=
  congrArg (fun q => Record.cfg ⟨q, c.ops⟩) (BitVec.eq_of_toNat_eq h.symm)

theorem row_eq_of_toNat {ft v : Byte} (h : ft.toNat = v.toNat) : Record.row v = .row ft :=
  congrArg Record.row (BitVec.eq_of_toNat_eq h.symm)

theorem decodeCfg_wf_encode (c : Cfg) : (decodeCfg c).wf = true ∧ encode (decodeCfg c) = .cfg c := by
  obtain ⟨hp, hd⟩ | ⟨hp, hd⟩ | ⟨hp, hd⟩ | ⟨hp, hd⟩ := decodeCfg_cases c <;> rw [hd]
  · exact ⟨rfl, cfg_eq_of_pred_toNat hp⟩
  · exact ⟨rfl, cfg_eq_of_pred_toNat hp⟩
  · exact ⟨Instr.predPng_wf_iff.2 hp, rfl⟩
  · exact ⟨Instr.illegalPred_wf_iff.2 hp, rfl⟩

theorem decodeRow_wf_encode (ft : Byte) : (decodeRow ft).wf = true ∧ encode (decodeRow ft) = .row ft := by
  obtain ⟨hf, hd⟩ | ⟨hf, hd⟩ | ⟨hf, hd⟩ | ⟨hf, hd⟩ | ⟨hf, hd⟩ | ⟨hf, hd⟩ := decodeRow_cases ft <;> rw [hd]
  case inr.inr.inr.inr.inr => exact ⟨Instr.illegalFt_wf_iff.2 hf, rfl⟩
  all_goals exact ⟨rfl, row_eq_of_toNat hf⟩

/-- Settles O4, by the record's format and the decoder's classes. -/
theorem encodeOfDecodeIsTheRecord : Obligations.EncodeOfDecodeIsTheRecord := by
  unfold Obligations.EncodeOfDecodeIsTheRecord
  intro r
  cases r with
  | cfg c => exact decodeCfg_wf_encode c
  | row ft => exact decodeRow_wf_encode ft

/-- Settles O1, by evaluation of the thirteen words. -/
theorem specWordsDecodeToTheirInstructions : Obligations.SpecWordsDecodeToTheirInstructions := by
  unfold Obligations.SpecWordsDecodeToTheirInstructions
  decide

/-! ## The opcode table's rows as disjoint ranges (30_encoding.md R59) -/

section Rows

variable {n : Nat} {r s : TableRow n} {v : BitVec n} {rows : List (TableRow n)}

/-- Two rows that differ in a bit both of them compare. -/
def TableRow.disjoint (r s : TableRow n) : Bool := r.mask &&& s.mask &&& (r.bits ^^^ s.bits) ≠ 0

theorem TableRow.matches_iff : r.matches v = true ↔ v &&& r.mask = r.bits := by simp [TableRow.matches]

/-- No opcode value belongs to both of two disjoint rows. -/
theorem TableRow.not_matches_of_disjoint (hd : r.disjoint s = true) (hr : r.matches v = true) : ¬ s.matches v = true := by
  intro hs
  rw [matches_iff] at hr hs
  have hzero : r.mask &&& s.mask &&& ((v &&& r.mask) ^^^ (v &&& s.mask)) = 0 := by
    ext i
    simp only [BitVec.getElem_and, BitVec.getElem_xor, BitVec.getElem_zero, BitVec.ofNat_eq_ofNat]
    cases v[i] <;> cases r.mask[i] <;> cases s.mask[i] <;> rfl
  rw [hr, hs] at hzero
  simp [disjoint, hzero] at hd

/-- Of pairwise disjoint rows one that matches is the only one. -/
theorem filter_matches_eq_singleton (hrows : rows.Pairwise (·.disjoint ·)) (hmem : r ∈ rows) (hr : r.matches v = true) :
    rows.filter (fun r => r.matches v) = [r] := by
  induction rows with
  | nil => simp at hmem
  | cons s rows ih =>
    obtain ⟨hs, hrest⟩ := List.pairwise_cons.1 hrows
    rw [List.filter_cons]
    obtain rfl | hmem := List.mem_cons.1 hmem
    · rw [if_pos hr, List.filter_eq_nil_iff.2 fun q hq => TableRow.not_matches_of_disjoint (hs q hq) hr]
    · rw [if_neg fun hsv => TableRow.not_matches_of_disjoint (hs r hmem) hsv hr, ih hrest hmem]

/-- The row of the `2 ^ k` opcode values from `b` on: it compares every bit from `k` up. -/
def rangeRow (n : Nat) (mnemonic : String) (b k : Nat) : TableRow n :=
  { mnemonic, bits := BitVec.ofNat n b, mask := BitVec.allOnes n <<< k }

theorem toNat_and_allOnes_shiftLeft (v : BitVec n) (k : Nat) :
    (v &&& BitVec.allOnes n <<< k).toNat = v.toNat / 2 ^ k * 2 ^ k := by
  have hshift : v &&& BitVec.allOnes n <<< k = (v >>> k) <<< k := by
    ext i hi
    by_cases hk : i < k
    · simp [hk]
    · simp [hk, show k + (i - k) = i by omega, BitVec.getLsbD_eq_getElem hi]
  rw [hshift, BitVec.toNat_shiftLeft, BitVec.toNat_ushiftRight, Nat.shiftRight_eq_div_pow, Nat.shiftLeft_eq]
  exact Nat.mod_eq_of_lt (Nat.lt_of_le_of_lt (Nat.div_mul_le_self _ _) v.isLt)

theorem rangeRow_matches {m : String} {b k : Nat} (hb : 2 ^ k ∣ b) (hlo : b ≤ v.toNat) (hhi : v.toNat < b + 2 ^ k) :
    (rangeRow n m b k).matches v = true := by
  obtain ⟨q, rfl⟩ := hb
  have hq : v.toNat / 2 ^ k = q := Nat.div_eq_of_lt_le (by rwa [Nat.mul_comm]) (by rwa [Nat.mul_comm, Nat.mul_succ])
  refine TableRow.matches_iff.2 (BitVec.eq_of_toNat_eq ?_)
  simp only [rangeRow]
  rw [toNat_and_allOnes_shiftLeft, hq, BitVec.toNat_ofNat, Nat.mul_comm, Nat.mod_eq_of_lt (Nat.lt_of_le_of_lt hlo v.isLt)]

/-- The mnemonics of the rows an opcode value belongs to, as EveryOpcodeMatchesOneTableRow writes them. -/
def matchingMnemonics (rows : List (TableRow n)) (v : BitVec n) : List String :=
  (rows.filter (fun r => r.matches v)).map (fun r => r.mnemonic)

/-- In a table of disjoint rows a value in the range of one row belongs to that row alone. -/
theorem matchingMnemonics_of_mem_range (hrows : rows.Pairwise (·.disjoint ·)) {m : String} {b k : Nat}
    (hrow : rangeRow n m b k ∈ rows ∧ 2 ^ k ∣ b) (hv : b ≤ v.toNat ∧ v.toNat < b + 2 ^ k) :
    matchingMnemonics rows v = [m] := by
  obtain ⟨hmem, hb⟩ := hrow
  obtain ⟨hlo, hhi⟩ := hv
  rw [matchingMnemonics, filter_matches_eq_singleton hrows hmem (rangeRow_matches hb hlo hhi)]
  rfl

end Rows

theorem cfgRows_disjoint : cfgRows.Pairwise (·.disjoint ·) := by decide

theorem filterRows_disjoint : filterRows.Pairwise (·.disjoint ·) := by decide

theorem cfgRows_of_range {m : String} {pred : Word} (b k : Nat) (hrow : rangeRow 32 m b k ∈ cfgRows ∧ 2 ^ k ∣ b)
    (hv : b ≤ pred.toNat ∧ pred.toNat < b + 2 ^ k) : matchingMnemonics cfgRows pred = [m] :=
  matchingMnemonics_of_mem_range cfgRows_disjoint hrow hv

theorem filterRows_of_range {m : String} {ft : Byte} (b k : Nat) (hrow : rangeRow 8 m b k ∈ filterRows ∧ 2 ^ k ∣ b)
    (hv : b ≤ ft.toNat ∧ ft.toNat < b + 2 ^ k) : matchingMnemonics filterRows ft = [m] :=
  matchingMnemonics_of_mem_range filterRows_disjoint hrow hv

/-- From 16 on the row of a PRED value is that of its highest set bit (30_encoding.md R52). -/
theorem pngRow_mem {k : Nat} (hlo : 4 ≤ k) (hhi : k < 32) : rangeRow 32 "PRED.PNG" (2 ^ k) k ∈ cfgRows := by
  have hrow : pngRowOfBit (k - 4 + 4) = rangeRow 32 "PRED.PNG" (2 ^ k) k := by rw [Nat.sub_add_cancel hlo]; rfl
  rw [← hrow]
  exact List.mem_append_left _ (List.mem_append_right _ (List.mem_map.2 ⟨k - 4, List.mem_range.2 (by omega), rfl⟩))

/-- The rows of PRED.PNG cover `PRED >= 10`: 10 to 11, 12 to 15, and one row for each highest set bit from 4 on. -/
theorem cfgRows_of_png {pred : Word} (h : 10 ≤ pred.toNat) : matchingMnemonics cfgRows pred = ["PRED.PNG"] := by
  obtain h10 | h12 | h16 : pred.toNat < 12 ∨ (12 ≤ pred.toNat ∧ pred.toNat < 16) ∨ 16 ≤ pred.toNat := by omega
  · exact cfgRows_of_range 10 1 (by decide) ⟨h, h10⟩
  · exact cfgRows_of_range 12 2 (by decide) h12
  · have hne : pred.toNat ≠ 0 := by omega
    have hlo : 4 ≤ pred.toNat.log2 := (Nat.le_log2 hne).2 h16
    have hhi : pred.toNat.log2 < 32 := (Nat.log2_lt hne).2 pred.isLt
    refine cfgRows_of_range _ _ ⟨pngRow_mem hlo hhi, Nat.dvd_refl _⟩ ⟨Nat.log2_self_le hne, ?_⟩
    simpa [Nat.pow_succ, Nat.mul_two] using Nat.lt_log2_self (n := pred.toNat)

/-- The rows of illegal_PRED cover 0, 3, 4 to 7 and 8 to 9. -/
theorem cfgRows_of_illegal {pred : Word} (h : pred.toNat = 0 ∨ (3 ≤ pred.toNat ∧ pred.toNat ≤ 9)) :
    matchingMnemonics cfgRows pred = ["illegal_PRED"] := by
  obtain h0 | h3 | h4 | h8 : pred.toNat = 0 ∨ pred.toNat = 3 ∨ (4 ≤ pred.toNat ∧ pred.toNat < 8)
      ∨ (8 ≤ pred.toNat ∧ pred.toNat < 10) := by omega
  · exact cfgRows_of_range 0 0 (by decide) (by omega)
  · exact cfgRows_of_range 3 0 (by decide) (by omega)
  · exact cfgRows_of_range 4 2 (by decide) h4
  · exact cfgRows_of_range 8 1 (by decide) h8

/-- The rows of illegal_FT cover 5, 6 to 7, and one row for each highest set bit from 3 to 7. -/
theorem filterRows_of_illegal {ft : Byte} (h : 5 ≤ ft.toNat) : matchingMnemonics filterRows ft = ["illegal_FT"] := by
  have hft := ft.isLt
  obtain h5 | h6 | h8 | h16 | h32 | h64 | h128 : ft.toNat = 5 ∨ (6 ≤ ft.toNat ∧ ft.toNat < 8)
      ∨ (8 ≤ ft.toNat ∧ ft.toNat < 16) ∨ (16 ≤ ft.toNat ∧ ft.toNat < 32) ∨ (32 ≤ ft.toNat ∧ ft.toNat < 64)
      ∨ (64 ≤ ft.toNat ∧ ft.toNat < 128) ∨ (128 ≤ ft.toNat ∧ ft.toNat < 256) := by omega
  · exact filterRows_of_range 5 0 (by decide) (by omega)
  · exact filterRows_of_range 6 1 (by decide) h6
  · exact filterRows_of_range 8 3 (by decide) h8
  · exact filterRows_of_range 16 4 (by decide) h16
  · exact filterRows_of_range 32 5 (by decide) h32
  · exact filterRows_of_range 64 6 (by decide) h64
  · exact filterRows_of_range 128 7 (by decide) h128

theorem cfgRows_of_cfg (c : Cfg) : matchingMnemonics cfgRows c.pred = [(decodeCfg c).mnemonic] := by
  obtain ⟨hp, hd⟩ | ⟨hp, hd⟩ | ⟨hp, hd⟩ | ⟨hp, hd⟩ := decodeCfg_cases c <;> rw [hd]
  · exact cfgRows_of_range (m := "PRED.NONE") 1 0 (by decide) (by omega)
  · exact cfgRows_of_range (m := "PRED.TIFF") 2 0 (by decide) (by omega)
  · exact cfgRows_of_png hp
  · exact cfgRows_of_illegal hp

theorem filterRows_of_row (ft : Byte) : matchingMnemonics filterRows ft = [(decodeRow ft).mnemonic] := by
  obtain ⟨hf, hd⟩ | ⟨hf, hd⟩ | ⟨hf, hd⟩ | ⟨hf, hd⟩ | ⟨hf, hd⟩ | ⟨hf, hd⟩ := decodeRow_cases ft <;> rw [hd]
  · exact filterRows_of_range 0 0 (by decide) (by omega)
  · exact filterRows_of_range 1 0 (by decide) (by omega)
  · exact filterRows_of_range 2 0 (by decide) (by omega)
  · exact filterRows_of_range 3 0 (by decide) (by omega)
  · exact filterRows_of_range 4 0 (by decide) (by omega)
  · exact filterRows_of_illegal hf

/-- Settles O2: each class of the decoder is a union of rows' ranges, and in a table of disjoint rows the row whose range
holds the value is the only one that matches. -/
theorem everyOpcodeMatchesOneTableRow : Obligations.EveryOpcodeMatchesOneTableRow :=
  ⟨cfgRows_of_cfg, filterRows_of_row⟩

end Sys2Proof
end

-- The geometry handler and the admitted domain: family 40_geometry.md
section
/-! Proofs. The admitted domain condition by condition, the geometry registers a START loads, and the refusal of a
configuration outside the domain (40_geometry.md R70 to R76). -/

namespace Sys2Proof.Machine

variable {wCfg wLen : Nat} {p : Params} {e u : Engine wCfg wLen} {path : Path} {o : CfgOpsOf wCfg wLen}

/-! ## The admitted domain -/

/-- A whole row takes STRIDE bytes of the input, and the filter-type byte on the PNG path (40_geometry.md R73, R74). -/
theorem geometry_nrows (path : Path) (o : CfgOpsOf wCfg wLen) :
    (geometry path o).nrows
      = o.len.toNat / (if path = .png then (geometry path o).stride + 1 else (geometry path o).stride) := by
  cases path <;> rfl

/-- On the TIFF path START has found a listed bit depth, so the table asks for one on the PNG path alone. -/
theorem bitDepthListed_iff_of_row_path (h : (path = .tiff ∧ o.bpc.toNat = 8) ∨ path = .png) :
    bitDepthListed o.bpc = true ↔ (path = .png → o.bpc.toNat ∈ [1, 2, 4, 8, 16]) := by
  rw [bitDepthListed_iff]
  obtain ⟨rfl, hbpc⟩ | rfl := h
  · simp [hbpc]
  · simp

/-- Settles O17: unfolded once, the domain check is the table, with STRIDE and NROWS as `geometry` computes them. -/
theorem admittedExactlyInsideTheDomain : Obligations.AdmittedExactlyInsideTheDomain := by
  unfold Obligations.AdmittedExactlyInsideTheDomain
  refine fun wCfg wLen => ⟨fun path o p hpath => ?_, fun _ _ => fits_iff⟩
  rw [admitted_iff, Geometry.fitsMachine_iff, fits_iff, fits_iff, bitDepthListed_iff_of_row_path hpath, geometry_nrows]
  exact Iff.rfl

/-! ## The geometry registers after START -/

/-- Inside the domain the quotient of BPP is not 0, so the `max` of R70 never acts. -/
theorem pixelBytes_pos (h : admitted path o p = true) : 1 ≤ (o.bpc.toNat * o.colors.toNat + 7) / 8 := by
  obtain ⟨hcolors, -, hlisted, -⟩ := admitted_iff.1 h
  have hbpc : 0 < o.bpc.toNat := by
    have := bitDepthListed_iff.1 hlisted
    omega
  have := Nat.mul_pos hbpc hcolors
  omega

/-- A START that runs a path with rows leaves the configuration it was given and its derived geometry in the registers. -/
theorem engineStart_geometryInv {c : CfgOf wCfg wLen} (h : engineStart p c e = .next u)
    (hpath : u.path = .tiff ∨ u.path = .png) : u.GeometryInv p ∧ u.cfgOps = c.ops := by
  obtain ⟨-, ⟨-, -, rfl⟩ | ⟨-, -, had, rfl⟩ | ⟨-, -, rfl⟩ | ⟨-, had, rfl⟩ | ⟨-, rfl⟩⟩ := engineStart_cases h
  · simp at hpath
  · exact ⟨.of_start had e, rfl⟩
  · simp at hpath
  · exact ⟨(Engine.GeometryInv.of_start had e).of_same rfl rfl ⟨rfl, rfl, rfl, rfl⟩, rfl⟩
  · simp at hpath

/-- NROWS is the quotient of LEN by ROWSIZE (40_geometry.md R74). -/
theorem Engine.GeometryInv.nrows_eq (h : e.GeometryInv p) : e.nrows.toNat = e.len.toNat / e.rowsize.toNat := by
  rw [h.nrowsReg, h.rowsizeReg]
  rfl

/-- The bytes after the last whole row are fewer than a row (40_geometry.md R74). -/
theorem Engine.GeometryInv.remainder_lt (h : e.GeometryInv p) :
    e.len.toNat - e.nrows.toNat * e.rowsize.toNat < e.rowsize.toNat := by
  obtain ⟨-, -, -, hrowsize⟩ := h.bounds
  rw [h.nrows_eq, ← Nat.mod_eq_sub_div_mul]
  exact Nat.mod_lt _ hrowsize

/-- Settles O16: outside RUN the instruction is START, and one that runs a path with rows loads the derived geometry. -/
theorem startLoadsTheDerivedGeometry : Obligations.StartLoadsTheDerivedGeometry := by
  unfold Obligations.StartLoadsTheDerivedGeometry
  intro s t c hr h hpath
  rw [exec_decodeCfg hr, onEngine_eq_next] at h
  obtain ⟨u, hu, rfl⟩ := h
  obtain ⟨hg, hops⟩ := engineStart_geometryInv hu hpath
  obtain ⟨-, -, hstride, -⟩ := hg.bounds
  have hstrideEq : u.stride.toNat = u.cfgOps.columns.toNat * u.bpp.toNat := by
    rw [hg.strideReg, hg.bppReg]
    rfl
  rw [← hops]
  exact ⟨hg.bppReg, pixelBytes_pos hg.inDomain, hstrideEq, hstride, hg.rowsize_tiff, hg.rowsize_png, hg.nrows_eq,
    hg.remainder_lt⟩

/-! ## A configuration outside the domain -/

theorem startIdentity_of_outside {c : CfgOf wCfg wLen} (h : admittedIdentity c.ops p = false) :
    startIdentity p c e = .refused .outsideDomain :=
  if_neg (Bool.eq_false_iff.1 h)

theorem startTiff_of_outside {c : CfgOf wCfg wLen} (hbpc : c.ops.bpc.toNat = 8) (h : admitted .tiff c.ops p = false) :
    startTiff p c e = .refused .outsideDomain :=
  (if_pos hbpc).trans (if_neg (Bool.eq_false_iff.1 h))

theorem startPng_of_outside {c : CfgOf wCfg wLen} (h : admitted .png c.ops p = false) :
    startPng p c e = .refused .outsideDomain :=
  if_neg (Bool.eq_false_iff.1 h)

section NotRunning

variable {s : State} (hr : s.phase ≠ .run)
include hr

theorem exec_predNone_of_not_run (o : CfgOps) : exec (.predNone o) s = s.onEngine (startIdentity s.params ⟨1, o⟩) :=
  onEngine_congr (startOrContinue_of_not_run hr)

theorem exec_predTiff_of_not_run (o : CfgOps) : exec (.predTiff o) s = s.onEngine (startTiff s.params ⟨2, o⟩) :=
  onEngine_congr (startOrContinue_of_not_run hr)

theorem exec_predPng_of_not_run (pred : Word) (o : CfgOps) :
    exec (.predPng pred o) s = s.onEngine (startPng s.params ⟨pred, o⟩) :=
  onEngine_congr (startOrContinue_of_not_run hr)

end NotRunning

/-- Settles O23: outside RUN each of the three instructions is its START, which the domain check refuses. -/
theorem outsideTheDomainIsRefused : Obligations.OutsideTheDomainIsRefused := by
  unfold Obligations.OutsideTheDomainIsRefused
  intro s o hr
  rw [exec_predNone_of_not_run hr, exec_predTiff_of_not_run hr]
  refine ⟨fun h => ?_, fun hbpc h => ?_, fun pred h => ?_⟩
  · exact onEngine_eq_refused.2 (startIdentity_of_outside h)
  · exact onEngine_eq_refused.2 (startTiff_of_outside hbpc h)
  · rw [exec_predPng_of_not_run hr]
    exact onEngine_eq_refused.2 (startPng_of_outside h)

end Sys2Proof.Machine
end

-- Dispatch, the identity path and whole invocations: family 41_dispatch_identity.md
section
/-! Proofs. START and the frames of the level-1 instructions, and whole invocations against the reference function
(41_dispatch_identity.md R80 to R87). -/

namespace Sys2Proof.Machine

variable {wCfg wLen : Nat} {p : Params} {e u : Engine wCfg wLen}

/-! ## START outside RUN, and never in RUN (41_dispatch_identity.md R80, R81) -/

/-- Settles O18: outside RUN the instruction is START on the identity path, with the record it writes. -/
theorem startIdentityRuns : Obligations.StartIdentityRuns := by
  unfold Obligations.StartIdentityRuns
  intro s o hr had
  rw [exec_predNone_of_not_run hr]
  exact onEngine_eq_next.2 ⟨_, startIdentity_eq_next.2 ⟨had, rfl⟩, rfl⟩

/-- Settles O19: outside RUN the instruction is START on the TIFF path, with the record it writes. -/
theorem startTiffRuns : Obligations.StartTiffRuns := by
  unfold Obligations.StartTiffRuns
  intro s o hr hbpc had
  rw [exec_predTiff_of_not_run hr]
  exact onEngine_eq_next.2 ⟨_, startTiff_eq_next.2 (.inl ⟨hbpc, had, rfl⟩), rfl⟩

/-- Settles O20: outside RUN the instruction is START on the PNG path; PREV is the cleared memory. -/
theorem startPngRuns : Obligations.StartPngRuns := by
  unfold Obligations.StartPngRuns
  intro s pred o hm hr had
  obtain ⟨hprev, -, -, -⟩ := memoriesWf_iff.1 hm
  refine ⟨s.prev.clearBelow (geometry .png o).stride, ?_, Memory.clearBelow_wf _ hprev, Memory.read_clearBelow hprev _⟩
  rw [exec_predPng_of_not_run hr]
  exact onEngine_eq_next.2 ⟨_, startPng_eq_next.2 ⟨had, rfl⟩, rfl⟩

/-- During RUN a level-1 instruction that is not the one in progress is a START, refused. -/
theorem startOrContinue_of_not_mine {start go : Engine wCfg wLen → EngineResult wCfg wLen} {mine : Bool}
    (hr : e.phase = .run) (hmine : mine = false) : startOrContinue mine start go e = .refused .startWhileRunning := by
  rw [startOrContinue_of_run hr, hmine, if_neg (by simp)]

theorem exec_predNone_of_other {s : State} {o : CfgOps} (hr : s.phase = .run) (h : s.path ≠ .id ∨ s.cfgOps ≠ o) :
    exec (.predNone o) s = .refused .startWhileRunning :=
  onEngine_eq_refused.2 (startOrContinue_of_not_mine hr (decide_eq_false (not_and_or.2 h)))

theorem exec_predTiff_of_other {s : State} {o : CfgOps} (hr : s.phase = .run) (h : s.path ≠ .tiff ∨ s.cfgOps ≠ o) :
    exec (.predTiff o) s = .refused .startWhileRunning :=
  onEngine_eq_refused.2 (startOrContinue_of_not_mine hr (decide_eq_false (not_and_or.2 h)))

theorem exec_predPng_of_other {s : State} {pred : Word} {o : CfgOps} (hr : s.phase = .run)
    (h : s.path ≠ .png ∨ s.pred ≠ pred ∨ s.cfgOps ≠ o) : exec (.predPng pred o) s = .refused .startWhileRunning :=
  onEngine_eq_refused.2 (startOrContinue_of_not_mine hr
    (decide_eq_false (not_and_or.2 (h.imp_right not_and_or.2))))

theorem exec_illegalPred_of_run {s : State} (hr : s.phase = .run) (pred : Word) (o : CfgOps) :
    exec (.illegalPred pred o) s = .refused .startWhileRunning :=
  onEngine_eq_refused.2 (startOrContinue_of_not_mine hr rfl)

/-- Settles O24: what the step does with a START in each phase, and the refusal of each level-1 instruction in RUN. -/
theorem startIsLegalOutsideRunOnly : Obligations.StartIsLegalOutsideRunOnly := by
  unfold Obligations.StartIsLegalOutsideRunOnly
  refine ⟨fun s c hs => ⟨fun hphase => ?_, fun hr => step_of_start_running hr hs⟩, fun s pred o hr => ?_⟩
  · have hr : s.phase ≠ .run := by rcases hphase with h | h | h <;> simp [h]
    exact (step_of_start hr hs).trans (exec_decodeCfg (s := s.takeStart) hr c).symm
  · exact ⟨exec_illegalPred_of_run hr pred o, exec_predNone_of_other hr, exec_predTiff_of_other hr, exec_predPng_of_other hr⟩

/-! ## The identity step (41_dispatch_identity.md R84) -/

/-- Settles O25: by the invariant byte K exists in IN and has room in OUT, so the step is the copy or the end. -/
theorem identityStepCopiesOneByte : Obligations.IdentityStepCopiesOneByte := by
  unfold Obligations.IdentityStepCopiesOneByte
  intro s hi hr hp
  have hid := hi.identity (.inl hr) hp
  refine ⟨?_, hid.outIsK⟩
  rw [exec_predNone_in_progress hr hp]
  by_cases hk : s.k = s.len
  · rw [if_pos hk]
    exact onEngine_eq_next.2 ⟨_, identityStep_eq_next.2 (.inl ⟨hk, rfl⟩), rfl⟩
  · rw [if_neg hk]
    obtain ⟨hlen, hcap⟩ := hid.room_lt hk
    exact onEngine_eq_next.2 ⟨_, identityStep_eq_next.2 (.inr ⟨hk, hlen, hcap, rfl⟩), rfl⟩

/-! ## What the level-1 instructions leave unchanged -/

/-- A level-1 instruction that answers a next state at the interface has performed START, or was in progress and went on. -/
theorem onEngine_startOrContinue_cases {s t : State} {op start go : Engine 32 32 → EngineResult 32 32} {mine : Prop}
    [Decidable mine] (h : s.onEngine op = .next t) (hop : op s.toEngine = startOrContinue mine start go s.toEngine) :
    ∃ u, t = s.withEngine u ∧ ((s.phase ≠ .run ∧ start s.toEngine = .next u)
      ∨ (s.phase = .run ∧ mine ∧ go s.toEngine = .next u)) := by
  obtain ⟨u, hu, rfl⟩ := onEngine_eq_next.1 h
  rw [hop, startOrContinue_eq_next, decide_eq_true_eq] at hu
  exact ⟨u, rfl, hu⟩

theorem pathStep_of_id (hp : e.path = .id) : pathStep p e = identityStep p e := by simp only [pathStep, hp]

theorem pathStep_of_tiff (hp : e.path = .tiff) : pathStep p e = tiffStep p e := by simp only [pathStep, hp]

theorem pathStep_of_png (hp : e.path = .png) : pathStep p e = pngStep p e := by simp only [pathStep, hp]

/-- Settles O41, by START and the two steps of the identity path. -/
theorem identityFrame : Obligations.IdentityFrame := by
  unfold Obligations.IdentityFrame
  intro o s t hm h
  obtain ⟨-, -, -, hout⟩ := memoriesWf_iff.1 hm
  obtain ⟨u, rfl, ⟨hr, hu⟩ | ⟨hr, ⟨hp, -⟩, hu⟩⟩ := onEngine_startOrContinue_cases h rfl
  · obtain ⟨-, rfl⟩ := startIdentity_eq_next.1 hu
    exact ⟨⟨rfl, rfl, rfl⟩, ⟨rfl, rfl, rfl, rfl⟩, rfl, fun _ => rfl, fun _ => rfl, fun hrun => absurd hrun hr,
      fun _ => ⟨rfl, rfl, rfl, rfl, rfl⟩, fun _ _ => rfl⟩
  · obtain ⟨hconfig, hgeometry, hin, hpath⟩ := pathStep_keeps ((pathStep_of_id hp).trans hu)
    obtain ⟨hk, rfl⟩ | ⟨hk, -, -, rfl⟩ := identityStep_eq_next.1 hu
    · exact ⟨⟨hin, rfl, rfl⟩, hgeometry, rfl, fun _ => rfl, fun _ => rfl,
        fun _ => ⟨hconfig, hpath, rfl, rfl, rfl, rfl, fun _ => ⟨rfl, rfl⟩, fun hne => absurd hk hne⟩,
        fun hne => absurd hr hne, fun _ _ => rfl⟩
    · exact ⟨⟨hin, rfl, rfl⟩, hgeometry, rfl, fun _ => rfl, fun _ => rfl,
        fun _ => ⟨hconfig, hpath, rfl, rfl, rfl, rfl, fun he => absurd he hk, fun _ => rfl⟩,
        fun hne => absurd hr hne, fun _ hne => Memory.read_write_other hout _ fun he => hne ⟨hr, hk, he⟩⟩

/-! ### The row loop of the TIFF and PNG paths -/

/-- What a step of the row loop leaves unchanged, by the stage it is taken in. -/
structure Engine.RowFrame (e u : Engine wCfg wLen) : Prop where
  k : u.k = e.k
  outsideRowstart : e.stage ≠ .rowstart → u.phase = e.phase ∧ u.ft = e.ft ∧ u.err = e.err
  atCommit : e.stage = .commit → u.j = e.j
  outsideCommit : e.stage ≠ .commit → u.i = e.i ∧ (u.phase = .error ∨ u.outLen = e.outLen)
  atEnd : e.stage = .rowstart → e.i = e.nrows → u.ft = e.ft ∧ u.j = e.j ∧ u.err = e.err ∧ u.stage = e.stage
  cur : ∀ k, ¬ (e.stage = .column ∧ k = e.j.toNat) → u.cur.read k = e.cur.read k
  outMem : ∀ k, ¬ (e.stage = .commit ∧ e.outLen.toNat ≤ k ∧ k < e.outLen.toNat + e.stride.toNat) →
    u.outMem.read k = e.outMem.read k
  prev : ∀ k, ¬ (e.stage = .commit ∧ k < e.stride.toNat) → u.prev.read k = e.prev.read k

theorem Engine.RowFrame.finish (hs : e.stage = .rowstart) : e.RowFrame e.finish :=
  ⟨rfl, fun hne => absurd hs hne, fun _ => rfl, fun _ => ⟨rfl, .inr rfl⟩, fun _ _ => ⟨rfl, rfl, rfl, rfl⟩, fun _ _ => rfl,
    fun _ _ => rfl, fun _ _ => rfl⟩

/-- At ROWSTART of a row FT may be loaded. -/
theorem Engine.RowFrame.setFilter_beginRow (hs : e.stage = .rowstart) (hi : e.i ≠ e.nrows) (t : Byte) :
    e.RowFrame (e.setFilter t).beginRow :=
  ⟨rfl, fun hne => absurd hs hne, fun hc => by simp [hs] at hc, fun _ => ⟨rfl, .inr rfl⟩, fun _ he => absurd he hi,
    fun _ _ => rfl, fun _ _ => rfl, fun _ _ => rfl⟩

/-- On the TIFF path FT stays as it is. -/
theorem Engine.RowFrame.beginRow (hs : e.stage = .rowstart) (hi : e.i ≠ e.nrows) : e.RowFrame e.beginRow :=
  .setFilter_beginRow hs hi e.ft

theorem Engine.RowFrame.setFilter_raise (hs : e.stage = .rowstart) (hi : e.i ≠ e.nrows) (t : Byte) (kind : ErrorKind) :
    e.RowFrame ((e.setFilter t).raise kind) :=
  ⟨rfl, fun hne => absurd hs hne, fun _ => rfl, fun _ => ⟨rfl, .inl rfl⟩, fun _ he => absurd he hi,
    fun _ _ => rfl, fun _ _ => rfl, fun _ _ => rfl⟩

theorem Engine.RowFrame.putColumn (hcur : e.cur.wf = true) (hs : e.stage = .column) (v : Byte) : e.RowFrame (e.putColumn v) :=
  ⟨rfl, fun _ => ⟨rfl, rfl, rfl⟩, fun hc => by simp [hs] at hc, fun _ => ⟨rfl, .inr rfl⟩, fun hc => by simp [hs] at hc,
    fun _ hne => Memory.read_write_other hcur v fun he => hne ⟨hs, he⟩, fun _ _ => rfl, fun _ _ => rfl⟩

theorem Engine.RowFrame.appendRow (hout : e.outMem.wf = true) (hs : e.stage = .commit) : e.RowFrame e.appendRow :=
  ⟨rfl, fun _ => ⟨rfl, rfl, rfl⟩, fun _ => rfl, fun hne => absurd hs hne, fun hc => by simp [hs] at hc, fun _ _ => rfl,
    fun k hne => (Memory.read_copyRow _ _ hout k _).trans (if_neg fun hk => hne ⟨hs, hk⟩), fun _ _ => rfl⟩

/-- At COMMIT the row may be kept in PREV. -/
theorem Engine.RowFrame.appendRow_keepRow (hprev : e.prev.wf = true) (hout : e.outMem.wf = true) (hs : e.stage = .commit) :
    e.RowFrame e.appendRow.keepRow :=
  { Engine.RowFrame.appendRow hout hs with
    prev := fun k hne => (Memory.read_copyRow 0 e.cur hprev k _).trans (if_neg fun hk => hne ⟨hs, by simpa using hk⟩) }

theorem tiffStep_rowFrame (hm : e.memoriesWf = true) (h : tiffStep p e = .next u) : e.RowFrame u := by
  obtain ⟨-, hcur, -, hout⟩ := memoriesWf_iff.1 hm
  obtain ⟨hs, -, rfl⟩ | ⟨hs, hi, rfl⟩ | ⟨hs, -, -, rfl⟩ | ⟨hs, -, rfl⟩ := tiffStep_eq_next.1 h
  · exact .finish hs
  · exact .beginRow hs hi
  · exact .putColumn hcur hs _
  · exact .appendRow hout hs

theorem pngStep_rowFrame (hm : e.memoriesWf = true) (h : pngStep p e = .next u) : e.RowFrame u := by
  obtain ⟨hprev, hcur, -, hout⟩ := memoriesWf_iff.1 hm
  obtain ⟨hs, -, rfl⟩ | ⟨hs, hi, -, -, rfl⟩ | ⟨hs, hi, -, -, rfl⟩ | ⟨hs, -, -, -, rfl⟩ | ⟨hs, -, -, rfl⟩ := pngStep_cases h
  · exact .finish hs
  · exact .setFilter_beginRow hs hi _
  · exact .setFilter_raise hs hi _ _
  · exact .putColumn hcur hs _
  · exact .appendRow_keepRow hprev hout hs

/-- The TIFF path has no filter type, no error of its own and no use of PREV (42_tiff.md R99, R101). -/
theorem tiffStep_ft_err_prev (hr : e.phase = .run) (h : tiffStep p e = .next u) :
    u.ft = e.ft ∧ u.err = e.err ∧ u.prev = e.prev ∧ u.phase ≠ .error := by
  obtain ⟨-, -, rfl⟩ | ⟨-, -, rfl⟩ | ⟨-, -, -, rfl⟩ | ⟨-, -, rfl⟩ := tiffStep_eq_next.1 h <;> simp [hr]

/-- Settles O40: in RUN by the frame of the row loop and what the TIFF path does not use; as START by the record it writes. -/
theorem tiffFrame : Obligations.TiffFrame := by
  unfold Obligations.TiffFrame
  intro o s t hm h
  obtain ⟨u, rfl, ⟨hr, hu⟩ | ⟨hr, ⟨hp, -⟩, hu⟩⟩ := onEngine_startOrContinue_cases h rfl
  · obtain ⟨hbpc, -, rfl⟩ | ⟨-, rfl⟩ := startTiff_eq_next.1 hu
    · exact ⟨⟨rfl, rfl, rfl⟩, rfl, fun _ => rfl, fun hrun => absurd hrun hr,
        fun _ => ⟨⟨rfl, rfl, rfl, rfl, rfl⟩, fun hne => absurd hbpc hne⟩, fun _ _ => rfl, fun _ _ => rfl⟩
    · exact ⟨⟨rfl, rfl, rfl⟩, rfl, fun _ => rfl, fun hrun => absurd hrun hr,
        fun _ => ⟨⟨rfl, rfl, rfl, rfl, rfl⟩, fun _ => ⟨rfl, rfl, rfl, rfl⟩⟩, fun _ _ => rfl, fun _ _ => rfl⟩
  · obtain ⟨hconfig, hgeometry, hin, hpath⟩ := pathStep_keeps ((pathStep_of_tiff hp).trans hu)
    obtain ⟨hft, herr, hprev, hne⟩ := tiffStep_ft_err_prev hr hu
    have hf := tiffStep_rowFrame hm hu
    refine ⟨⟨hin, rfl, rfl⟩, hft, fun _ => congrArg (Memory.read · _) hprev, fun _ => ⟨hconfig, hgeometry, hpath, hf.k, herr,
      fun hs => (hf.outsideRowstart hs).1, hf.atCommit, fun hs => ?_⟩, fun hn => absurd hr hn,
      fun k hk => hf.cur k fun hc => hk ⟨hr, hc⟩, fun k hk => hf.outMem k fun hc => hk ⟨hr, hc⟩⟩
    obtain ⟨hi, hout⟩ := hf.outsideCommit hs
    exact ⟨hi, hout.resolve_left hne⟩

/-- Settles O42: in RUN by the frame of the row loop; START clears PREV below the STRIDE it loads. -/
theorem pngFrame : Obligations.PngFrame := by
  unfold Obligations.PngFrame
  intro pred o s t hm h
  obtain ⟨u, rfl, ⟨hr, hu⟩ | ⟨hr, ⟨hp, -⟩, hu⟩⟩ := onEngine_startOrContinue_cases h rfl
  · obtain ⟨had, rfl⟩ := startPng_eq_next.1 hu
    have hstride := toNat_register_of_lt (geometry_lt had).2.1
    refine ⟨⟨rfl, rfl, rfl⟩, fun hrun => absurd hrun hr, fun _ => ⟨⟨rfl, rfl, rfl, rfl, rfl⟩, rfl⟩, fun _ _ => rfl,
      fun _ _ => rfl, fun k hk _ => ?_⟩
    exact (Memory.read_clearBelow (memoriesWf_iff.1 hm).1 _ k).trans (if_neg fun hlt => hk ⟨hr, hstride.symm ▸ hlt⟩)
  · obtain ⟨hconfig, hgeometry, hin, hpath⟩ := pathStep_keeps ((pathStep_of_png hp).trans hu)
    have hf := pngStep_rowFrame hm hu
    exact ⟨⟨hin, rfl, rfl⟩, fun _ => ⟨hconfig, hgeometry, hpath, hf.k, hf.outsideRowstart, hf.atCommit, hf.outsideCommit,
      hf.atEnd⟩, fun hn => absurd hr hn, fun k hk => hf.cur k fun hc => hk ⟨hr, hc⟩,
      fun k hk => hf.outMem k fun hc => hk ⟨hr, hc⟩, fun k _ hk => hf.prev k fun hc => hk ⟨hr, hc⟩⟩

/-! ## The first bytes of a memory -/

/-- The first `n` bytes of a memory, as `Engine.inBytes` and `Engine.outBytes` list them. -/
def Memory.bytes (m : Memory) (n : Nat) : List Byte := (List.range n).map m.read

theorem Engine.inBytes_eq (e : Engine wCfg wLen) (n : Nat) : e.inBytes n = e.inMem.bytes n := rfl

theorem Engine.outBytes_eq (e : Engine wCfg wLen) (n : Nat) : e.outBytes n = e.outMem.bytes n := rfl

@[simp] theorem Memory.bytes_zero (m : Memory) : m.bytes 0 = [] := rfl

@[simp] theorem Memory.length_bytes (m : Memory) (n : Nat) : (m.bytes n).length = n := by simp [Memory.bytes]

theorem Memory.bytes_succ (m : Memory) (n : Nat) : m.bytes (n + 1) = m.bytes n ++ [m.read n] := by
  simp [Memory.bytes, List.range_succ]

theorem Memory.bytes_congr {m m' : Memory} {n : Nat} (h : ∀ k, k < n → m.read k = m'.read k) : m.bytes n = m'.bytes n :=
  List.map_congr_left fun k hk => h k (List.mem_range.1 hk)

theorem Memory.getElem_bytes {m : Memory} {n k : Nat} (hk : k < (m.bytes n).length) : (m.bytes n)[k] = m.read k := by
  simp [Memory.bytes]

theorem Memory.getD_bytes {m : Memory} {n k : Nat} (hk : k < n) : (m.bytes n).getD k 0 = m.read k := by
  simp [Memory.bytes, hk]

/-- From byte `k` on the bytes are byte `k` and those from `k + 1` on. -/
theorem Memory.drop_bytes {m : Memory} {n k : Nat} (hk : k < n) :
    (m.bytes n).drop k = m.read k :: (m.bytes n).drop (k + 1) := by
  rw [List.drop_eq_getElem_cons (by simpa using hk), Memory.getElem_bytes]

/-- Writing the byte after the first `n` appends it to them. -/
theorem Memory.bytes_write {m : Memory} (h : m.wf = true) (n : Nat) (v : Byte) :
    (m.write n v).bytes (n + 1) = m.bytes n ++ [v] := by
  rw [Memory.bytes_succ, Memory.read_write_same h]
  exact congrArg (· ++ [v]) (Memory.bytes_congr fun k hk => Memory.read_write_other h v (Nat.ne_of_lt hk))

/-- Copying a row behind the first `base` bytes appends it to them. -/
theorem Memory.bytes_copyRow {m : Memory} (h : m.wf = true) (base : Nat) (src : Memory) :
    ∀ n, (m.copyRow base src n).bytes (base + n) = m.bytes base ++ src.bytes n
  | 0 => by simp [Memory.copyRow]
  | n + 1 => by
    rw [Memory.copyRow, ← Nat.add_assoc, Memory.bytes_write (Memory.copyRow_wf base src h n), Memory.bytes_copyRow h base src n,
      Memory.bytes_succ, List.append_assoc]

/-! ## The row in progress, completed as the reference does (42_tiff.md R100, 43_png.md R121) -/

/-- The LEN input bytes. -/
def Engine.input (e : Engine wCfg wLen) : List Byte := e.inMem.bytes e.len.toNat

/-- The OUT_LEN bytes put out so far. -/
def Engine.output (e : Engine wCfg wLen) : List Byte := e.outMem.bytes e.outLen.toNat

/-- The row before row I. -/
def Engine.history (e : Engine wCfg wLen) : List Byte := e.prev.bytes e.stride.toNat

/-- The row whose first J bytes stand in CUR, completed from its filtered bytes, which stand in IN from `base` on. -/
def Engine.completedRow (e : Engine wCfg wLen) (predicted : Nat → Byte → Byte) (base : Nat) : List Byte :=
  reconstructRow e.bpp.toNat predicted (e.cur.bytes e.j.toNat)
    ((e.input.drop (base + e.j.toNat)).take (e.stride.toNat - e.j.toNat))

/-- At its first column a row is the reference's row of its filtered bytes. -/
theorem Engine.completedRow_of_first (hj : e.j.toNat = 0) (f : Nat → Byte → Byte) (base : Nat) :
    e.completedRow f base = reconstructRow e.bpp.toNat f [] ((e.input.drop base).take e.stride.toNat) := by
  simp [Engine.completedRow, hj]

/-- Past its last column a row is what CUR holds. -/
theorem Engine.completedRow_of_last (hj : e.j.toNat = e.stride.toNat) (f : Nat → Byte → Byte) (base : Nat) :
    e.completedRow f base = e.cur.bytes e.stride.toNat := by
  simp [Engine.completedRow, hj, reconstructRow]

/-- The left neighbour is the reference's `at(row, J - BPP)`. -/
theorem Engine.left_eq_backAt (hb : 1 ≤ e.bpp.toNat) : e.left = backAt (e.cur.bytes e.j.toNat) e.j.toNat e.bpp.toNat := by
  rw [Engine.left_eq, backAt]
  split_ifs with h
  · rfl
  · exact (Memory.getD_bytes (by omega)).symm

/-- A COLUMN step that adds what is predicted from the left neighbour is the reference's next column. -/
theorem Engine.completedRow_putColumn (hcur : e.cur.wf = true) (hb : 1 ≤ e.bpp.toNat) (hj : e.j.toNat < e.stride.toNat)
    {f : Nat → Byte → Byte} {base : Nat} (hin : base + e.j.toNat < e.len.toNat) :
    (e.putColumn (reconstruct (e.inMem.read (base + e.j.toNat)) (f e.j.toNat e.left))).completedRow f base
      = e.completedRow f base := by
  have hstride : e.stride.toNat - e.j.toNat = e.stride.toNat - (e.j.toNat + 1) + 1 := by omega
  simp only [Engine.completedRow, Engine.input, Engine.putColumn_bpp, Engine.putColumn_cur, Engine.putColumn_j,
    Engine.putColumn_inMem, Engine.putColumn_len, Engine.putColumn_stride, toNat_add_one hj, Memory.bytes_write hcur]
  rw [hstride, Memory.drop_bytes hin, List.take_succ_cons, reconstructRow, Memory.length_bytes, e.left_eq_backAt hb,
    Nat.add_assoc]

/-! ## The result a running engine is on its way to, and the steps it still takes -/

/-- The TIFF rows from row `i` on (41_dispatch_identity.md R87). -/
def Engine.tiffRowsFrom (e : Engine wCfg wLen) (i : Nat) : List Byte :=
  tiffRows e.bpp.toNat e.stride.toNat (e.nrows.toNat - i) (e.input.drop (i * e.stride.toNat))

/-- The TIFF row in progress. -/
def Engine.tiffRowNow (e : Engine wCfg wLen) : List Byte := e.completedRow (fun _ a => a) (e.i.toNat * e.stride.toNat)

/-- What the TIFF path puts out from here on. -/
def Engine.tiffRest (e : Engine wCfg wLen) : List Byte :=
  if e.stage = .rowstart then e.tiffRowsFrom e.i.toNat else e.tiffRowNow ++ e.tiffRowsFrom (e.i.toNat + 1)

/-- The PNG rows from row `i` on, with the row before it (41_dispatch_identity.md R87). -/
def Engine.pngRowsFrom (e : Engine wCfg wLen) (i : Nat) (prev : List Byte) : Except ErrorKind (List Byte) :=
  pngRows e.bpp.toNat e.stride.toNat (e.nrows.toNat - i) prev (e.input.drop (i * e.rowsize.toNat))

/-- What FT predicts for column `j` with the left neighbour `a` (43_png.md R121). -/
def Engine.pngPredicted (e : Engine wCfg wLen) (j : Nat) (a : Byte) : Byte :=
  predictedValue e.ft a (e.history.getD j 0) (backAt e.history j e.bpp.toNat)

/-- The PNG row in progress. -/
def Engine.pngRowNow (e : Engine wCfg wLen) : List Byte := e.completedRow e.pngPredicted (e.filterAddr + 1)

/-- What the PNG path puts out from here on, or the error it ends in. -/
def Engine.pngRest (e : Engine wCfg wLen) : Except ErrorKind (List Byte) :=
  if e.stage = .rowstart then e.pngRowsFrom e.i.toNat e.history
  else (e.pngRowsFrom (e.i.toNat + 1) e.pngRowNow).map (e.pngRowNow ++ ·)

/-- What the path in progress puts out from here on, or the error it ends in. -/
def Engine.rest (e : Engine wCfg wLen) : Except ErrorKind (List Byte) :=
  match e.path with
  | .none => .ok []
  | .id => .ok (e.input.drop e.k.toNat)
  | .tiff => .ok e.tiffRest
  | .png => e.pngRest

/-- The result an engine has or is on its way to: what is put out already, and the rest. -/
def Engine.outcome (e : Engine wCfg wLen) : Option (Except ErrorKind (List Byte)) :=
  match e.phase with
  | .run => some (e.rest.map (e.output ++ ·))
  | .idle => e.result
  | .done => e.result
  | .error => e.result

/-- The rows from row `i` on that run to their COMMIT step. -/
def Engine.rowsFrom (e : Engine wCfg wLen) (i : Nat) : Nat :=
  match e.path with
  | .none => 0
  | .id => 0
  | .tiff => e.nrows.toNat - i
  | .png => firstIllegalRow e.rowsize.toNat (e.nrows.toNat - i) (e.input.drop (i * e.rowsize.toNat))

/-- The steps of the row loop that are left: a row takes STRIDE + 2, and the last step ends the loop or raises an error
(70_reset_and_hazards.md R161). -/
def Engine.rowStepsLeft (e : Engine wCfg wLen) : Nat :=
  if e.stage = .rowstart then e.rowsFrom e.i.toNat * (e.stride.toNat + 2) + 1
  else e.rowsFrom (e.i.toNat + 1) * (e.stride.toNat + 2) + 1 + (e.stride.toNat - e.j.toNat + 1)

/-- The steps left until PHASE is DONE or ERROR. -/
def Engine.stepsLeft (e : Engine wCfg wLen) : Nat :=
  match e.phase with
  | .run =>
    match e.path with
    | .none => 0
    | .id => e.len.toNat - e.k.toNat + 1
    | .tiff => e.rowStepsLeft
    | .png => e.rowStepsLeft
  | .idle => 0
  | .done => 0
  | .error => 0

theorem Engine.outcome_of_run (hr : e.phase = .run) : e.outcome = some (e.rest.map (e.output ++ ·)) := by
  simp only [Engine.outcome, hr]

theorem Engine.outcome_of_not_run (hr : e.phase ≠ .run) : e.outcome = e.result := by
  cases hp : e.phase <;> simp_all [Engine.outcome]

theorem Engine.stepsLeft_of_not_run (hr : e.phase ≠ .run) : e.stepsLeft = 0 := by
  cases hp : e.phase <;> simp_all [Engine.stepsLeft]

theorem Engine.rest_of_id (hp : e.path = .id) : e.rest = .ok (e.input.drop e.k.toNat) := by simp only [Engine.rest, hp]

theorem Engine.rest_of_tiff (hp : e.path = .tiff) : e.rest = .ok e.tiffRest := by simp only [Engine.rest, hp]

theorem Engine.rest_of_png (hp : e.path = .png) : e.rest = e.pngRest := by simp only [Engine.rest, hp]

theorem Engine.stepsLeft_of_id (hr : e.phase = .run) (hp : e.path = .id) :
    e.stepsLeft = e.len.toNat - e.k.toNat + 1 := by
  simp only [Engine.stepsLeft, hr, hp]

theorem Engine.stepsLeft_of_rows (hr : e.phase = .run) (hp : e.path = .tiff ∨ e.path = .png) :
    e.stepsLeft = e.rowStepsLeft := by
  obtain hp | hp := hp <;> simp only [Engine.stepsLeft, hr, hp]

/-- Bytes put in front of a list that is no error, one part after the other. -/
theorem except_map_append (r : Except ErrorKind (List Byte)) (xs ys : List Byte) :
    (r.map (ys ++ ·)).map (xs ++ ·) = r.map ((xs ++ ys) ++ ·) := by
  cases r <;> simp [Except.map]

theorem except_map_nil_append (r : Except ErrorKind (List Byte)) : r.map ([] ++ ·) = r := by
  cases r <;> simp [Except.map]

/-! ## A step in progress takes one of the steps left and keeps the result it is on its way to -/

/-- One step nearer to the same result. -/
structure Engine.Advances (e u : Engine wCfg wLen) : Prop where
  outcome : u.outcome = e.outcome
  steps : u.stepsLeft + 1 = e.stepsLeft

/-- A step that stays in RUN advances when what it puts out is taken from what was to come. -/
theorem Engine.Advances.of_run (hr : e.phase = .run) (hu : u.phase = .run)
    (hrest : u.rest.map (u.output ++ ·) = e.rest.map (e.output ++ ·)) (hsteps : u.stepsLeft + 1 = e.stepsLeft) :
    e.Advances u :=
  ⟨by rw [Engine.outcome_of_run hu, hrest, Engine.outcome_of_run hr], hsteps⟩

/-- The last step of a path leads to DONE with nothing to come. -/
theorem Engine.Advances.finish (hr : e.phase = .run) (hrest : e.rest = .ok []) (hsteps : e.stepsLeft = 1) :
    e.Advances e.finish := by
  refine ⟨?_, by rw [Engine.stepsLeft_of_not_run (by simp), hsteps]⟩
  rw [Engine.outcome_of_run hr, hrest, Engine.outcome_of_not_run (by simp)]
  simp [Engine.result, Except.map, Engine.output, Engine.outBytes_eq]

theorem identityStep_advances (hm : e.memoriesWf = true) (hi : e.IdentityInv p) (hr : e.phase = .run) (hp : e.path = .id)
    (h : identityStep p e = .next u) : e.Advances u := by
  obtain ⟨-, -, -, hout⟩ := memoriesWf_iff.1 hm
  obtain ⟨hk, rfl⟩ | ⟨-, hk, -, rfl⟩ := identityStep_eq_next.1 h
  · refine Engine.Advances.finish hr ?_ ?_
    · rw [Engine.rest_of_id hp, hk, List.drop_of_length_le (by simp [Engine.input])]
    · rw [Engine.stepsLeft_of_id hr hp, hk, Nat.sub_self]
  · refine .of_run hr hr ?_ ?_
    · have hput : (e.copyByte (e.inMem.read e.k.toNat)).output = e.output ++ [e.inMem.read e.k.toNat] := by
        simp only [Engine.output, Engine.copyByte_outLen, Engine.copyByte_outMem, hi.outIsK, toNat_add_one hk,
          Memory.bytes_write hout]
      have hdrop : e.input.drop e.k.toNat = e.inMem.read e.k.toNat :: e.input.drop (e.k.toNat + 1) := Memory.drop_bytes hk
      rw [Engine.rest_of_id (by exact hp), Engine.rest_of_id hp, hput, hdrop]
      simp only [Engine.input, Engine.copyByte_inMem, Engine.copyByte_len, Engine.copyByte_k, toNat_add_one hk, Except.map,
        List.append_assoc, List.singleton_append]
    · rw [Engine.stepsLeft_of_id (by exact hr) (by exact hp), Engine.stepsLeft_of_id hr hp]
      simp only [Engine.copyByte_len, Engine.copyByte_k, toNat_add_one hk]
      omega

/-! ### The rows of the TIFF and PNG paths -/

theorem Engine.rowStepsLeft_of_rowstart (hs : e.stage = .rowstart) :
    e.rowStepsLeft = e.rowsFrom e.i.toNat * (e.stride.toNat + 2) + 1 := if_pos hs

theorem Engine.rowStepsLeft_of_row (hs : e.stage ≠ .rowstart) :
    e.rowStepsLeft = e.rowsFrom (e.i.toNat + 1) * (e.stride.toNat + 2) + 1 + (e.stride.toNat - e.j.toNat + 1) := if_neg hs

/-- Beginning a row that runs to its COMMIT step is one of its STRIDE + 2 steps. -/
theorem Engine.rowStepsLeft_beginRow (hs : e.stage = .rowstart)
    (hrows : e.rowsFrom e.i.toNat = e.rowsFrom (e.i.toNat + 1) + 1) : e.beginRow.rowStepsLeft + 1 = e.rowStepsLeft := by
  have hsame : e.beginRow.rowsFrom (e.beginRow.i.toNat + 1) = e.rowsFrom (e.i.toNat + 1) := rfl
  rw [Engine.rowStepsLeft_of_row (by simp), e.rowStepsLeft_of_rowstart hs, hsame, hrows, Nat.add_mul]
  simp
  omega

/-- After a COLUMN step the row is not over. -/
theorem Engine.putColumn_stage_ne (hs : e.stage = .column) (v : Byte) : (e.putColumn v).stage ≠ .rowstart := by
  rw [Engine.putColumn_stage]
  split_ifs <;> simp [hs]

theorem Engine.rowStepsLeft_putColumn (hs : e.stage = .column) (hj : e.j.toNat < e.stride.toNat) (v : Byte) :
    (e.putColumn v).rowStepsLeft + 1 = e.rowStepsLeft := by
  have hsame : (e.putColumn v).rowsFrom ((e.putColumn v).i.toNat + 1) = e.rowsFrom (e.i.toNat + 1) := rfl
  rw [Engine.rowStepsLeft_of_row (Engine.putColumn_stage_ne hs v), e.rowStepsLeft_of_row (by simp [hs]), hsame,
    Engine.putColumn_stride, Engine.putColumn_j, toNat_add_one hj]
  omega

theorem Engine.rowStepsLeft_appendRow (hs : e.stage = .commit) (hj : e.j.toNat = e.stride.toNat)
    (hi : e.i.toNat < e.nrows.toNat) : e.appendRow.rowStepsLeft + 1 = e.rowStepsLeft := by
  have hsame : e.appendRow.rowsFrom e.appendRow.i.toNat = e.rowsFrom (e.i.toNat + 1) :=
    congrArg e.rowsFrom (toNat_add_one hi)
  rw [Engine.rowStepsLeft_of_rowstart (by simp), e.rowStepsLeft_of_row (by simp [hs]), hsame, Engine.appendRow_stride, hj]
  omega

/-- A COMMIT step puts out the row that CUR holds. -/
theorem Engine.output_appendRow (hout : e.outMem.wf = true) (hfits : e.rowFits p = true) :
    e.appendRow.output = e.output ++ e.cur.bytes e.stride.toNat := by
  have hcap := outCapacity_lt p wLen
  simp only [Engine.rowFits, decide_eq_true_eq] at hfits
  rw [Engine.output, Engine.appendRow_outLen, BitVec.toNat_add, Nat.mod_eq_of_lt (by omega), Engine.appendRow_outMem,
    Memory.bytes_copyRow hout, Engine.output]

theorem Engine.Advances.of_rows (hr : e.phase = .run) (hu : u.phase = .run) (hp : e.path = .tiff ∨ e.path = .png)
    (hpath : u.path = e.path) (hrest : u.rest.map (u.output ++ ·) = e.rest.map (e.output ++ ·))
    (hsteps : u.rowStepsLeft + 1 = e.rowStepsLeft) : e.Advances u := by
  refine .of_run hr hu hrest ?_
  rwa [Engine.stepsLeft_of_rows hr hp, Engine.stepsLeft_of_rows hu (hpath ▸ hp)]

theorem Engine.Advances.finish_rows (hr : e.phase = .run) (hp : e.path = .tiff ∨ e.path = .png) (hs : e.stage = .rowstart)
    (hrest : e.rest = .ok []) (hrows : e.rowsFrom e.i.toNat = 0) : e.Advances e.finish := by
  refine .finish hr hrest ?_
  rw [Engine.stepsLeft_of_rows hr hp, Engine.rowStepsLeft_of_rowstart hs, hrows, Nat.zero_mul]

/-! ### TIFF -/

theorem Engine.tiffRest_of_rowstart (hs : e.stage = .rowstart) : e.tiffRest = e.tiffRowsFrom e.i.toNat := if_pos hs

theorem Engine.tiffRest_of_row (hs : e.stage ≠ .rowstart) : e.tiffRest = e.tiffRowNow ++ e.tiffRowsFrom (e.i.toNat + 1) :=
  if_neg hs

theorem Engine.rowsFrom_of_tiff (hp : e.path = .tiff) (i : Nat) : e.rowsFrom i = e.nrows.toNat - i := by
  simp only [Engine.rowsFrom, hp]

/-- Where row `i` is not past the last, the rows from it on are itself and those from the next. -/
theorem rows_from_succ {i n : Nat} (hi : i < n) : n - i = n - (i + 1) + 1 := by omega

theorem Engine.tiffRowsFrom_of_end (hi : e.i = e.nrows) : e.tiffRowsFrom e.i.toNat = [] := by
  rw [Engine.tiffRowsFrom, hi, Nat.sub_self, tiffRows]

/-- The row a ROWSTART step begins is the first of the rows to come (42_tiff.md R96). -/
theorem Engine.tiffRest_beginRow (hs : e.stage = .rowstart) (hi : e.i.toNat < e.nrows.toNat) :
    e.beginRow.tiffRest = e.tiffRest := by
  rw [Engine.tiffRest_of_row (by simp), e.tiffRest_of_rowstart hs, Engine.tiffRowsFrom, Engine.tiffRowsFrom, rows_from_succ hi, tiffRows,
    List.drop_drop, ← Nat.succ_mul, Engine.tiffRowNow, Engine.completedRow_of_first (by simp)]
  rfl

/-- A COLUMN step is the next column of the row in progress (42_tiff.md R97). -/
theorem Engine.tiffRest_putColumn (hcur : e.cur.wf = true) (hb : 1 ≤ e.bpp.toNat) (hs : e.stage = .column)
    (ha : e.tiffAddr < e.len.toNat) (hj : e.j.toNat < e.stride.toNat) :
    (e.putColumn (reconstruct (e.inMem.read e.tiffAddr) e.left)).tiffRest = e.tiffRest := by
  rw [Engine.tiffRest_of_row (Engine.putColumn_stage_ne hs _), e.tiffRest_of_row (by simp [hs])]
  exact congrArg (· ++ e.tiffRowsFrom (e.i.toNat + 1)) (Engine.completedRow_putColumn (f := fun _ a => a) hcur hb hj ha)

/-- A COMMIT step puts out the row in progress (42_tiff.md R99). -/
theorem Engine.tiffRest_appendRow (hs : e.stage = .commit) (hj : e.j.toNat = e.stride.toNat) (hi : e.i.toNat < e.nrows.toNat) :
    e.tiffRest = e.cur.bytes e.stride.toNat ++ e.appendRow.tiffRest := by
  rw [e.tiffRest_of_row (by simp [hs]), Engine.tiffRest_of_rowstart (by simp), Engine.tiffRowNow,
    Engine.completedRow_of_last hj, Engine.appendRow_i, toNat_add_one hi]
  rfl

theorem tiffStep_advances (hm : e.memoriesWf = true) (hg : e.GeometryInv p) (hri : e.RowInv) (hr : e.phase = .run)
    (hp : e.path = .tiff) (h : tiffStep p e = .next u) : e.Advances u := by
  obtain ⟨-, hcur, -, hout⟩ := memoriesWf_iff.1 hm
  obtain ⟨hs, hi, rfl⟩ | ⟨hs, hi, rfl⟩ | ⟨hs, ha, hj, rfl⟩ | ⟨hs, hfits, rfl⟩ := tiffStep_eq_next.1 h
  · refine .finish_rows hr (.inl hp) hs ?_ ?_
    · rw [Engine.rest_of_tiff hp, Engine.tiffRest_of_rowstart hs, Engine.tiffRowsFrom_of_end hi]
    · rw [Engine.rowsFrom_of_tiff hp, hi, Nat.sub_self]
  · have hlt := hri.row_lt hi
    refine .of_rows hr hr (.inl hp) rfl ?_ (Engine.rowStepsLeft_beginRow hs ?_)
    · rw [Engine.rest_of_tiff hp, Engine.rest_of_tiff (by exact hp), Engine.tiffRest_beginRow hs hlt]
      rfl
    · rw [Engine.rowsFrom_of_tiff hp, Engine.rowsFrom_of_tiff hp]
      omega
  · refine .of_rows hr hr (.inl hp) rfl ?_ (Engine.rowStepsLeft_putColumn hs hj _)
    rw [Engine.rest_of_tiff hp, Engine.rest_of_tiff (by exact hp), Engine.tiffRest_putColumn hcur hg.bounds.1 hs ha hj]
    rfl
  · obtain ⟨hj, hi⟩ := hri.inCommit hs
    refine .of_rows hr hr (.inl hp) rfl ?_ (Engine.rowStepsLeft_appendRow hs hj hi)
    rw [Engine.rest_of_tiff hp, Engine.rest_of_tiff (by exact hp), Engine.output_appendRow hout hfits,
      Engine.tiffRest_appendRow hs hj hi]
    simp only [Except.map, List.append_assoc]

/-! ### PNG -/

theorem Engine.pngRest_of_rowstart (hs : e.stage = .rowstart) : e.pngRest = e.pngRowsFrom e.i.toNat e.history := if_pos hs

theorem Engine.pngRest_of_row (hs : e.stage ≠ .rowstart) :
    e.pngRest = (e.pngRowsFrom (e.i.toNat + 1) e.pngRowNow).map (e.pngRowNow ++ ·) := if_neg hs

theorem Engine.rowsFrom_of_png (hp : e.path = .png) (i : Nat) :
    e.rowsFrom i = firstIllegalRow e.rowsize.toNat (e.nrows.toNat - i) (e.input.drop (i * e.rowsize.toNat)) := by
  simp only [Engine.rowsFrom, hp]

/-- The rows from row I on are headed by its filter-type byte (43_png.md R106). -/
theorem Engine.headD_input (ha : e.filterAddr < e.len.toNat) :
    (e.input.drop (e.i.toNat * e.rowsize.toNat)).headD 0 = e.inMem.read e.filterAddr :=
  congrArg (·.headD 0) (Memory.drop_bytes ha)

/-- An illegal filter type ends the rows to come with its error (43_png.md R106, 60_exceptions.md R134). -/
theorem Engine.pngRowsFrom_of_illegal (hi : e.i.toNat < e.nrows.toNat) (ha : e.filterAddr < e.len.toNat)
    (hft : 4 < (e.inMem.read e.filterAddr).toNat) :
    e.pngRowsFrom e.i.toNat e.history = .error .unsupportedFilterType := by
  rw [Engine.pngRowsFrom, rows_from_succ hi, pngRows, Engine.headD_input ha, if_pos hft]

theorem Engine.rowsFrom_of_illegal (hp : e.path = .png) (hi : e.i.toNat < e.nrows.toNat) (ha : e.filterAddr < e.len.toNat)
    (hft : 4 < (e.inMem.read e.filterAddr).toNat) : e.rowsFrom e.i.toNat = 0 := by
  rw [Engine.rowsFrom_of_png hp, rows_from_succ hi, firstIllegalRow, Engine.headD_input ha, if_pos hft]

theorem Engine.rowsFrom_of_legal (hp : e.path = .png) (hi : e.i.toNat < e.nrows.toNat) (ha : e.filterAddr < e.len.toNat)
    (hft : (e.inMem.read e.filterAddr).toNat ≤ 4) : e.rowsFrom e.i.toNat = e.rowsFrom (e.i.toNat + 1) + 1 := by
  rw [Engine.rowsFrom_of_png hp, Engine.rowsFrom_of_png hp, rows_from_succ hi, firstIllegalRow, Engine.headD_input ha,
    if_neg (Nat.not_lt.2 hft), List.drop_drop, ← Nat.succ_mul]

/-- The row a ROWSTART step begins is the first of the rows to come (43_png.md R106). -/
theorem Engine.pngRest_beginRow (hs : e.stage = .rowstart) (hrow : e.rowsize.toNat = e.stride.toNat + 1)
    (hi : e.i.toNat < e.nrows.toNat) (ha : e.filterAddr < e.len.toNat) (hft : (e.inMem.read e.filterAddr).toNat ≤ 4) :
    (e.setFilter (e.inMem.read e.filterAddr)).beginRow.pngRest = e.pngRest := by
  rw [Engine.pngRest_of_row (by simp), e.pngRest_of_rowstart hs, Engine.pngRowsFrom, Engine.pngRowsFrom, rows_from_succ hi, pngRows,
    Engine.headD_input ha, if_neg (Nat.not_lt.2 hft), List.drop_drop, List.drop_drop, ← hrow, ← Nat.succ_mul,
    Engine.pngRowNow, Engine.completedRow_of_first (by simp)]
  rfl

/-- FT's operation adds what the reference predicts from the row before (43_png.md R108, R121). -/
theorem Engine.predictedBy_eq (hj : e.j.toNat < e.stride.toNat) (hb : 1 ≤ e.bpp.toNat) :
    predictedBy e.ft e = e.pngPredicted e.j.toNat e.left := by
  have habove : e.above = e.history.getD e.j.toNat 0 := (Memory.getD_bytes hj).symm
  have haboveLeft : e.aboveLeft = backAt e.history e.j.toNat e.bpp.toNat := by
    rw [Engine.aboveLeft_eq, backAt]
    split_ifs with h
    · rfl
    · exact (Memory.getD_bytes (by omega)).symm
  rw [predictedBy, Engine.pngPredicted, habove, haboveLeft]

/-- A COLUMN step is the next column of the row in progress (43_png.md R108). -/
theorem Engine.pngRest_putColumn (hcur : e.cur.wf = true) (hb : 1 ≤ e.bpp.toNat) (hs : e.stage = .column)
    (ha : e.pngAddr < e.len.toNat) (hj : e.j.toNat < e.stride.toNat) :
    (e.putColumn (reconstruct (e.inMem.read e.pngAddr) (predictedBy e.ft e))).pngRest = e.pngRest := by
  rw [Engine.pngRest_of_row (Engine.putColumn_stage_ne hs _), e.pngRest_of_row (by simp [hs]), Engine.predictedBy_eq hj hb]
  exact congrArg (fun row => (e.pngRowsFrom (e.i.toNat + 1) row).map (row ++ ·))
    (Engine.completedRow_putColumn (f := e.pngPredicted) hcur hb hj ha)

/-- A COMMIT step puts out the row in progress and keeps it as the row before the next (43_png.md R120). -/
theorem Engine.pngRest_appendRow_keepRow (hprev : e.prev.wf = true) (hs : e.stage = .commit)
    (hj : e.j.toNat = e.stride.toNat) (hi : e.i.toNat < e.nrows.toNat) :
    e.pngRest = e.appendRow.keepRow.pngRest.map (e.cur.bytes e.stride.toNat ++ ·) := by
  have hhistory : e.appendRow.keepRow.history = e.cur.bytes e.stride.toNat := by
    simpa [Engine.history] using Memory.bytes_copyRow hprev 0 e.cur e.stride.toNat
  rw [e.pngRest_of_row (by simp [hs]), Engine.pngRest_of_rowstart (by simp), hhistory, Engine.pngRowNow,
    Engine.completedRow_of_last hj, Engine.keepRow_i, Engine.appendRow_i, toNat_add_one hi]
  rfl

/-- The raise of an illegal filter type is the error the rows to come end in. -/
theorem Engine.Advances.raise (hr : e.phase = .run) (hp : e.path = .png) (hs : e.stage = .rowstart)
    (hi : e.i.toNat < e.nrows.toNat) (ha : e.filterAddr < e.len.toNat) (hft : 4 < (e.inMem.read e.filterAddr).toNat)
    (t : Byte) : e.Advances ((e.setFilter t).raise .unsupportedFilterType) := by
  refine ⟨?_, ?_⟩
  · rw [Engine.outcome_of_not_run (by simp), Engine.outcome_of_run hr, Engine.rest_of_png hp, Engine.pngRest_of_rowstart hs,
      Engine.pngRowsFrom_of_illegal hi ha hft]
    simp [Engine.result, Except.map]
  · rw [Engine.stepsLeft_of_not_run (by simp), Engine.stepsLeft_of_rows hr (.inr hp), Engine.rowStepsLeft_of_rowstart hs,
      Engine.rowsFrom_of_illegal hp hi ha hft, Nat.zero_mul]

theorem pngStep_advances (hm : e.memoriesWf = true) (hg : e.GeometryInv p) (hri : e.RowInv) (hr : e.phase = .run)
    (hp : e.path = .png) (h : pngStep p e = .next u) : e.Advances u := by
  obtain ⟨hprev, hcur, -, hout⟩ := memoriesWf_iff.1 hm
  obtain ⟨hs, hi, rfl⟩ | ⟨hs, hi, ha, hft, rfl⟩ | ⟨hs, hi, ha, hft, rfl⟩ | ⟨hs, -, ha, hj, rfl⟩ | ⟨hs, -, hfits, rfl⟩ :=
    pngStep_cases h
  · refine .finish_rows hr (.inr hp) hs ?_ ?_
    · rw [Engine.rest_of_png hp, Engine.pngRest_of_rowstart hs, Engine.pngRowsFrom, hi, Nat.sub_self, pngRows]
    · rw [Engine.rowsFrom_of_png hp, hi, Nat.sub_self, firstIllegalRow]
  · have hlt := hri.row_lt hi
    refine .of_rows hr hr (.inr hp) rfl ?_ (Engine.rowStepsLeft_beginRow hs (Engine.rowsFrom_of_legal hp hlt ha hft))
    rw [Engine.rest_of_png hp, Engine.rest_of_png (by exact hp), Engine.pngRest_beginRow hs (hg.rowsize_png hp) hlt ha hft]
    rfl
  · exact .raise hr hp hs (hri.row_lt hi) ha hft _
  · refine .of_rows hr hr (.inr hp) rfl ?_ (Engine.rowStepsLeft_putColumn hs hj _)
    rw [Engine.rest_of_png hp, Engine.rest_of_png (by exact hp), Engine.pngRest_putColumn hcur hg.bounds.1 hs ha hj]
    rfl
  · obtain ⟨hj, hi⟩ := hri.inCommit hs
    refine .of_rows hr hr (.inr hp) rfl ?_ (Engine.rowStepsLeft_appendRow hs hj hi)
    have hput : e.appendRow.keepRow.output = e.output ++ e.cur.bytes e.stride.toNat := Engine.output_appendRow hout hfits
    rw [Engine.rest_of_png hp, Engine.rest_of_png (by exact hp), hput, Engine.pngRest_appendRow_keepRow hprev hs hj hi,
      except_map_append]

/-! ## Every step of an invocation exists and advances -/

theorem pathStep_advances (hi : e.Inv p) (hr : e.phase = .run) (h : pathStep p e = .next u) : e.Advances u := by
  cases hp : e.path with
  | none => exact absurd hp (hi.path_ne_none (.inl hr))
  | id =>
    rw [pathStep_of_id hp] at h
    exact identityStep_advances hi.memories (hi.identity (.inl hr) hp) hr hp h
  | tiff =>
    rw [pathStep_of_tiff hp] at h
    obtain ⟨-, -, hg, hri⟩ := hi.tiff (.inl hr) hp
    exact tiffStep_advances hi.memories hg hri hr hp h
  | png =>
    rw [pathStep_of_png hp] at h
    obtain ⟨-, hg, hri, -⟩ := hi.png (.inl hr) hp
    exact pngStep_advances hi.memories hg hri hr hp h

theorem identityStep_exists (hi : e.IdentityInv p) : ∃ u, identityStep p e = .next u := by
  by_cases hk : e.k = e.len
  · exact ⟨_, identityStep_eq_next.2 (.inl ⟨hk, rfl⟩)⟩
  · obtain ⟨hlen, hcap⟩ := hi.room_lt hk
    exact ⟨_, identityStep_eq_next.2 (.inr ⟨hk, hlen, hcap, rfl⟩)⟩

theorem tiffStep_exists (hg : e.GeometryInv p) (hri : e.RowInv) (hp : e.path = .tiff) : ∃ u, tiffStep p e = .next u := by
  cases hs : e.stage with
  | rowstart =>
    by_cases hi : e.i = e.nrows
    · exact ⟨_, tiffStep_eq_next.2 (.inl ⟨hs, hi, rfl⟩)⟩
    · exact ⟨_, tiffStep_eq_next.2 (.inr (.inl ⟨hs, hi, rfl⟩))⟩
  | column =>
    obtain ⟨hj, hi⟩ := hri.inColumn hs
    exact ⟨_, tiffStep_eq_next.2 (.inr (.inr (.inl ⟨hs, Engine.tiffAddr_lt hg hp hi hj, hj, rfl⟩)))⟩
  | commit =>
    exact ⟨_, tiffStep_eq_next.2 (.inr (.inr (.inr ⟨hs, Engine.rowFits_of_inv hg hri (hri.inCommit hs).2, rfl⟩)))⟩

theorem pngStep_of_end (hs : e.stage = .rowstart) (hi : e.i = e.nrows) : pngStep p e = .next e.finish := by
  simp only [pngStep, hs, hi, if_true]

theorem pngStep_of_rowstart (hs : e.stage = .rowstart) (hi : e.i ≠ e.nrows) (ha : e.filterAddr < e.len.toNat) :
    pngStep p e = filterDispatch (e.inMem.read e.filterAddr) p e := by
  simp only [pngStep, hs, hi, if_false, Engine.filterByte, orFault_readIn_of_lt ha]

theorem pngStep_of_row (hs : e.stage ≠ .rowstart) : pngStep p e = filterDispatch e.ft p e := by
  cases h : e.stage <;> simp_all [pngStep]

theorem pngStep_exists (hg : e.GeometryInv p) (hri : e.RowInv) (hy : e.HistoryInv) (hr : e.phase = .run) (hp : e.path = .png) :
    ∃ u, pngStep p e = .next u := by
  cases hs : e.stage with
  | rowstart =>
    by_cases hi : e.i = e.nrows
    · exact ⟨_, pngStep_of_end hs hi⟩
    rw [pngStep_of_rowstart hs hi (Engine.filterAddr_lt hg (hri.row_lt hi))]
    by_cases hft : (e.inMem.read e.filterAddr).toNat ≤ 4
    · rw [filterDispatch_of_legal hft]
      exact ⟨_, rowOperation_eq_next.2 ⟨hr, hp, .inl ⟨hs, hi, rfl⟩⟩⟩
    · rw [filterDispatch_of_illegal (Nat.lt_of_not_le hft)]
      exact ⟨_, illegalFilter_eq_next.2 ⟨atPngRow_iff.2 ⟨hr, hp, hs, hi⟩, rfl⟩⟩
  | column =>
    obtain ⟨hj, hi⟩ := hri.inColumn hs
    have hne : e.stage ≠ .rowstart := by simp [hs]
    rw [pngStep_of_row hne, filterDispatch_of_legal (hy.filterLegal hne)]
    exact ⟨_, rowOperation_eq_next.2 ⟨hr, hp, .inr (.inl ⟨hs, Engine.pngAddr_lt hg hp hi hj, hj, rfl⟩)⟩⟩
  | commit =>
    have hne : e.stage ≠ .rowstart := by simp [hs]
    rw [pngStep_of_row hne, filterDispatch_of_legal (hy.filterLegal hne)]
    exact ⟨_, rowOperation_eq_next.2 ⟨hr, hp, .inr (.inr ⟨hs, Engine.rowFits_of_inv hg hri (hri.inCommit hs).2, rfl⟩)⟩⟩

/-- A state of a run in RUN has a next step: no refusal and no fault (70_reset_and_hazards.md R160). -/
theorem pathStep_exists (hi : e.Inv p) (hr : e.phase = .run) : ∃ u, pathStep p e = .next u := by
  cases hp : e.path with
  | none => exact absurd hp (hi.path_ne_none (.inl hr))
  | id =>
    rw [pathStep_of_id hp]
    exact identityStep_exists (hi.identity (.inl hr) hp)
  | tiff =>
    rw [pathStep_of_tiff hp]
    obtain ⟨-, -, hg, hri⟩ := hi.tiff (.inl hr) hp
    exact tiffStep_exists hg hri hp
  | png =>
    rw [pathStep_of_png hp]
    obtain ⟨-, hg, hri, hy⟩ := hi.png (.inl hr) hp
    exact pngStep_exists hg hri hy hr hp

theorem engineStep_of_run (hr : e.phase = .run) : engineStep p e = pathStep p e := by simp only [engineStep, hr]

theorem engineStep_of_not_run (hr : e.phase ≠ .run) : engineStep p e = .next e := by
  cases hp : e.phase <;> simp_all [engineStep]

/-- A step of an engine exists; it takes one of the steps left, if any is, and keeps the outcome. -/
theorem engineStep_of_inv (hi : e.Inv p) :
    ∃ u, engineStep p e = .next u ∧ u.Inv p ∧ u.outcome = e.outcome ∧ u.stepsLeft = e.stepsLeft - 1 := by
  by_cases hr : e.phase = .run
  · obtain ⟨u, hu⟩ := pathStep_exists hi hr
    have hadv := pathStep_advances hi hr hu
    exact ⟨u, (engineStep_of_run hr).trans hu, pathStep_inv hi hr hu, hadv.outcome, Nat.eq_sub_of_add_eq hadv.steps⟩
  · exact ⟨e, engineStep_of_not_run hr, hi, rfl, by rw [Engine.stepsLeft_of_not_run hr]⟩

theorem engineRun_succ (n : Nat) (h : engineStep p e = .next u) : engineRun p (n + 1) e = engineRun p n u := by
  simp only [engineRun, h]

/-- After any number of steps the engine is as many steps nearer to its outcome. -/
theorem engineRun_of_inv : ∀ (n : Nat) {e : Engine wCfg wLen}, e.Inv p →
    ∃ t, engineRun p n e = .next t ∧ t.Inv p ∧ t.outcome = e.outcome ∧ t.stepsLeft = e.stepsLeft - n
  | 0, e, hi => ⟨e, rfl, hi, rfl, rfl⟩
  | n + 1, e, hi => by
    obtain ⟨u, hu, hinv, ho, hs⟩ := engineStep_of_inv hi
    obtain ⟨t, ht, htinv, hto, hts⟩ := engineRun_of_inv n hinv
    exact ⟨t, (engineRun_succ n hu).trans ht, htinv, hto.trans ho, by omega⟩

/-- With PHASE = RUN a step is left. -/
theorem Engine.Inv.stepsLeft_eq_zero_iff (hi : e.Inv p) : e.stepsLeft = 0 ↔ e.phase ≠ .run := by
  refine ⟨fun h0 hr => ?_, Engine.stepsLeft_of_not_run⟩
  obtain ⟨u, hu⟩ := pathStep_exists hi hr
  have := (pathStep_advances hi hr hu).steps
  omega

/-- Outside RUN the outcome is the result, in RUN there is none yet. -/
theorem Engine.Inv.result_eq (hi : e.Inv p) : e.result = if e.stepsLeft = 0 then e.outcome else none := by
  by_cases hr : e.phase = .run
  · rw [if_neg (fun h0 => hi.stepsLeft_eq_zero_iff.1 h0 hr)]
    simp only [Engine.result, hr]
  · rw [if_pos (Engine.stepsLeft_of_not_run hr), Engine.outcome_of_not_run hr]

/-- An engine that has a result is complete. -/
theorem Engine.complete_of_result {r : Except ErrorKind (List Byte)} (h : e.result = some r) : e.complete = true := by
  cases hp : e.phase <;> simp_all [Engine.result, Engine.complete]

/-! ## START sets out for the reference function (41_dispatch_identity.md R87) -/

/-- START outside RUN is refused exactly where the spec refuses the configuration (40_geometry.md R76). -/
theorem engineStart_of_refused {c : CfgOf wCfg wLen} (hr : e.phase ≠ .run) (h : refusedAtStart c p = true) :
    engineStart p c e = .refused .outsideDomain := by
  simp only [refusedAtStart] at h
  rw [engineStart, if_neg hr]
  split_ifs at h ⊢ with h1 h2 h3
  · exact startIdentity_of_outside (by simpa using h)
  · obtain ⟨hbpc, had⟩ : c.ops.bpc.toNat = 8 ∧ admitted .tiff c.ops p = false := by simpa using h
    exact startTiff_of_outside hbpc had
  · exact startPng_of_outside (by simpa [h3] using h)
  · simp [h3] at h

theorem engineStart_exists {c : CfgOf wCfg wLen} (hr : e.phase ≠ .run) (h : refusedAtStart c p = false) :
    ∃ u, engineStart p c e = .next u := by
  simp only [refusedAtStart] at h
  rw [engineStart, if_neg hr]
  split_ifs at h ⊢ with h1 h2 h3
  · exact ⟨_, startIdentity_eq_next.2 ⟨by simpa using h, rfl⟩⟩
  · by_cases hbpc : c.ops.bpc.toNat = 8
    · exact ⟨_, startTiff_eq_next.2 (.inl ⟨hbpc, by simpa [hbpc] using h, rfl⟩)⟩
    · exact ⟨_, startTiff_eq_next.2 (.inr ⟨hbpc, rfl⟩)⟩
  · exact ⟨_, startPng_eq_next.2 ⟨by simpa [h3] using h, rfl⟩⟩
  · exact ⟨_, rfl⟩

/-- With nothing put out yet the outcome is what is to come. -/
theorem Engine.outcome_of_no_output (hr : e.phase = .run) (ho : e.outLen = 0) : e.outcome = some e.rest := by
  rw [Engine.outcome_of_run hr, show e.output = [] by simp [Engine.output, ho], except_map_nil_append]

theorem Engine.tiffRest_of_start (hs : e.stage = .rowstart) (hi : e.i = 0) :
    e.tiffRest = tiffRows e.bpp.toNat e.stride.toNat e.nrows.toNat e.input := by
  rw [Engine.tiffRest_of_rowstart hs, Engine.tiffRowsFrom, hi]
  simp

/-- Before row 0 the history is zeros (20_memory.md R41). -/
theorem Engine.history_of_first (hy : e.HistoryInv) (hi : e.i = 0) : e.history = List.replicate e.stride.toNat 0 := by
  refine List.eq_replicate_iff.2 ⟨Memory.length_bytes _ _, fun b hb => ?_⟩
  obtain ⟨k, hk, rfl⟩ := List.mem_map.1 hb
  exact hy.firstRow (by simp [hi]) k (List.mem_range.1 hk)

theorem Engine.pngRest_of_start (hs : e.stage = .rowstart) (hi : e.i = 0) (hy : e.HistoryInv) :
    e.pngRest
      = pngRows e.bpp.toNat e.stride.toNat e.nrows.toNat (List.replicate e.stride.toNat 0) e.input := by
  rw [Engine.pngRest_of_rowstart hs, Engine.pngRowsFrom, Engine.history_of_first hy hi, hi]
  simp

/-- What START leaves is on its way to the reference function of the configuration and the LEN input bytes, in the stated
number of steps. -/
structure SetsOut (c : CfgOf wCfg wLen) (bytes : List Byte) (u : Engine wCfg wLen) : Prop where
  outcome : u.outcome = some (reference c bytes)
  steps : u.stepsLeft = invocationSteps c bytes

theorem SetsOut.raise {c : CfgOf wCfg wLen} {bytes : List Byte} {kind : ErrorKind} (href : reference c bytes = .error kind)
    (hsteps : invocationSteps c bytes = 0) : SetsOut c bytes (e.raise kind) := by
  refine ⟨?_, by rw [Engine.stepsLeft_of_not_run (by simp), hsteps]⟩
  rw [Engine.outcome_of_not_run (by simp), href]
  rfl

theorem SetsOut.tiff {c : CfgOf wCfg wLen} {bytes : List Byte} (hpred : c.pred.toNat = 2) (hbpc : c.ops.bpc.toNat = 8)
    (hg : u.GeometryInv p) (hops : u.cfgOps = c.ops) (hr : u.phase = .run) (hp : u.path = .tiff) (hs : u.stage = .rowstart)
    (hi : u.i = 0) (ho : u.outLen = 0) (hin : u.input = bytes) : SetsOut c bytes u := by
  obtain ⟨-, hbpp, hstride, -, hnrows⟩ := hg
  rw [hp, hops] at hbpp hstride hnrows
  constructor
  · rw [Engine.outcome_of_no_output hr ho, Engine.rest_of_tiff hp, Engine.tiffRest_of_start hs hi, hbpp, hstride, hnrows, hin]
    simp [reference, hpred, hbpc]
  · rw [Engine.stepsLeft_of_rows hr (.inl hp), Engine.rowStepsLeft_of_rowstart hs, Engine.rowsFrom_of_tiff hp, hstride,
      hnrows, hi]
    simp [invocationSteps, hpred, hbpc]

theorem SetsOut.png {c : CfgOf wCfg wLen} {bytes : List Byte} (hpred : 10 ≤ c.pred.toNat) (hg : u.GeometryInv p)
    (hy : u.HistoryInv) (hops : u.cfgOps = c.ops) (hr : u.phase = .run) (hp : u.path = .png) (hs : u.stage = .rowstart)
    (hi : u.i = 0) (ho : u.outLen = 0) (hin : u.input = bytes) : SetsOut c bytes u := by
  obtain ⟨-, hbpp, hstride, hrowsize, hnrows⟩ := hg
  rw [hp, hops] at hbpp hstride hrowsize hnrows
  have h1 : c.pred.toNat ≠ 1 := by omega
  have h2 : c.pred.toNat ≠ 2 := by omega
  constructor
  · rw [Engine.outcome_of_no_output hr ho, Engine.rest_of_png hp, Engine.pngRest_of_start hs hi hy, hbpp, hstride, hnrows, hin]
    simp [reference, h1, h2, hpred]
  · rw [Engine.stepsLeft_of_rows hr (.inr hp), Engine.rowStepsLeft_of_rowstart hs, Engine.rowsFrom_of_png hp, hstride,
      hrowsize, hnrows, hi, hin]
    simp [invocationSteps, h1, h2, hpred]

theorem engineStart_setsOut (hm : e.memoriesWf = true) {c : CfgOf wCfg wLen} (h : engineStart p c e = .next u) :
    SetsOut c (e.inBytes c.ops.len.toNat) u := by
  have hinv := engineStart_inv hm h
  have hgeo := engineStart_geometryInv h
  obtain ⟨-, ⟨hpred, -, rfl⟩ | ⟨hpred, hbpc, -, rfl⟩ | ⟨hpred, hbpc, rfl⟩ | ⟨hpred, -, rfl⟩ | ⟨hpred, rfl⟩⟩ :=
    engineStart_cases h
  · constructor
    · rw [Engine.outcome_of_no_output rfl rfl, Engine.rest_of_id rfl]
      simp [reference, hpred, Engine.input, Engine.inBytes_eq]
    · rw [Engine.stepsLeft_of_id rfl rfl]
      simp [invocationSteps, hpred]
  · obtain ⟨hg, hops⟩ := hgeo (.inl rfl)
    exact .tiff hpred hbpc hg hops rfl rfl rfl rfl rfl rfl
  · exact .raise (by simp [reference, hpred, hbpc]) (by simp [invocationSteps, hpred, hbpc])
  · obtain ⟨hg, hops⟩ := hgeo (.inr rfl)
    obtain ⟨-, -, -, hy⟩ := hinv.png (.inl rfl) rfl
    exact .png hpred hg hy hops rfl rfl rfl rfl rfl rfl
  · have h1 : c.pred.toNat ≠ 1 := by omega
    have h2 : c.pred.toNat ≠ 2 := by omega
    have h3 : ¬ 10 ≤ c.pred.toNat := by omega
    exact .raise (by simp [reference, h1, h2, h3]) (by simp [invocationSteps, h1, h2, h3])

/-- START and any number of steps after it: the engine is on its way to the reference function until the stated steps are
taken, and has it from then on. -/
theorem engineStart_engineRun {c : CfgOf wCfg wLen} (hm : e.memoriesWf = true) (hr : e.phase ≠ .run)
    (h : refusedAtStart c p = false) (n : Nat) :
    ∃ u t, engineStart p c e = .next u ∧ engineRun p n u = .next t
      ∧ t.result = if invocationSteps c (e.inBytes c.ops.len.toNat) ≤ n
          then some (reference c (e.inBytes c.ops.len.toNat)) else none := by
  obtain ⟨u, hu⟩ := engineStart_exists hr h
  obtain ⟨houtcome, hsteps⟩ := engineStart_setsOut hm hu
  obtain ⟨t, ht, hinv, hto, hts⟩ := engineRun_of_inv n (engineStart_inv hm hu)
  exact ⟨u, t, hu, ht, by simp only [hinv.result_eq, hto, hts, houtcome, hsteps, Nat.sub_eq_zero_iff_le]⟩

/-! ## The interface runs its engine -/

/-- With no START pending the interface's run is the engine's. -/
theorem run_of_engineRun : ∀ {n : Nat} {s : State} {t : Engine 32 32}, s.start = none →
    engineRun s.params n s.toEngine = .next t → Host.Core.run Sys2Proof.core n s = .next (s.withEngine t)
  | 0, s, t, _, h => by cases h; rfl
  | n + 1, s, t, hs, h => by
    simp only [engineRun] at h
    cases hu : engineStep s.params s.toEngine with
    | next u =>
      rw [hu] at h
      exact run_succ.2 ⟨s.withEngine u, (step_of_no_start hs).trans (onEngine_eq_next.2 ⟨u, hu, rfl⟩),
        run_of_engineRun (s := s.withEngine u) hs h⟩
    | fault f => rw [hu] at h; cases h
    | refused r => rw [hu] at h; cases h

/-- An invocation at the interface: the step that takes START and `n` steps after it. -/
theorem State.Begins.run {s : State} {c : Cfg} (hb : s.Begins c) (n : Nat) :
    ∃ t : State, Host.Core.run Sys2Proof.core (n + 1) s = .next t
      ∧ t.result = if invocationSteps c (s.inBytes c.ops.len.toNat) ≤ n
          then some (reference c (s.inBytes c.ops.len.toNat)) else none := by
  obtain ⟨u, t, hu, ht, hresult⟩ := engineStart_engineRun hb.memories hb.legal hb.notRefused n
  have hstep : step s = .next (s.takeStart.withEngine u) :=
    (step_of_start hb.legal hb.performed).trans (onEngine_eq_next.2 ⟨u, hu, rfl⟩)
  exact ⟨_, run_succ.2 ⟨_, hstep, run_of_engineRun rfl ht⟩, (State.result_of_no_start rfl).trans hresult⟩

/-- The same after the stated steps. -/
theorem State.Begins.completes {s : State} {c : Cfg} (hb : s.Begins c) :
    ∃ t : State, Host.Core.run Sys2Proof.core (invocationSteps c (s.inBytes c.ops.len.toNat) + 1) s = .next t
      ∧ t.result = some (reference c (s.inBytes c.ops.len.toNat)) := by
  obtain ⟨t, ht, hresult⟩ := hb.run (invocationSteps c (s.inBytes c.ops.len.toNat))
  exact ⟨t, ht, by rw [hresult, if_pos (Nat.le_refl _)]⟩

/-- A state with a result has no START pending and its engine has that result. -/
theorem State.engine_result_of_result {s : State} {r : Except ErrorKind (List Byte)} (h : s.result = some r) :
    s.toEngine.result = some r := by
  cases hs : s.start with
  | none => rwa [State.result_of_no_start hs] at h
  | some c => simp [State.result, hs] at h

/-- Settles O55: START sets out for the reference function, every step in progress exists, keeps the outcome and takes one
of the stated steps, and when none is left the outcome is the result. -/
theorem invocationComputesTheReference : Obligations.InvocationComputesTheReference := by
  unfold Obligations.InvocationComputesTheReference
  refine ⟨fun s c hb => ?_, fun s c hr hs h => ?_, fun wCfg wLen p c e hm hr h => ?_⟩
  · obtain ⟨t, ht, hresult⟩ := hb.completes
    exact ⟨_, t, ht, Engine.complete_of_result (State.engine_result_of_result hresult), hresult⟩
  · rw [step_of_start hr hs, onEngine_eq_refused]
    exact engineStart_of_refused hr h
  · obtain ⟨u, t, hu, ht, hresult⟩ := engineStart_engineRun hm hr h (invocationSteps c (e.inBytes c.ops.len.toNat))
    rw [if_pos (Nat.le_refl _)] at hresult
    exact ⟨u, t, hu, ht, Engine.complete_of_result hresult, hresult⟩

/-- Settles O57: after START and `n` steps the result is a function of the configuration and the LEN input bytes. -/
theorem resultDependsOnConfigurationAndInputOnly : Obligations.ResultDependsOnConfigurationAndInputOnly := by
  unfold Obligations.ResultDependsOnConfigurationAndInputOnly
  intro s s' c hb hb' _ hin n t t' hn ht ht'
  obtain ⟨n, rfl⟩ := Nat.exists_eq_add_of_le' hn
  have hbytes : s.inBytes c.ops.len.toNat = s'.inBytes c.ops.len.toNat := Memory.bytes_congr hin
  obtain ⟨v, hv, hresult⟩ := hb.run n
  obtain ⟨v', hv', hresult'⟩ := hb'.run n
  obtain rfl : v = t := Host.Outcome.next.inj (hv.symm.trans ht)
  obtain rfl : v' = t' := Host.Outcome.next.inj (hv'.symm.trans ht')
  rw [hresult, hresult', hbytes]

/-- A result that is no error stands in OUT, in DONE. -/
theorem Engine.of_result_ok {bytes : List Byte} (h : e.result = some (.ok bytes)) :
    e.phase = .done ∧ e.output = bytes := by
  cases hp : e.phase <;> simp_all [Engine.result, Engine.output, Engine.outBytes_eq]

/-- Settles O58: on the identity path the reference function is the input, which is OUT byte by byte. -/
theorem identityPathCopiesTheWholeInput : Obligations.IdentityPathCopiesTheWholeInput := by
  unfold Obligations.IdentityPathCopiesTheWholeInput
  intro s c hb hpred
  obtain ⟨t, ht, hresult⟩ := hb.completes
  have hsteps : invocationSteps c (s.inBytes c.ops.len.toNat) = c.ops.len.toNat + 1 := by simp [invocationSteps, hpred]
  have href : reference c (s.inBytes c.ops.len.toNat) = .ok (s.inBytes c.ops.len.toNat) := by simp [reference, hpred]
  rw [hsteps] at ht
  rw [href] at hresult
  obtain ⟨hdone, hout⟩ := Engine.of_result_ok (State.engine_result_of_result hresult)
  rw [Engine.output, Engine.inBytes_eq] at hout
  have hlen : t.outLen.toNat = c.ops.len.toNat := by simpa using congrArg List.length hout
  refine ⟨t, ht, hdone, BitVec.eq_of_toNat_eq hlen, fun k hk => ?_⟩
  rw [← Memory.getD_bytes (hlen.symm ▸ hk), hout, Memory.getD_bytes hk]

end Sys2Proof.Machine
end

-- The TIFF path: family 42_tiff.md
section
/-! Proofs. The three steps of the TIFF path at the interface, and the closed form of one TIFF row (42_tiff.md R96 to
R100). -/

namespace Sys2Proof.Machine

variable {wCfg wLen : Nat} {e : Engine wCfg wLen}

/-! ## The steps of a row -/

/-- A step of the TIFF path in progress is the engine's, the host's side as it was. -/
theorem exec_predTiff_of_tiffStep {s : State} {u : Engine 32 32} (hr : s.phase = .run) (hp : s.path = .tiff)
    (h : tiffStep s.params s.toEngine = .next u) : exec (.predTiff s.cfgOps) s = .next (s.withEngine u) := by
  rw [exec_predTiff_in_progress hr hp]
  exact onEngine_eq_next.2 ⟨u, h, rfl⟩

/-- Settles O26: the two cases of the ROWSTART step. -/
theorem tiffRowstartBeginsARowOrEnds : Obligations.TiffRowstartBeginsARowOrEnds := by
  unfold Obligations.TiffRowstartBeginsARowOrEnds
  intro s hr hp hs
  by_cases hi : s.i = s.nrows
  · rw [if_pos hi]
    exact exec_predTiff_of_tiffStep hr hp (tiffStep_eq_next.2 (.inl ⟨hs, hi, rfl⟩))
  · rw [if_neg hi]
    exact exec_predTiff_of_tiffStep hr hp (tiffStep_eq_next.2 (.inr (.inl ⟨hs, hi, rfl⟩)))

/-- The adder's value as a number: the carry is discarded (43_png.md R109). -/
theorem reconstruct_toNat (x a : Byte) : (reconstruct x a).toNat = (x.toNat + a.toNat) % 256 := BitVec.toNat_add x a

theorem reconstruct_eq_ofNat (x a : Byte) : reconstruct x a = BitVec.ofNat 8 ((x.toNat + a.toNat) % 256) := by
  rw [← reconstruct_toNat, BitVec.ofNat_toNat, BitVec.setWidth_eq]

/-- At COLUMN the stage stays until the last column (42_tiff.md R97, 43_png.md R108). -/
theorem Engine.putColumn_of_column (hs : e.stage = .column) (v : Byte) :
    e.putColumn v = { e with
      cur := e.cur.write e.j.toNat v
      stage := if e.j.toNat + 1 = e.stride.toNat then .commit else .column
      j := e.j + 1 } := by
  rw [Engine.putColumn, hs]

/-- Settles O27: by the invariant the filtered byte lies in IN and CUR has element J, so the step is the adder's write. -/
theorem tiffColumnAccumulates : Obligations.TiffColumnAccumulates := by
  unfold Obligations.TiffColumnAccumulates
  intro s hinv hr hp hs
  obtain ⟨-, -, hg, hrow⟩ := hinv.tiff (.inl hr) hp
  obtain ⟨hj, hi⟩ := hrow.inColumn hs
  have hexec := exec_predTiff_of_tiffStep hr hp
    (tiffStep_eq_next.2 (.inr (.inr (.inl ⟨hs, Engine.tiffAddr_lt hg hp hi hj, hj, rfl⟩))))
  rw [Engine.putColumn_of_column hs, reconstruct_eq_ofNat, Engine.left_eq] at hexec
  exact ⟨hj, hi, hexec⟩

/-- Settles O28: by the invariant the row fits OUT, and OUT is the copy of CUR behind OUT_LEN. -/
theorem tiffCommitAppendsTheRow : Obligations.TiffCommitAppendsTheRow := by
  unfold Obligations.TiffCommitAppendsTheRow
  intro s hinv hr hp hs
  obtain ⟨-, -, hg, hrow⟩ := hinv.tiff (.inl hr) hp
  obtain ⟨hj, hi⟩ := hrow.inCommit hs
  obtain ⟨-, -, -, hout⟩ := memoriesWf_iff.1 hinv.memories
  have hexec := exec_predTiff_of_tiffStep hr hp
    (tiffStep_eq_next.2 (.inr (.inr (.inr ⟨hs, Engine.rowFits_of_inv hg hrow hi, rfl⟩))))
  exact ⟨BitVec.eq_of_toNat_eq hj, hrow.outIsRows, _, hexec, fun k => Memory.read_copyRow _ _ hout k _⟩

/-! ## The closed form of one row (42_tiff.md R100) -/

theorem length_tiffRow {bpp : Nat} (hb : 1 ≤ bpp) (x : List Byte) : (tiffRow bpp x).length = x.length :=
  (reconstructRow_nil hb _ x).1

theorem tiffRow_getD {bpp j : Nat} {x : List Byte} (hb : 1 ≤ bpp) (hj : j < x.length) :
    (tiffRow bpp x).getD j 0 = reconstruct (x.getD j 0) (backAt (tiffRow bpp x) j bpp) :=
  (reconstructRow_nil hb _ x).2 j hj

/-- The first pixel of a row is its filtered bytes. -/
theorem tiffRow_getD_of_lt {bpp j : Nat} {x : List Byte} (hb : 1 ≤ bpp) (hj : j < x.length) (hlt : j < bpp) :
    (tiffRow bpp x).getD j 0 = x.getD j 0 := by
  rw [tiffRow_getD hb hj, backAt, if_pos hlt, reconstruct, add_zero]

theorem tiffRow_getD_of_le {bpp j : Nat} {x : List Byte} (hb : 1 ≤ bpp) (hj : j < x.length) (hle : bpp ≤ j) :
    ((tiffRow bpp x).getD j 0).toNat = ((x.getD j 0).toNat + ((tiffRow bpp x).getD (j - bpp) 0).toNat) % 256 := by
  rw [tiffRow_getD hb hj, backAt, if_neg (Nat.not_lt.2 hle), reconstruct_toNat]

/-- The sum of the filtered bytes of column `j`'s byte lane up to `j`: every BPP-th, from `j` down. -/
def laneSum (bpp : Nat) (x : List Byte) (j : Nat) : Nat :=
  ((List.range (j / bpp + 1)).map fun m => (x.getD (j - m * bpp) 0).toNat).sum

theorem laneSum_of_lt {bpp j : Nat} (x : List Byte) (hlt : j < bpp) : laneSum bpp x j = (x.getD j 0).toNat := by
  simp [laneSum, Nat.div_eq_of_lt hlt]

/-- A lane's sum is its last byte and the sum up to one pixel before. -/
theorem laneSum_of_le {bpp j : Nat} (x : List Byte) (hb : 1 ≤ bpp) (hle : bpp ≤ j) :
    laneSum bpp x j = (x.getD j 0).toNat + laneSum bpp x (j - bpp) := by
  have hdiv : j / bpp = (j - bpp) / bpp + 1 := Nat.div_eq_sub_div hb hle
  have hback (m : Nat) : j - (m + 1) * bpp = j - bpp - m * bpp := by
    rw [Nat.succ_mul, Nat.add_comm, Nat.sub_add_eq]
  rw [laneSum, hdiv, List.range_succ_eq_map, List.map_cons, List.map_map, List.sum_cons, Nat.zero_mul, Nat.sub_zero]
  simp only [laneSum, Function.comp_def, Nat.succ_eq_add_one, hback]

/-- Each byte of a row is the sum of its lane modulo 256, from pixel to pixel. -/
theorem tiffRow_getD_eq_laneSum {bpp : Nat} {x : List Byte} (hb : 1 ≤ bpp) (j : Nat) (hj : j < x.length) :
    ((tiffRow bpp x).getD j 0).toNat = laneSum bpp x j % 256 := by
  induction j using Nat.strong_induction_on with
  | _ j ih =>
    rcases Nat.lt_or_ge j bpp with hlt | hle
    · rw [tiffRow_getD_of_lt hb hj hlt, laneSum_of_lt x hlt, Nat.mod_eq_of_lt (x.getD j 0).isLt]
    · rw [tiffRow_getD_of_le hb hj hle, ih (j - bpp) (by omega) (by omega), laneSum_of_le x hb hle, Nat.add_mod_mod]

/-- Settles O59: the recurrence is the reference's own column by column, the running sum follows from it. -/
theorem tiffRowIsARunningSumPerLane : Obligations.TiffRowIsARunningSumPerLane := by
  unfold Obligations.TiffRowIsARunningSumPerLane
  exact fun _ x hb => ⟨length_tiffRow hb x, fun _ => tiffRow_getD_of_lt hb, fun _ => tiffRow_getD_of_le hb,
    tiffRow_getD_eq_laneSum hb⟩

end Sys2Proof.Machine
end

-- The PNG path: family 43_png.md
section
/-! Proofs. The byte datapath, the three steps of a row operation at the interface, PRED.PNG over them, and the closed form
of one PNG row (43_png.md R106 to R121). -/

namespace Sys2Proof.Machine

variable {wCfg wLen : Nat} {p : Params} {e u : Engine wCfg wLen}

/-! ## The adder and the average (43_png.md R109, R113) -/

/-- A 9-bit sum of two bytes does not wrap. -/
theorem average_toNat (a b : Byte) : (average a b).toNat = (a.toNat + b.toNat) / 2 := by
  have ha := a.isLt
  have hb := b.isLt
  simp only [average, BitVec.extractLsb'_toNat, BitVec.toNat_add, BitVec.toNat_setWidth, Nat.shiftRight_succ,
    Nat.shiftRight_zero]
  omega

/-- Settles O11. -/
theorem adderWrapsAndAverageDoesNot : Obligations.AdderWrapsAndAverageDoesNot := by
  unfold Obligations.AdderWrapsAndAverageDoesNot
  exact ⟨reconstruct_toNat, average_toNat⟩

/-! ## The Paeth comparator (43_png.md R115, R116) -/

/-- How far the byte `v` lies from the gradient prediction a + b - c. -/
def paethDistance (a b c v : Byte) : Int := |(a.toNat : Int) + b.toNat - c.toNat - v.toNat|

/-- The comparator chooses by the three distances. -/
theorem paeth_eq_ite (a b c : Byte) : paeth a b c =
    if paethDistance a b c a ≤ paethDistance a b c b ∧ paethDistance a b c a ≤ paethDistance a b c c then a
    else if paethDistance a b c b ≤ paethDistance a b c c then b else c := by
  simp only [paeth, paethDistance, Int.abs_eq_natAbs, Int.ofNat_le]

section Paeth

variable {a b c : Byte}

theorem paeth_eq_left (h : paethDistance a b c a ≤ paethDistance a b c b ∧ paethDistance a b c a ≤ paethDistance a b c c) :
    paeth a b c = a := by
  rw [paeth_eq_ite, if_pos h]

theorem paeth_eq_above
    (h : ¬ (paethDistance a b c a ≤ paethDistance a b c b ∧ paethDistance a b c a ≤ paethDistance a b c c))
    (hbc : paethDistance a b c b ≤ paethDistance a b c c) : paeth a b c = b := by
  rw [paeth_eq_ite, if_neg h, if_pos hbc]

theorem paeth_eq_aboveLeft
    (h : ¬ (paethDistance a b c a ≤ paethDistance a b c b ∧ paethDistance a b c a ≤ paethDistance a b c c))
    (hbc : ¬ paethDistance a b c b ≤ paethDistance a b c c) : paeth a b c = c := by
  rw [paeth_eq_ite, if_neg h, if_neg hbc]

end Paeth

/-- From a the prediction lies |b - c| away, from b |a - c|, and from c |a + b - 2c|. -/
theorem paethDistance_le (a b c : Byte) :
    paethDistance a b c a ≤ 255 ∧ paethDistance a b c b ≤ 255 ∧ paethDistance a b c c ≤ 510 := by
  have ha := a.isLt
  have hb := b.isLt
  have hc := c.isLt
  simp only [paethDistance, abs_le]
  omega

/-- Settles O12: the ranges from those of a byte, the choice from the comparator's two tests. -/
theorem paethSelectsByTheThreeDistances : Obligations.PaethSelectsByTheThreeDistances := by
  unfold Obligations.PaethSelectsByTheThreeDistances
  intro a b c
  obtain ⟨hpa, hpb, hpc⟩ := paethDistance_le a b c
  exact ⟨by omega, hpa, hpb, hpc, paeth_eq_left, paeth_eq_above, paeth_eq_aboveLeft⟩

/-- Settles O13: each row of the table passes the two tests as its value asks. -/
theorem paethBreaksTiesInOrder : Obligations.PaethBreaksTiesInOrder := by
  unfold Obligations.PaethBreaksTiesInOrder
  intro a b c p pa pb pc
  have hleft : pa ≤ pb ∧ pa ≤ pc → paeth a b c = a := paeth_eq_left
  have habove : ¬ (pa ≤ pb ∧ pa ≤ pc) → pb ≤ pc → paeth a b c = b := paeth_eq_above
  have haboveLeft : ¬ (pa ≤ pb ∧ pa ≤ pc) → ¬ pb ≤ pc → paeth a b c = c := paeth_eq_aboveLeft
  refine ⟨fun h => hleft ?_, fun h => hleft ?_, fun h => hleft ?_, fun h => habove ?_ ?_, fun h => hleft ?_,
    fun h => habove ?_ ?_, fun h => haboveLeft ?_ ?_⟩ <;> omega

/-- Settles O15: with a alone nonzero a lies on the prediction, with b alone b does, and only a b of 0 ties with a. -/
theorem paethAtTheEdgesIsSubOrUp : Obligations.PaethAtTheEdgesIsSubOrUp := by
  unfold Obligations.PaethAtTheEdgesIsSubOrUp
  refine fun v => ⟨paeth_eq_left (by simp [paethDistance]), ?_⟩
  by_cases hv : v.toNat = 0
  · obtain rfl : v = 0 := BitVec.eq_of_toNat_eq hv
    rfl
  · exact paeth_eq_above (by simp [paethDistance, hv]) (by simp [paethDistance])

/-! ## The comparator on a signed datapath (43_png.md R118) -/

section SignedWidth

variable {n : Nat} {x y : Int}

/-- Ten bits hold every number of at most nine bits and its sign. -/
theorem toInt_ofInt_of_ten_le (hn : 10 ≤ n) (hx : -512 ≤ x ∧ x < 512) : (BitVec.ofInt n x).toInt = x := by
  have hpow : (2 : Int) ^ 9 ≤ 2 ^ (n - 1) := pow_le_pow_right₀ (by decide) (by omega)
  exact BitVec.toInt_ofInt_eq_self (by omega) (by omega) (by omega)

theorem ofInt_sub (n : Nat) (x y : Int) : BitVec.ofInt n (x - y) = BitVec.ofInt n x - BitVec.ofInt n y := by
  rw [Int.sub_eq_add_neg, BitVec.ofInt_add, BitVec.ofInt_neg, ← BitVec.sub_eq_add_neg]

theorem setWidth_eq_ofInt (n : Nat) (v : Byte) : v.setWidth n = BitVec.ofInt n v.toNat := by
  rw [BitVec.ofInt_natCast, BitVec.ofNat_toNat]

theorem signedAbs_ofInt (hn : 10 ≤ n) (hx : -512 ≤ x ∧ x < 512) : signedAbs (BitVec.ofInt n x) = BitVec.ofInt n |x| := by
  simp only [signedAbs, BitVec.msb_eq_toInt, toInt_ofInt_of_ten_le hn hx, decide_eq_true_eq]
  split_ifs with h
  · rw [abs_of_neg h, BitVec.ofInt_neg]
  · rw [abs_of_nonneg (Int.not_lt.1 h)]

theorem sle_ofInt (hn : 10 ≤ n) (hx : -512 ≤ x ∧ x < 512) (hy : -512 ≤ y ∧ y < 512) :
    (BitVec.ofInt n x).sle (BitVec.ofInt n y) = true ↔ x ≤ y := by
  rw [BitVec.sle_iff_toInt_le, toInt_ofInt_of_ten_le hn hx, toInt_ofInt_of_ten_le hn hy]

end SignedWidth

/-- A distance on the datapath: its sums are those of the integers modulo 2^n, and its value fits. -/
theorem signedAbs_eq_paethDistance {n : Nat} (hn : 10 ≤ n) {a b c v : Byte} (h : paethDistance a b c v ≤ 510) :
    signedAbs (a.setWidth n + b.setWidth n - c.setWidth n - v.setWidth n) = BitVec.ofInt n (paethDistance a b c v) := by
  simp only [setWidth_eq_ofInt, ← BitVec.ofInt_add, ← ofInt_sub]
  refine signedAbs_ofInt hn ?_
  have := abs_le.1 h
  omega

/-- The datapath compares two distances as the integers they are. -/
theorem sle_signedAbs_iff {n : Nat} (hn : 10 ≤ n) {a b c v w : Byte} (hv : paethDistance a b c v ≤ 510)
    (hw : paethDistance a b c w ≤ 510) :
    (signedAbs (a.setWidth n + b.setWidth n - c.setWidth n - v.setWidth n)).sle
      (signedAbs (a.setWidth n + b.setWidth n - c.setWidth n - w.setWidth n)) = true
      ↔ paethDistance a b c v ≤ paethDistance a b c w := by
  have hv0 : 0 ≤ paethDistance a b c v := abs_nonneg _
  have hw0 : 0 ≤ paethDistance a b c w := abs_nonneg _
  rw [signedAbs_eq_paethDistance hn hv, signedAbs_eq_paethDistance hn hw, sle_ofInt hn (by omega) (by omega)]

/-- Settles O14: the three distances fit ten bits, so the datapath's comparisons are the comparator's. -/
theorem tenSignedBitsAreEnoughForPaeth : Obligations.TenSignedBitsAreEnoughForPaeth := by
  unfold Obligations.TenSignedBitsAreEnoughForPaeth
  intro n hn a b c
  obtain ⟨hpa, hpb, hpc⟩ := paethDistance_le a b c
  replace hpa : paethDistance a b c a ≤ 510 := by omega
  replace hpb : paethDistance a b c b ≤ 510 := by omega
  simp only [paeth_eq_ite, paethAtWidth, sle_signedAbs_iff hn hpa hpb, sle_signedAbs_iff hn hpa hpc,
    sle_signedAbs_iff hn hpb hpc]

/-! ## The steps of a row operation -/

/-- A row operation begins its row with its own opcode in FT (43_png.md R106). -/
theorem rowOperation_of_rowstart {t : Byte} {predicted : Engine wCfg wLen → Byte} (hr : e.phase = .run) (hp : e.path = .png)
    (hs : e.stage = .rowstart) (hi : e.i ≠ e.nrows) : rowOperation t predicted p e = .next (e.setFilter t).beginRow :=
  rowOperation_eq_next.2 ⟨hr, hp, .inl ⟨hs, hi, rfl⟩⟩

/-- Settles O30: each of the five is the row operation of its opcode. -/
theorem rowOperationsBeginTheirRow : Obligations.RowOperationsBeginTheirRow := by
  unfold Obligations.RowOperationsBeginTheirRow
  intro q hq s hr hp hs hi
  have hbegin (t : Byte) (predicted : Engine 32 32 → Byte) :
      s.onEngine (rowOperation t predicted s.params) = .next { s with ft := t, j := 0, stage := .column } :=
    onEngine_eq_next.2 ⟨_, rowOperation_of_rowstart hr hp hs hi, rfl⟩
  simp only [List.mem_cons, List.not_mem_nil, or_false] at hq
  rcases hq with rfl | rfl | rfl | rfl | rfl <;> exact hbegin _ _

/-- By the invariant the filtered byte lies in IN and CUR has element J, so the COLUMN step adds the predicted value
(43_png.md R108). -/
theorem onEngine_rowOperation_of_column {s : State} (hinv : s.Inv) (hr : s.phase = .run) (hp : s.path = .png)
    (hs : s.stage = .column) (t : Byte) (predicted : Engine 32 32 → Byte) :
    s.onEngine (rowOperation t predicted s.params) = .next
      { s with
        cur := s.cur.write s.j.toNat (reconstruct (s.inMem.read s.pngAddr) (predicted s.toEngine))
        stage := if s.j.toNat + 1 = s.stride.toNat then .commit else .column
        j := s.j + 1 } := by
  obtain ⟨-, hg, hrow, -⟩ := hinv.png (.inl hr) hp
  obtain ⟨hj, hi⟩ := hrow.inColumn hs
  have hcol : rowOperation t predicted s.params s.toEngine = .next _ :=
    rowOperation_eq_next.2 ⟨hr, hp, .inr (.inl ⟨hs, Engine.pngAddr_lt hg hp hi hj, hj, rfl⟩)⟩
  rw [Engine.putColumn_of_column hs] at hcol
  exact onEngine_eq_next.2 ⟨_, hcol, rfl⟩

/-- Settles O31: the predicted value is 0. -/
theorem rowNoneColumn : Obligations.RowNoneColumn := by
  unfold Obligations.RowNoneColumn
  intro s hinv hr hp hs
  have hcol := onEngine_rowOperation_of_column hinv hr hp hs 0 fun _ => 0
  rwa [reconstruct, add_zero] at hcol

/-- Settles O32: the predicted value is the left neighbour. -/
theorem rowSubColumn : Obligations.RowSubColumn := by
  unfold Obligations.RowSubColumn
  intro s hinv hr hp hs
  have hcol := onEngine_rowOperation_of_column hinv hr hp hs 1 fun e => e.left
  rwa [reconstruct_eq_ofNat, Engine.left_eq] at hcol

/-- Settles O33: the predicted value is the upper neighbour. -/
theorem rowUpColumn : Obligations.RowUpColumn := by
  unfold Obligations.RowUpColumn
  intro s hinv hr hp hs
  have hcol := onEngine_rowOperation_of_column hinv hr hp hs 2 fun e => e.above
  rwa [reconstruct_eq_ofNat] at hcol

/-- Settles O34: the predicted value is the average of the left and upper neighbours. -/
theorem rowAvgColumn : Obligations.RowAvgColumn := by
  unfold Obligations.RowAvgColumn
  intro s hinv hr hp hs
  have hcol := onEngine_rowOperation_of_column hinv hr hp hs 3 fun e => average e.left e.above
  rwa [reconstruct_eq_ofNat, average_toNat, Engine.left_eq] at hcol

/-- Settles O35: the predicted value is the Paeth choice of the three neighbours. -/
theorem rowPaethColumn : Obligations.RowPaethColumn := by
  unfold Obligations.RowPaethColumn
  intro s hinv hr hp hs
  have hcol := onEngine_rowOperation_of_column hinv hr hp hs 4 fun e => paeth e.left e.above e.aboveLeft
  rwa [reconstruct_eq_ofNat, Engine.left_eq, Engine.aboveLeft_eq] at hcol

/-- Settles O36: by the invariant the row fits OUT; OUT and PREV are the copies of CUR behind OUT_LEN and from element 0. -/
theorem pngCommitAppendsAndKeepsTheRow : Obligations.PngCommitAppendsAndKeepsTheRow := by
  unfold Obligations.PngCommitAppendsAndKeepsTheRow
  intro i hmem s hinv hr hp hs
  obtain ⟨-, hg, hrow, -⟩ := hinv.png (.inl hr) hp
  obtain ⟨hj, hi⟩ := hrow.inCommit hs
  obtain ⟨hprev, -, -, hout⟩ := memoriesWf_iff.1 hinv.memories
  obtain ⟨t, predicted, hexec⟩ := exec_row_of_rowOperation hmem s
  refine ⟨BitVec.eq_of_toNat_eq hj, hrow.outIsRows, s.outMem.copyRow s.outLen.toNat s.cur s.stride.toNat,
    s.prev.copyRow 0 s.cur s.stride.toNat, ?_, fun k => Memory.read_copyRow _ _ hout k _, fun k => ?_⟩
  · rw [hexec]
    exact onEngine_eq_next.2
      ⟨_, rowOperation_eq_next.2 ⟨hr, hp, .inr (.inr ⟨hs, Engine.rowFits_of_inv hg hrow hi, rfl⟩)⟩, rfl⟩
  · simp only [Memory.read_copyRow 0 s.cur hprev, Nat.zero_le, true_and, Nat.zero_add, Nat.sub_zero]

/-! ## What a row operation leaves unchanged -/

theorem rowOperation_rowFrame {t : Byte} {predicted : Engine wCfg wLen → Byte} (hm : e.memoriesWf = true)
    (h : rowOperation t predicted p e = .next u) : e.RowFrame u := by
  obtain ⟨hprev, hcur, -, hout⟩ := memoriesWf_iff.1 hm
  obtain ⟨-, -, ⟨hs, hi, rfl⟩ | ⟨hs, -, -, rfl⟩ | ⟨hs, -, rfl⟩⟩ := rowOperation_eq_next.1 h
  · exact .setFilter_beginRow hs hi t
  · exact .putColumn hcur hs _
  · exact .appendRow_keepRow hprev hout hs

/-- Unlike a step of PRED.PNG, a row operation neither ends the path nor raises an error. -/
theorem rowOperation_keeps {t : Byte} {predicted : Engine wCfg wLen → Byte} (h : rowOperation t predicted p e = .next u) :
    e.Keeps u ∧ u.phase = e.phase ∧ u.err = e.err := by
  obtain ⟨-, -, ⟨-, -, rfl⟩ | ⟨-, -, -, rfl⟩ | ⟨-, -, rfl⟩⟩ := rowOperation_eq_next.1 h <;>
    exact ⟨⟨⟨rfl, rfl, rfl, rfl, rfl⟩, ⟨rfl, rfl, rfl, rfl⟩, rfl, rfl⟩, rfl, rfl⟩

/-- Settles O39: the frame of the row loop's steps, and what no row operation writes. -/
theorem rowOperationFrame : Obligations.RowOperationFrame := by
  unfold Obligations.RowOperationFrame
  intro i hmem s t hm h
  obtain ⟨ft, predicted, hexec⟩ := exec_row_of_rowOperation hmem s
  rw [hexec, onEngine_eq_next] at h
  obtain ⟨u, hu, rfl⟩ := h
  obtain ⟨hrun, -, -⟩ := rowOperation_eq_next.1 hu
  obtain ⟨⟨hconfig, hgeometry, hin, hpath⟩, hphase, herr⟩ := rowOperation_keeps hu
  obtain ⟨hk, houtside, hj, hcommit, -, hcur, hout, hprev⟩ := rowOperation_rowFrame hm hu
  have hnoError : u.phase ≠ .error := by simp [hphase, hrun]
  exact ⟨hconfig, hgeometry, ⟨hin, rfl, rfl⟩, hphase, hpath, hk, herr, fun hs => (houtside hs).2.1, hj,
    fun hs => ⟨(hcommit hs).1, (hcommit hs).2.resolve_left hnoError⟩, hcur, hout, hprev⟩

/-! ## PRED.PNG in progress (43_png.md R106, R108) -/

/-- Settles O6: PRED.PNG in progress is the path's step, and a filter type's instruction is the dispatch on it. -/
theorem pngPathRunsTheSelectedRowOperation : Obligations.PngPathRunsTheSelectedRowOperation := by
  unfold Obligations.PngPathRunsTheSelectedRowOperation
  intro s hr hp
  rw [exec_predPng_in_progress hr hp]
  refine ⟨fun hs hi => ?_, fun hs hi ha => ?_, fun hs => ?_⟩
  · exact onEngine_eq_next.2 ⟨_, pngStep_of_end hs hi, rfl⟩
  · rw [exec_decodeRow]
    exact onEngine_congr (pngStep_of_rowstart hs hi ha)
  · rw [exec_decodeRow]
    exact onEngine_congr (pngStep_of_row hs)

/-- Settles O29: the end of the row loop, or the fetch of the filter type with the raise or the row it leads to; by the
invariant the filter type lies in IN. -/
theorem pngRowstartFetchesTheFilterType : Obligations.PngRowstartFetchesTheFilterType := by
  unfold Obligations.PngRowstartFetchesTheFilterType
  intro s hinv hstart hr hp hs ft
  obtain ⟨-, hg, hrow, -⟩ := hinv.png (.inl hr) hp
  rw [step_of_run hr hstart, onEngine_congr (pathStep_of_png hp), onEngine_eq_next]
  by_cases hi : s.i = s.nrows
  · rw [if_pos hi]
    exact ⟨_, pngStep_of_end hs hi, rfl⟩
  have hfetch : pngStep s.params s.toEngine = filterDispatch ft s.params s.toEngine :=
    pngStep_of_rowstart hs hi (Engine.filterAddr_lt hg (hrow.row_lt hi))
  rw [if_neg hi, hfetch]
  by_cases hft : 4 < ft.toNat
  · rw [if_pos hft, filterDispatch_of_illegal hft]
    exact ⟨_, illegalFilter_eq_next.2 ⟨atPngRow_iff.2 ⟨hr, hp, hs, hi⟩, rfl⟩, rfl⟩
  · rw [if_neg hft, filterDispatch_of_legal (Nat.le_of_not_lt hft)]
    exact ⟨_, rowOperation_of_rowstart hr hp hs hi, rfl⟩

/-! ## The closed form of one row (43_png.md R121) -/

theorem length_pngRow {bpp : Nat} (hb : 1 ≤ bpp) (t : Byte) (x prev : List Byte) : (pngRow bpp t x prev).length = x.length :=
  (reconstructRow_nil hb _ x).1

theorem pngRow_getD {bpp j : Nat} (hb : 1 ≤ bpp) (t : Byte) {x : List Byte} (prev : List Byte) (hj : j < x.length) :
    (pngRow bpp t x prev).getD j 0
      = reconstruct (x.getD j 0)
          (predictedValue t (backAt (pngRow bpp t x prev) j bpp) (prev.getD j 0) (backAt prev j bpp)) :=
  (reconstructRow_nil hb _ x).2 j hj

/-- The predicted value as a number, by filter type. -/
theorem predictedValue_toNat (t a b c : Byte) : (predictedValue t a b c).toNat =
    if t = 0 then 0 else if t = 1 then a.toNat else if t = 2 then b.toNat
    else if t = 3 then (a.toNat + b.toNat) / 2 else (paeth a b c).toNat := by
  have heq (v : Byte) : t.toNat = v.toNat ↔ t = v := BitVec.toNat_inj
  have h0 : t.toNat = 0 ↔ t = 0 := heq 0
  have h1 : t.toNat = 1 ↔ t = 1 := heq 1
  have h2 : t.toNat = 2 ↔ t = 2 := heq 2
  have h3 : t.toNat = 3 ↔ t = 3 := heq 3
  simp only [predictedValue, h0, h1, h2, h3]
  split_ifs
  · rfl
  · rfl
  · rfl
  · exact average_toNat a b
  · rfl

/-- Settles O60: the reference's own recurrence, column by column, with the adder and the predicted value as numbers. -/
theorem pngRowClosedForm : Obligations.PngRowClosedForm := by
  unfold Obligations.PngRowClosedForm
  intro bpp ft x prev hb _
  refine ⟨length_pngRow hb ft x prev, fun j hj => ?_⟩
  have hcol := congrArg BitVec.toNat (pngRow_getD hb ft prev hj)
  rw [reconstruct_toNat, predictedValue_toNat] at hcol
  exact hcol

end Sys2Proof.Machine
end

-- Error entry and the two illegal opcodes: family 60_exceptions.md
section
/-! Proofs. What the illegal opcodes answer, the rejected bit depth, and which step raises which error kind
(60_exceptions.md R131 to R136). -/

namespace Sys2Proof.Machine

variable {wCfg wLen : Nat} {p : Params} {e u : Engine wCfg wLen}

/-! ## The two illegal opcodes -/

theorem illegalPredictor_eq_next {c : CfgOf wCfg wLen} :
    illegalPredictor c e = .next u ↔ e.phase ≠ .run ∧ u = (e.beginStart c).raise .unsupportedPredictor := by
  rw [illegalPredictor, startOrContinue_eq_next]
  simp [startIllegal, eq_comm]

/-- illegal_PRED answers a next state exactly outside RUN: START's writes, then the raise (60_exceptions.md R131). -/
theorem exec_illegalPred_eq_next {s t : State} {pred : Word} {o : CfgOps} :
    exec (.illegalPred pred o) s = .next t ↔
      s.phase ≠ .run ∧ t = s.withEngine ((s.beginStart ⟨pred, o⟩).raise .unsupportedPredictor) := by
  refine onEngine_eq_next.trans ⟨?_, fun ⟨hr, ht⟩ => ⟨_, illegalPredictor_eq_next.2 ⟨hr, rfl⟩, ht⟩⟩
  rintro ⟨u, hu, rfl⟩
  obtain ⟨hr, rfl⟩ := illegalPredictor_eq_next.1 hu
  exact ⟨hr, rfl⟩

/-- illegal_FT answers a next state exactly where a PNG row is about to begin: FT, then the raise (60_exceptions.md R134). -/
theorem exec_illegalFt_eq_next {s t : State} {ft : Byte} :
    exec (.illegalFt ft) s = .next t ↔
      s.atPngRow = true ∧ t = s.withEngine ((s.setFilter ft).raise .unsupportedFilterType) := by
  refine onEngine_eq_next.trans ⟨?_, fun ⟨hrow, ht⟩ => ⟨_, illegalFilter_eq_next.2 ⟨hrow, rfl⟩, ht⟩⟩
  rintro ⟨u, hu, rfl⟩
  obtain ⟨hrow, rfl⟩ := illegalFilter_eq_next.1 hu
  exact ⟨hrow, rfl⟩

/-- Settles O43: neither START's writes nor loading FT, nor the raise after them, writes a memory or the geometry. -/
theorem errorEntryFrame : Obligations.ErrorEntryFrame := by
  unfold Obligations.ErrorEntryFrame
  refine ⟨fun pred o s t h => ?_, fun ft s t h => ?_⟩
  · obtain ⟨-, rfl⟩ := exec_illegalPred_eq_next.1 h
    exact ⟨⟨rfl, rfl, rfl⟩, ⟨rfl, rfl, rfl, rfl⟩, rfl, ⟨rfl, rfl, rfl, rfl, rfl⟩, fun _ => rfl, fun _ => rfl, fun _ => rfl⟩
  · obtain ⟨-, rfl⟩ := exec_illegalFt_eq_next.1 h
    exact ⟨⟨rfl, rfl, rfl⟩, ⟨rfl, rfl, rfl, rfl, rfl⟩, ⟨rfl, rfl, rfl, rfl⟩, rfl, rfl, rfl, rfl, rfl, fun _ => rfl,
      fun _ => rfl, fun _ => rfl⟩

/-- Settles O22: PRED in 0 and 3 to 9 decodes to illegal_PRED, which outside RUN is START with the raise. -/
theorem illegalPredictorIsRejected : Obligations.IllegalPredictorIsRejected := by
  unfold Obligations.IllegalPredictorIsRejected
  exact fun s pred o hr => ⟨fun hp => decodeCfg_of_illegal hp o, rfl, exec_illegalPred_eq_next.2 ⟨hr, rfl⟩⟩

/-- Settles O37: at ROWSTART of a row illegal_FT loads FT and raises. -/
theorem illegalFilterTypeIsRejected : Obligations.IllegalFilterTypeIsRejected := by
  unfold Obligations.IllegalFilterTypeIsRejected
  exact fun s ft hr hp hs hi => exec_illegalFt_eq_next.2 ⟨atPngRow_iff.2 ⟨hr, hp, hs, hi⟩, rfl⟩

/-- Settles O21: outside RUN the instruction is START on the TIFF path, which looks at the bit depth first. -/
theorem tiffRejectsOtherBitDepths : Obligations.TiffRejectsOtherBitDepths := by
  unfold Obligations.TiffRejectsOtherBitDepths
  intro s o hr hbpc
  refine ⟨rfl, rfl, ?_⟩
  rw [exec_predTiff_of_not_run hr]
  exact onEngine_eq_next.2 ⟨_, startTiff_eq_next.2 (.inr ⟨hbpc, rfl⟩), rfl⟩

/-! ## Which step raises which error kind (60_exceptions.md R135) -/

/-- A START that runs a path holds no error kind, and one that raises holds the kind of its cause. -/
theorem engineStart_err {c : CfgOf wCfg wLen} (h : engineStart p c e = .next u) :
    u.err = none ∨ u.err = some .unsupportedBitDepth ∨ u.err = some .unsupportedPredictor := by
  obtain ⟨-, ⟨-, -, rfl⟩ | ⟨-, -, -, rfl⟩ | ⟨-, -, rfl⟩ | ⟨-, -, rfl⟩ | ⟨-, rfl⟩⟩ := engineStart_cases h <;> simp

/-- A START that enters ERROR has a predictor or a bit depth it does not support. -/
theorem engineStart_error {c : CfgOf wCfg wLen} (h : engineStart p c e = .next u) (he : u.phase = .error) :
    ((c.pred.toNat = 0 ∨ (3 ≤ c.pred.toNat ∧ c.pred.toNat ≤ 9)) ∧ u = (e.beginStart c).raise .unsupportedPredictor)
    ∨ (c.pred.toNat = 2 ∧ c.ops.bpc.toNat ≠ 8 ∧ u = (e.beginStart c).raise .unsupportedBitDepth) := by
  obtain ⟨-, ⟨-, -, rfl⟩ | ⟨-, -, -, rfl⟩ | htiff | ⟨-, -, rfl⟩ | hillegal⟩ := engineStart_cases h
  case inr.inr.inl => exact .inr htiff
  case inr.inr.inr.inr => exact .inl hillegal
  all_goals simp at he

theorem identityStep_phase_ne_error (hr : e.phase = .run) (h : identityStep p e = .next u) : u.phase ≠ .error := by
  obtain ⟨-, rfl⟩ | ⟨-, -, -, rfl⟩ := identityStep_eq_next.1 h <;> simp [hr]

/-- A step in progress that enters ERROR has found an illegal filter type at the head of a PNG row. -/
theorem pathStep_error_cause (hr : e.phase = .run) (h : pathStep p e = .next u) (he : u.phase = .error) :
    e.path = .png ∧ e.stage = .rowstart ∧ e.i ≠ e.nrows ∧ 4 < (e.inMem.read e.filterAddr).toNat := by
  cases hp : e.path with
  | none => simp [pathStep, hp] at h
  | id => exact absurd he (identityStep_phase_ne_error hr ((pathStep_of_id hp).symm.trans h))
  | tiff =>
    obtain ⟨-, -, -, hne⟩ := tiffStep_ft_err_prev hr ((pathStep_of_tiff hp).symm.trans h)
    exact absurd he hne
  | png =>
    rw [pathStep_of_png hp] at h
    obtain ⟨-, -, rfl⟩ | ⟨-, -, -, -, rfl⟩ | ⟨hs, hi, -, hft, -⟩ | ⟨-, -, -, -, rfl⟩ | ⟨-, -, -, rfl⟩ := pngStep_cases h
    case inr.inr.inl => exact ⟨rfl, hs, hi, hft⟩
    all_goals simp [hr] at he

/-- Settles O54: a step that enters ERROR is a START or a step in progress, and each enters it by its own raise. -/
theorem errorsAreRaisedWhereTheSpecSays : Obligations.ErrorsAreRaisedWhereTheSpecSays := by
  unfold Obligations.ErrorsAreRaisedWhereTheSpecSays
  intro s t hne h he
  obtain ⟨-, -, rfl⟩ | ⟨hr, c, u, hs, hu, rfl⟩ | ⟨hr, -, u, hu, rfl⟩ := step_cases h
  · exact absurd he hne
  · obtain ⟨hpred, rfl⟩ | ⟨hpred, hbpc, rfl⟩ := engineStart_error hu he
    · exact .inl ⟨rfl, hr, c, hs, hpred, rfl⟩
    · exact .inr (.inl ⟨rfl, hr, c, hs, hpred, hbpc, rfl⟩)
  · obtain ⟨hp, hstage, hi, hft⟩ := pathStep_error_cause hr hu he
    rw [pathStep_error hr hu he]
    exact .inr (.inr ⟨rfl, hr, hp, hstage, hi, rfl, hft, rfl⟩)

/-- Settles O53: START clears ERR or raises one of its two kinds; a step in progress keeps ERR or raises its own. -/
theorem notImplementedIsNeverRaised : Obligations.NotImplementedIsNeverRaised := by
  unfold Obligations.NotImplementedIsNeverRaised
  refine ⟨rfl, (Engine.reset_inv Params.default).status.neverNotImplemented, fun s t h ht => ?_⟩
  obtain ⟨-, -, rfl⟩ | ⟨-, c, u, -, hu, rfl⟩ | ⟨hr, -, u, hu, rfl⟩ := step_cases h
  · exact ht
  · obtain herr | herr | herr := engineStart_err hu <;> simp [herr] at ht
  · obtain ⟨-, herr⟩ | ⟨-, herr⟩ | ⟨-, herr⟩ := pathStep_status hr hu
    · exact herr.symm.trans ht
    · exact herr.symm.trans ht
    · simp [herr] at ht

end Sys2Proof.Machine
end

-- Reset, the enabled step and the length of an invocation: family 70_reset_and_hazards.md
section
/-! Proofs. The values after power-on reset, the instruction a step runs, which steps are refused, and how many steps an
invocation takes (70_reset_and_hazards.md R150, R160, R161). -/

namespace Sys2Proof.Machine

variable {wCfg wLen : Nat} {p : Params} {e : Engine wCfg wLen} {s : State} {c : Cfg}

/-! ## Power-on reset (70_reset_and_hazards.md R150) -/

/-- Settles O44: the reset state is a literal, and each clause is the value written there. -/
theorem powerOnResetValues : Obligations.PowerOnResetValues := by
  unfold Obligations.PowerOnResetValues
  exact ⟨rfl, rfl, rfl, rfl, rfl, rfl, rfl, rfl, rfl, rfl, rfl, rfl, rfl, rfl, rfl, rfl⟩

/-! ## The instruction a step runs -/

theorem step_eq_exec_predNone (hr : s.phase = .run) (hs : s.start = none) (hp : s.path = .id) :
    step s = exec (.predNone s.cfgOps) s := by
  rw [step_of_run hr hs, exec_predNone_in_progress hr hp]
  exact onEngine_congr (pathStep_of_id hp)

theorem step_eq_exec_predTiff (hr : s.phase = .run) (hs : s.start = none) (hp : s.path = .tiff) :
    step s = exec (.predTiff s.cfgOps) s := by
  rw [step_of_run hr hs, exec_predTiff_in_progress hr hp]
  exact onEngine_congr (pathStep_of_tiff hp)

/-- In every stage: PRED.PNG in progress is the row operation the filter type selects (43_png.md R106, R108). -/
theorem step_eq_exec_predPng (hr : s.phase = .run) (hs : s.start = none) (hp : s.path = .png) :
    step s = exec (.predPng s.pred s.cfgOps) s := by
  rw [step_of_run hr hs, exec_predPng_in_progress hr hp]
  exact onEngine_congr (pathStep_of_png hp)

/-- Settles O5: a START is taken from the pending record, a step in progress is its path's level-1 instruction, and on the
PNG path that is the row operation the filter type selects. -/
theorem stepRunsTheDecodedInstruction : Obligations.StepRunsTheDecodedInstruction := by
  unfold Obligations.StepRunsTheDecodedInstruction
  refine ⟨fun s c hr hs => ?_, fun s => step_eq_exec_predNone, fun s => step_eq_exec_predTiff,
    fun s hr hs hp _ _ => step_eq_exec_predPng hr hs hp, fun s hr hs hp hstage hi ha => ?_,
    fun s hr hs hp hstage => ?_, fun s c => step_of_start, fun s => step_of_no_start⟩
  · exact (step_of_start hr hs).trans (exec_decodeCfg (s := s.takeStart) hr c).symm
  · obtain ⟨-, hrowstart, -⟩ := pngPathRunsTheSelectedRowOperation s hr hp
    exact (step_eq_exec_predPng hr hs hp).trans (hrowstart hstage hi ha)
  · obtain ⟨-, -, hrow⟩ := pngPathRunsTheSelectedRowOperation s hr hp
    exact (step_eq_exec_predPng hr hs hp).trans (hrow hstage)

/-! ## Row operations without an enabled step (log entry 10) -/

theorem rowOperation_of_not_enabled {t : Byte} {predicted : Engine wCfg wLen → Byte}
    (h : e.phase ≠ .run ∨ e.path ≠ .png ∨ (e.stage = .rowstart ∧ e.i = e.nrows)) :
    rowOperation t predicted p e = .refused .stepNotEnabled := by
  by_cases hrp : e.phase = .run ∧ e.path = .png
  · obtain ⟨hr, hp⟩ := hrp
    obtain ⟨hs, hi⟩ := (h.resolve_left (not_not_intro hr)).resolve_left (not_not_intro hp)
    simp only [rowOperation, hr, hp, hs, hi, and_self, if_true]
  · exact if_neg hrp

theorem illegalFilter_of_not_atPngRow {t : Byte} (h : ¬ e.atPngRow = true) :
    illegalFilter t e = .refused .stepNotEnabled :=
  if_neg h

/-- Settles O38: each of the five is a row operation, which asks for the PNG path and a row left; illegal_FT asks for a row
about to begin. -/
theorem rowOperationsNeedAnEnabledStep : Obligations.RowOperationsNeedAnEnabledStep := by
  unfold Obligations.RowOperationsNeedAnEnabledStep
  refine fun s => ⟨fun h i hi => ?_, fun h ft => onEngine_eq_refused.2 (illegalFilter_of_not_atPngRow fun hrow => ?_)⟩
  · obtain ⟨ft, predicted, hexec⟩ := exec_row_of_rowOperation hi s
    rw [hexec]
    exact onEngine_eq_refused.2 (rowOperation_of_not_enabled h)
  · obtain ⟨hr, hp, hs, hi⟩ := atPngRow_iff.1 hrow
    simp [hr, hp, hs, hi] at h

/-! ## Which steps answer a next state (70_reset_and_hazards.md R160, 60_exceptions.md R143) -/

/-- START answers a next state exactly outside RUN with a configuration the spec does not refuse. -/
theorem engineStart_exists_iff {c : CfgOf wCfg wLen} :
    (∃ u, engineStart p c e = .next u) ↔ e.phase ≠ .run ∧ refusedAtStart c p = false := by
  refine ⟨fun ⟨u, hu⟩ => ?_, fun ⟨hr, h⟩ => engineStart_exists hr h⟩
  obtain ⟨hr, -⟩ := engineStart_cases hu
  refine ⟨hr, Bool.eq_false_iff.2 fun h => ?_⟩
  exact nomatch (engineStart_of_refused hr h).symm.trans hu

theorem State.Inv.step_exists (hi : s.Inv) (hs : s.start = none) : ∃ t, step s = .next t := by
  obtain ⟨u, hu, -⟩ := engineStep_of_inv hi
  exact ⟨_, (step_of_no_start hs).trans (onEngine_eq_next.2 ⟨u, hu, rfl⟩)⟩

theorem step_of_refused_start (hr : s.phase ≠ .run) (hs : s.start = some c) (h : refusedAtStart c s.params = true) :
    step s = .refused .outsideDomain := by
  rw [step_of_start hr hs, onEngine_eq_refused]
  exact engineStart_of_refused hr h

theorem step_exists_of_admitted_start (hr : s.phase ≠ .run) (hs : s.start = some c)
    (h : refusedAtStart c s.params = false) : ∃ t, step s = .next t := by
  obtain ⟨u, hu⟩ := engineStart_exists (e := s.toEngine) hr h
  exact ⟨_, (step_of_start hr hs).trans (onEngine_eq_next.2 ⟨u, hu, rfl⟩)⟩

/-- Why a step that has START `c` to take is refused. -/
def State.StartRefused (s : State) (c : Cfg) (r : Refusal) : Prop :=
  (s.phase = .run ∧ r = .startWhileRunning)
  ∨ (s.phase ≠ .run ∧ r = .outsideDomain ∧ refusedAtStart c s.params = true)

/-- A step of a state of a run answers a next state, or is refused for the START it has to take. -/
theorem State.Inv.step_exists_or_refused (hi : s.Inv) :
    (∃ t, step s = .next t) ∨ ∃ c r, s.start = some c ∧ step s = .refused r ∧ s.StartRefused c r := by
  cases hs : s.start with
  | none => exact .inl (hi.step_exists hs)
  | some c =>
    by_cases hr : s.phase = .run
    · exact .inr ⟨c, _, rfl, step_of_start_running hr hs, .inl ⟨hr, rfl⟩⟩
    · cases hc : refusedAtStart c s.params with
      | false => exact .inl (step_exists_of_admitted_start hr hs hc)
      | true => exact .inr ⟨c, _, rfl, step_of_refused_start hr hs hc, .inr ⟨hr, rfl, hc⟩⟩

/-- Settles O48: a step exists or is refused for the START it has to take; the engine's own step always exists, and START
exactly where it is legal and inside the domain. -/
theorem onlyStartIsRefusedAndNothingFaults : Obligations.OnlyStartIsRefusedAndNothingFaults := by
  unfold Obligations.OnlyStartIsRefusedAndNothingFaults
  refine ⟨fun s hi => ⟨fun _ => hi.step_exists, fun f hf => ?_, fun r hrefused => ?_⟩,
    fun _ _ p e hi => ⟨?_, fun c => engineStart_exists_iff⟩⟩
  · obtain ⟨t, ht⟩ | ⟨c, r, -, hr, -⟩ := hi.step_exists_or_refused
    · exact nomatch ht.symm.trans hf
    · exact nomatch hr.symm.trans hf
  · obtain ⟨t, ht⟩ | ⟨c, r', hs, hr, hwhy⟩ := hi.step_exists_or_refused
    · exact nomatch ht.symm.trans hrefused
    · obtain rfl : r' = r := Host.Outcome.refused.inj (hr.symm.trans hrefused)
      exact ⟨c, hs, hwhy⟩
  · obtain ⟨u, hu, -⟩ := engineStep_of_inv hi
    exact ⟨u, hu⟩

/-! ## The length of an invocation (70_reset_and_hazards.md R161) -/

/-- After START and `n` steps the engine has `n` of the stated steps behind it. -/
theorem State.Begins.run_stepsLeft (hb : s.Begins c) (n : Nat) :
    ∃ t : State, Host.Core.run Sys2Proof.core (n + 1) s = .next t ∧ t.Inv
      ∧ t.stepsLeft = invocationSteps c (s.inBytes c.ops.len.toNat) - n := by
  obtain ⟨u, hu⟩ := engineStart_exists (e := s.toEngine) hb.legal hb.notRefused
  have hstep : step s = .next (s.takeStart.withEngine u) :=
    (step_of_start hb.legal hb.performed).trans (onEngine_eq_next.2 ⟨u, hu, rfl⟩)
  obtain ⟨t, ht, hinv, -, hleft⟩ := engineRun_of_inv n (engineStart_inv hb.memories hu)
  rw [(engineStart_setsOut hb.memories hu).steps] at hleft
  exact ⟨_, run_succ.2 ⟨_, hstep, run_of_engineRun rfl ht⟩, hinv, hleft⟩

/-- A result that is an error is held in ERROR (41_dispatch_identity.md R86). -/
theorem Engine.phase_of_result_error {kind : ErrorKind} (h : e.result = some (.error kind)) : e.phase = .error := by
  cases hp : e.phase <;> simp_all [Engine.result]

/-- Settles O56: in RUN exactly while some of the stated steps are left, and complete with the reference function after
them. -/
theorem invocationEndsAfterTheStatedSteps : Obligations.InvocationEndsAfterTheStatedSteps := by
  unfold Obligations.InvocationEndsAfterTheStatedSteps
  intro s c hb n
  refine ⟨fun m h1 hm => ?_, ?_⟩
  · obtain ⟨m, rfl⟩ := Nat.exists_eq_add_of_le' h1
    obtain ⟨t, ht, hinv, hleft⟩ := hb.run_stepsLeft m
    have hne : t.stepsLeft ≠ 0 := hleft ▸ Nat.sub_ne_zero_of_lt hm
    exact ⟨t, ht, not_not.1 (mt (Engine.Inv.stepsLeft_eq_zero_iff hinv).2 hne)⟩
  · obtain ⟨t, ht, hresult⟩ := hb.completes
    replace hresult := State.engine_result_of_result hresult
    refine ⟨t, ht, ?_⟩
    cases href : reference c (s.inBytes c.ops.len.toNat) with
    | ok bytes =>
      obtain ⟨hdone, -⟩ := Engine.of_result_ok (href ▸ hresult)
      exact hdone
    | error kind => exact Engine.phase_of_result_error (href ▸ hresult)

end Sys2Proof.Machine
end
